-- ==== Sys2Proof/Word.lean ====
section
/-! DEFINITION. The words of the codec block: bytes, counts, node indices, code words, tables indexed by symbol
(spec/00_scope.md R7, R9, R10). -/

namespace Sys2Proof

/-- A symbol or any other byte, 0 to 255 (00 R9, `SYM_W = 8`). -/
abbrev Byte := BitVec 8

/-- A frequency count or a node weight (00 R7, `COUNT_W = 64`). -/
abbrev Count := BitVec 64

/-- An index into the `NODE` arena (00 R7, `IDX_W = 9`). -/
abbrev Idx := BitVec 9

/-- A code word: a bit sequence in root-to-leaf order, first bit the choice at the root (00 R10).
`false` is 0, `true` is 1. -/
abbrev Code := List Bool

/-- A table indexed by symbol, 256 entries (10 R20, R23). `some x` is an entry with `v = 1`; an entry with
`v = 0` holds no value (10 R31). -/
abbrev Table (α : Type) := Vector (Option α) 256

end Sys2Proof
end

