-- ==== Sys2Proof/Config.lean ====
section
/-! DEFINITION. What an implementation fixes, and the free values (spec/00_scope.md R7, R8; 44 R149). A constant
without a body has no value a proof could see. -/

namespace Sys2Proof

/-- `SENTINEL`, the byte seeded into a table that would have fewer than two keys: OPEN in 00 R7, so a FREE VALUE
(DESIGN CHOICE, safe, log 1). It ranges over all 256 bytes: 0x3F, which 00 R8 excludes only indirectly, through
scenario (b) of the source, is not excluded here (DESIGN CHOICE, safe, log 1). -/
opaque Config.sentinel : Byte

/-- `STRICT_END`: 1, this hardware's value (00 R7, 44 R143; log 2). -/
def Config.strictEnd : Bool := true

/-- `CHUNK - 1`, where `CHUNK` is at least 1: OPEN in 00 R7 and read by no rule (DESIGN CHOICE, safe, log 3). -/
opaque Config.chunkPred : Nat

/-- `CHUNK`, the size of the host's buffer, at least 1. No definition of the machine reads it (20 R54). -/
def Config.chunk : Nat := Config.chunkPred + 1

/-- Where a cursor that is no entry of the tree BUILD has just made comes to stand, before it is brought below `NN`: FREE
VALUE (10 R19, 93 U21; DESIGN CHOICE, safe, log 21). The arguments are the old cursor and `NN`. -/
opaque Config.staleCursor : BitVec 9 → Nat → Nat

/-- The byte the host finds at a sink address inside the output of a failed operation: FREE VALUE (44 R149, 60 R185;
DESIGN CHOICE, safe, log 10). The first argument numbers the failure, the second is the address. -/
opaque Config.voidByte : Nat → Nat → Byte

end Sys2Proof
end

