-- ==== Sys2Proof/Machine/State.lean ====
section
/-! DEFINITION. The state of the block, of the two channels and of the host beside it, as plain data
(spec/10_state.md R13 to R36), the faults and refusals, and the state after reset (10 R33). -/

namespace Sys2Proof.Machine

/-- The implementation parameters that some rule reads (00 R7). No step changes them. -/
structure Params where
  /-- `SENTINEL` (log 1) -/
  sentinel : Byte
  /-- `STRICT_END` (log 2) -/
  strictEnd : Bool
  deriving DecidableEq, Repr

/-- A token of the IN channel (20 R41). -/
inductive Token where
  /-- `B(b)`, one byte -/
  | byte (b : Byte)
  /-- `EOS`, the end of the stream -/
  | eos
  deriving DecidableEq, Repr

/-- A `NODE` entry (10 R21): a leaf has no children, an internal node no symbol. -/
inductive Node where
  /-- `leaf = 1`: `sym`, `w` -/
  | leaf (sym : Byte) (w : Count)
  /-- `leaf = 0`: `w`, `left`, `right` -/
  | internal (w : Count) (left right : Idx)
  deriving DecidableEq, Repr

/-- The values of `CAUSE` (60 R173). Codes 10 to 15 are never written. -/
inductive Cause where
  /-- code 0: no failure -/
  | none
  /-- code 1 (60 R174) -/
  | truncHdr
  /-- code 2 (60 R175) -/
  | invalidBit
  /-- code 3 (60 R176) -/
  | danglingEnd
  /-- code 4 (60 R177) -/
  | badPad
  /-- code 5 (60 R178) -/
  | emptyTable
  /-- code 6 (60 R179) -/
  | noCode
  /-- code 7 (60 R180) -/
  | sinkErr
  /-- code 8 (60 R181) -/
  | cmdErr
  /-- code 9 (60 R182) -/
  | precond
  deriving DecidableEq, Repr

/-- The values of `PHASE` (10 R18). Codes 8 to 15 never occur. -/
inductive Phase where
  /-- code 0 -/
  | idle
  /-- code 1 -/
  | freq
  /-- code 2 -/
  | build
  /-- code 3 -/
  | assign
  /-- code 4: PACK writing the header -/
  | packHdr
  /-- code 5: PACK packing symbols and flushing -/
  | packBody
  /-- code 6 -/
  | hdr
  /-- code 7 -/
  | unpack
  deriving DecidableEq, Repr

/-- The fields of `STATUS` (10 R15). -/
structure Status where
  /-- bit 0 -/
  busy : Bool
  /-- bit 1 -/
  done : Bool
  /-- bit 2 -/
  ok : Bool
  /-- bit 3, `FT_V` -/
  ftV : Bool
  /-- bit 4, `TREE_V` -/
  treeV : Bool
  /-- bit 5, `CT_V` -/
  ctV : Bool
  /-- bit 6, `HDR_V` -/
  hdrV : Bool
  /-- bit 7 -/
  dangling : Bool
  /-- bits 11:8 -/
  cause : Cause
  /-- bits 15:12 -/
  phase : Phase
  deriving DecidableEq, Repr

/-- The running operation (45 R162, R163): a unit command, or one of the two composite commands. The model's own
field (DEDUCED, log 6). -/
inductive Op where
  | unit
  | enc
  | dec
  deriving DecidableEq, Repr

/-- The place the running unit has reached in its pseudocode between two steps (00 R6, R11). The model's own field
(DEDUCED, log 6). -/
inductive Work where
  /-- no unit runs -/
  | rest
  /-- FREQ, at `InNext()` (40 R80) -/
  | freq
  /-- BUILD, the leaf loop: the keys and counts still to become leaves (41 R90) -/
  | leaves (keys : List (Byte × Count))
  /-- BUILD, the merge loop (41 R92) -/
  | merge
  /-- ASSIGN, arriving at the node on top of `STK` (42 R105) -/
  | visit
  /-- ASSIGN, returning to the node on top of `STK` (42 R105) -/
  | unwind
  /-- PACK, before the placeholder byte (43 R114) -/
  | packStart
  /-- PACK, the header bytes still to be appended (43 R115, R116) -/
  | packHdr (bytes : List Byte)
  /-- PACK, at `InNext()` (43 R119) -/
  | packPull
  /-- PACK, the code bits of the current symbol still to be appended (43 R117) -/
  | packBits (bits : List Bool)
  /-- PACK, before the append of the last partial byte (43 R121) -/
  | packTail
  /-- PACK, before the rewrite of offset 0 (43 R122) -/
  | packRewrite
  /-- HDR, at `next()`; the operand is the low byte of the entry count once it is read (44 R130, R132) -/
  | hdr (lo : Byte)
  /-- UNPACK, at `InNext()` (44 R138) -/
  | pull
  /-- UNPACK, inside `walk`: the bits still to be examined, and the byte to hold after them, none at the end of the
  stream (44 R137, R139) -/
  | walk (bits : List Bool) (next : Option Byte)
  deriving DecidableEq, Repr

/-- What the host does to the block (00 R5, 70 R199 to R211). -/
inductive HostAct where
  /-- write a value to register `n` (10 R14, R32) -/
  | write (n : Nat) (v : Byte)
  /-- read register `n` (10 R32) -/
  | read (n : Nat)
  /-- supply tokens on the IN channel, in a burst of any size (20 R54) -/
  | feed (ts : List Token)
  /-- remove the tokens left on the IN channel (70 R208) -/
  | drain
  /-- take the output and empty the sink (70 R204, 95 P1) -/
  | takeSink
  /-- position the sink where the output is to begin (70 R199) -/
  | seekSink (a : Nat)
  /-- make the sink ready or not ready (20 R58) -/
  | sinkReady (r : Bool)
  /-- say which of the coming sink writes report failure (20 R58) -/
  | sinkFails (fs : List Bool)
  /-- assert (`true`) or release (`false`) the reset input (70 R195, R196) -/
  | resetInput (asserted : Bool)
  /-- say how many sequencer steps follow each host act (log 7) -/
  | setPace (p : Option Nat)
  deriving DecidableEq, Repr

/-- The part of the sink that a failed operation wrote (44 R149, 60 R185). -/
structure VoidRegion where
  start : Nat
  len : Nat
  tag : Nat
  deriving DecidableEq, Repr

/-- The OUT sink, lent by the host (20 R43, R58). -/
structure Sink where
  /-- its bytes by absolute offset, in canonical form -/
  mem : List Host.Cell
  /-- where the sink stood when the running operation began -/
  base : Nat
  /-- `OLEN`: bytes appended in this operation -/
  olen : Nat
  /-- whether the sink accepts a write now -/
  ready : Bool
  /-- the sink's answers to the coming writes, `true` for a reported failure; no entry is success -/
  fails : List Bool
  /-- regions whose contents are void (log 10) -/
  voids : List VoidRegion
  deriving DecidableEq, Repr

/-- Why the machine stops. Every one is a read of a field that 10 R31 says holds no value and is never read; no run
from reset gets there (log 15). All are safe: the model stops where no rule gives a value. -/
inductive Fault where
  /-- raised by BUILD's, ASSIGN's and UNPACK's steps on a `NODE` entry at or above `NN`, or on the children of a leaf
  (10 R21, R31). Safe. -/
  | nodeHoldsNoValue (i : Nat)
  /-- raised by BUILD's last step when no bit of `LIVE` is 1, so that there is no root to name (41 R89). Safe. -/
  | noLiveNode
  /-- raised by ASSIGN's step at a node with `STK` empty (10 R30, 42 R105). Safe. -/
  | stackHoldsNoValue
  deriving DecidableEq, Repr

/-- Why an instruction has no meaning. -/
inductive Refusal where
  /-- raised by `exec` alone, for an instruction that is not modelled. Safe. -/
  | notModelled (mnemonic : String)
  deriving DecidableEq, Repr

/-- The machine: the block's state (10 R13), the channels (20 R41, R43), the host's coming acts, and the model's own
bookkeeping. -/
structure State where
  par : Params
  status : Status
  /-- `PAD`, register 2 (10 R16) -/
  pad : BitVec 3
  /-- `NENT`, register 3 (10 R17) -/
  nent : BitVec 16
  /-- `FT` (10 R20) -/
  ft : Table Count
  /-- `NODE[0 .. NN-1]`; its length is `NN` (10 R21, R22) -/
  node : List Node
  /-- `NLEAF` (10 R22) -/
  nleaf : Idx
  /-- `LIVE` (10 R22) -/
  live : BitVec 511
  /-- `ROOT` (10 R22) -/
  root : Idx
  /-- `CT` (10 R23) -/
  ct : Table Code
  /-- `CUR` (10 R19) -/
  cur : Idx
  /-- `ACC` (10 R24) -/
  acc : Byte
  /-- `NB` (10 R24) -/
  nb : BitVec 3
  /-- `HOLD` and `HOLD_V` (10 R25) -/
  hold : Option Byte
  /-- `HPOS` (10 R26) -/
  hpos : BitVec 20
  /-- `HSYM` (10 R26) -/
  hsym : Byte
  /-- `HACC` (10 R26) -/
  hacc : Count
  /-- `PATH[0 .. PLEN-1]`; its length is `PLEN` (10 R30) -/
  path : List Bool
  /-- `STK`, top first: node index, and whether the right subtree is still to be visited (10 R30) -/
  stk : List (Idx × Bool)
  /-- the running operation (the model's own, log 6) -/
  op : Op
  /-- the place in the pseudocode (the model's own, log 6) -/
  work : Work
  /-- whether the reset input is asserted (70 R195) -/
  inReset : Bool
  /-- the tokens waiting on the IN channel (20 R41; the host's) -/
  inq : List Token
  /-- the OUT sink (20 R43; the host's) -/
  sink : Sink
  /-- the host's coming acts (log 8) -/
  host : List HostAct
  /-- sequencer steps per turn; none: until it has no step (log 7) -/
  pace : Option Nat
  /-- what the host's last register read returned (log 8) -/
  rdata : BitVec 16
  /-- number of void regions marked so far (the model's own, log 10) -/
  freeCtr : Nat
  deriving DecidableEq, Repr

/-- `STATUS = 0x0000` (10 R33). -/
def Status.reset : Status :=
  { busy := false, done := false, ok := false, ftV := false, treeV := false, ctV := false, hdrV := false,
    dangling := false, cause := .none, phase := .idle }

/-- A sink that holds nothing, is ready, and has no failure planned (log 9). -/
def Sink.empty : Sink := { mem := [], base := 0, olen := 0, ready := true, fails := [], voids := [] }

/-- The machine right after reset (10 R33, 70 R195), the reset input released, with nothing on the channels and no host act pending. `HSYM` and
`HACC` are unspecified there: 0 (DESIGN CHOICE, log 4). -/
def State.reset : State :=
  { par := { sentinel := Config.sentinel, strictEnd := Config.strictEnd }
    status := Status.reset
    pad := 0, nent := 0
    ft := Vector.replicate 256 none
    node := [], nleaf := 0, live := 0, root := 0
    ct := Vector.replicate 256 none
    cur := 0, acc := 0, nb := 0, hold := none, hpos := 0, hsym := 0, hacc := 0, path := [], stk := []
    op := .unit, work := .rest, inReset := false
    inq := [], sink := Sink.empty, host := [], pace := none, rdata := 0, freeCtr := 0 }

end Sys2Proof.Machine
end

