-- ==== Sys2Proof/Machine/Flags.lean ====
section
/-! DEFINITION. The flag computations: the fields of `STATUS` and its word (spec/10_state.md R15, R18, R29), start and
end actions (spec/45_commands.md R159, R160), the valid flags (10 R27), the preconditions (45 R158). The block has no
arithmetic condition code (10 R28). -/

namespace Sys2Proof.Machine

/-- The code of a cause (60 R173). -/
def Cause.code : Cause → BitVec 4
  | .none => 0
  | .truncHdr => 1
  | .invalidBit => 2
  | .danglingEnd => 3
  | .badPad => 4
  | .emptyTable => 5
  | .noCode => 6
  | .sinkErr => 7
  | .cmdErr => 8
  | .precond => 9

/-- The code of a phase (10 R18). -/
def Phase.code : Phase → BitVec 4
  | .idle => 0
  | .freq => 1
  | .build => 2
  | .assign => 3
  | .packHdr => 4
  | .packBody => 5
  | .hdr => 6
  | .unpack => 7

/-- The register `STATUS` as the host reads it (10 R15). -/
def Status.word (t : Status) : BitVec 16 :=
  t.phase.code ++ t.cause.code ++ BitVec.ofBool t.dangling ++ BitVec.ofBool t.hdrV ++ BitVec.ofBool t.ctV ++
    BitVec.ofBool t.treeV ++ BitVec.ofBool t.ftV ++ BitVec.ofBool t.ok ++ BitVec.ofBool t.done ++
    BitVec.ofBool t.busy

/-- Start actions of every operation (45 R159). -/
def Status.start (t : Status) : Status :=
  { t with busy := true, done := false, ok := false, cause := .none, dangling := false }

/-- End actions after no `raise` (45 R160). -/
def Status.succeed (t : Status) : Status :=
  { t with phase := .idle, busy := false, done := true, ok := true }

/-- `CAUSE` and the end actions after a `raise` (60 R184, 45 R160): `OK` stays as the start actions left it. -/
def Status.fail (t : Status) (c : Cause) : Status :=
  { t with cause := c, phase := .idle, busy := false, done := true }

/-- All four valid flags cleared: FREQ and HDR at their start (10 R27). -/
def Status.clearAll (t : Status) : Status :=
  { t with ftV := false, treeV := false, ctV := false, hdrV := false }

/-- `TREE_V` and `CT_V` cleared: BUILD at its start (10 R27). -/
def Status.clearTree (t : Status) : Status := { t with treeV := false, ctV := false }

/-- `CT_V` cleared: ASSIGN at its start (10 R27). -/
def Status.clearCode (t : Status) : Status := { t with ctV := false }

/-- `HDR_V` cleared: PACK at its start (10 R27). -/
def Status.clearHdr (t : Status) : Status := { t with hdrV := false }

/-- Reset values of every field but the five the start actions have just set (45 R164). -/
def Status.clearForOp (t : Status) : Status :=
  { Status.reset with busy := t.busy, done := t.done, ok := t.ok, cause := t.cause, dangling := t.dangling }

/-- The precondition of BUILD (45 R158). -/
def Status.buildReady (t : Status) : Bool := t.ftV

/-- The precondition of ASSIGN (45 R158). -/
def Status.assignReady (t : Status) : Bool := t.treeV

/-- The precondition of PACK (45 R158). -/
def Status.packReady (t : Status) : Bool := t.ftV && t.ctV

/-- The precondition of UNPACK (45 R158). -/
def Status.unpackReady (t : Status) : Bool := t.treeV && t.hdrV

end Sys2Proof.Machine
end

