-- ==== Sys2Proof/Syntax.lean ====
section
/-! DEFINITION. The instructions: one constructor per row of spec/opcode_table.json, the nine command words
(spec/30_encoding.md R61) and the five formats of the container and of the code words (R64 to R68, R71). -/

namespace Sys2Proof

/-- The rows of the opcode table. -/
inductive Instr where
  /-- CLR, command word 0x01 (45 R161). -/
  | clr
  /-- FREQ, command word 0x02 (40 R80). -/
  | freq
  /-- BUILD, command word 0x03 (41 R89). -/
  | build
  /-- ASSIGN, command word 0x04 (42 R104). -/
  | assign
  /-- PACK, command word 0x05 (43 R113). -/
  | pack
  /-- HDR, command word 0x06 (44 R130). -/
  | hdr
  /-- UNPACK, command word 0x07 (44 R137). -/
  | unpack
  /-- ENC, command word 0x08 (45 R162). -/
  | enc
  /-- DEC, command word 0x09 (45 R163). -/
  | dec
  /-- CONTAINER.PADDING_COUNT, one byte at offset 0, legal values 0 to 7 (30 R64). -/
  | paddingCount (p : Byte)
  /-- CONTAINER.ENTRY_COUNT, two bytes little-endian at offset 1 (30 R65). -/
  | entryCount (n : BitVec 16)
  /-- CONTAINER.ENTRY, the byte value and its eight count bytes little-endian (30 R66). -/
  | entry (sym : Byte) (count : Count)
  /-- CONTAINER.BODY_BYTE, eight code bits, bit position 0 first (30 R68). -/
  | bodyByte (b : Byte)
  /-- CODE_BIT, one edge of the tree: 0 to the left child, 1 to the right child (30 R71). -/
  | codeBit (v : Bool)
  deriving DecidableEq, Repr

end Sys2Proof
end

