-- ==== Sys2Proof/WellFormed.lean ====
section
/-! DEFINITION. The check on instructions that their syntax does not make: the padding count's range
(spec/30_encoding.md R64). Every other operand is legal at every value of its width (R65, R66, R68, R71). -/

namespace Sys2Proof

/-- `padding_count` is 0 to 7 (30 R64). -/
def Instr.paddingInRange : Instr → Bool
  | .paddingCount p => p.toNat ≤ 7
  | .clr | .freq | .build | .assign | .pack | .hdr | .unpack | .enc | .dec
  | .entryCount _ | .entry _ _ | .bodyByte _ | .codeBit _ => true

/-- An instruction that has an encoding. -/
abbrev Instr.WellFormed (i : Instr) : Prop := i.paddingInRange = true

end Sys2Proof
end

