-- ==== Sys2Proof/Decode.lean ====
section
/-! DEFINITION. Decoding and encoding (spec/30_encoding.md R60 to R68, R71). What a byte means depends on the space
it stands in: the command register, or a place in the container (20 R40, R50). The decoder takes that space, is
total on all bytes, and rejects by name. -/

namespace Sys2Proof

/-- Where the bytes to decode stand (20 R40, R50). -/
inductive Space where
  /-- the register `CMD` -/
  | command
  /-- container offset 0 -/
  | padding
  /-- container offsets 1 and 2 -/
  | entryCount
  /-- container offsets 3 + 9i to 11 + 9i -/
  | entry
  /-- the body, from container offset 3 + 9N -/
  | body
  /-- one bit of the body, given as the byte 0 or 1 -/
  | codeBit
  deriving DecidableEq, Repr

/-- Why bytes are no instruction. -/
inductive DecodeError where
  /-- a reserved command word: 0x00, 0x0A to 0xFF (30 R62) -/
  | reservedCommand (c : Byte)
  /-- a padding count above 7 (30 R64) -/
  | badPad (p : Byte)
  /-- a value that is no bit -/
  | notABit (b : Byte)
  /-- fewer bytes than the field has -/
  | truncated
  deriving DecidableEq, Repr

/-- The 16-bit little-endian integer of two bytes, low byte first (20 R44, 30 R65). -/
def fromLE16 (lo hi : Byte) : BitVec 16 := hi ++ lo

/-- `LE16`: the bytes of a 16-bit integer, least significant first (00 R9). -/
def le16 (v : BitVec 16) : List Byte := [v.extractLsb' 0 8, v.extractLsb' 8 8]

/-- `LE64`: the bytes of a count, least significant first (00 R9). -/
def le64 (v : Count) : List Byte :=
  [v.extractLsb' 0 8, v.extractLsb' 8 8, v.extractLsb' 16 8, v.extractLsb' 24 8,
   v.extractLsb' 32 8, v.extractLsb' 40 8, v.extractLsb' 48 8, v.extractLsb' 56 8]

/-- The 64-bit little-endian integer of eight bytes, least significant first (30 R66). -/
def fromLE64 (a b c d e f g h : Byte) : Count := h ++ g ++ f ++ e ++ d ++ c ++ b ++ a

/-- The command words of 30 R61; every other word is reserved (30 R62). -/
def decodeCommand (c : Byte) : Except DecodeError Instr :=
  if c = 0x01#8 then .ok .clr
  else if c = 0x02#8 then .ok .freq
  else if c = 0x03#8 then .ok .build
  else if c = 0x04#8 then .ok .assign
  else if c = 0x05#8 then .ok .pack
  else if c = 0x06#8 then .ok .hdr
  else if c = 0x07#8 then .ok .unpack
  else if c = 0x08#8 then .ok .enc
  else if c = 0x09#8 then .ok .dec
  else .error (.reservedCommand c)

/-- The padding byte (30 R64, 44 R131). -/
def decodePadding (p : Byte) : Except DecodeError Instr :=
  if p.toNat ≤ 7 then .ok (.paddingCount p) else .error (.badPad p)

/-- One instruction off the front of a byte list, and the bytes after it. -/
def decode (sp : Space) (bytes : List Byte) : Except DecodeError (Instr × List Byte) :=
  match sp, bytes with
  | .command, c :: rest => (decodeCommand c).map fun i => (i, rest)
  | .padding, p :: rest => (decodePadding p).map fun i => (i, rest)
  | .entryCount, lo :: hi :: rest => .ok (.entryCount (fromLE16 lo hi), rest)
  | .entry, s :: a :: b :: c :: d :: e :: f :: g :: h :: rest =>
      .ok (.entry s (fromLE64 a b c d e f g h), rest)
  | .body, b :: rest => .ok (.bodyByte b, rest)
  | .codeBit, b :: rest =>
      if b = 0#8 then .ok (.codeBit false, rest)
      else if b = 1#8 then .ok (.codeBit true, rest)
      else .error (.notABit b)
  | .command, [] | .padding, [] | .entryCount, [] | .entryCount, [_] | .body, [] | .codeBit, []
  | .entry, _ => .error .truncated

/-- The instruction that the code bit at bit position `j` of a body byte is (20 R45). -/
def decodeBodyBit (x : Byte) (j : Nat) : Instr := .codeBit (x.getLsbD j)

/-- The space an instruction's encoding stands in. -/
def Instr.space : Instr → Space
  | .clr | .freq | .build | .assign | .pack | .hdr | .unpack | .enc | .dec => .command
  | .paddingCount _ => .padding
  | .entryCount _ => .entryCount
  | .entry _ _ => .entry
  | .bodyByte _ => .body
  | .codeBit _ => .codeBit

/-- The bytes of an instruction, in stream order (30 R61, R63 to R68, R71). -/
def encode : Instr → List Byte
  | .clr => [0x01#8]
  | .freq => [0x02#8]
  | .build => [0x03#8]
  | .assign => [0x04#8]
  | .pack => [0x05#8]
  | .hdr => [0x06#8]
  | .unpack => [0x07#8]
  | .enc => [0x08#8]
  | .dec => [0x09#8]
  | .paddingCount p => [p]
  | .entryCount n => le16 n
  | .entry s c => s :: le64 c
  | .bodyByte b => [b]
  | .codeBit v => [if v then 1#8 else 0#8]

/-- The `n` bytes of a number, bits 7..0 first. -/
def tableBytes : Nat → Nat → List Byte
  | 0, _ => []
  | n + 1, w => BitVec.ofNat 8 w :: tableBytes n (w / 256)

/-- The space in which a word of the opcode table is read, by its width and value. Rows of different spaces share
words of eight bits; a word is read as a command where it is one, else as a padding count where it is one (of the
table's words only 0x00), else as a body byte (DESIGN CHOICE, log 13). -/
def tableSpace (nbits w : Nat) : Option Space :=
  if nbits = 1 then some .codeBit
  else if nbits = 8 then
    match decodeCommand (BitVec.ofNat 8 w), decodePadding (BitVec.ofNat 8 w) with
    | .ok _, _ => some .command
    | .error _, .ok _ => some .padding
    | .error _, .error _ => some .body
  else if nbits = 16 then some .entryCount
  else if nbits = 72 then some .entry
  else none

/-- How many bytes a word of the opcode table has. -/
def tableLength (nbits : Nat) : Nat := if nbits = 1 then 1 else nbits / 8

/-- The instruction the decoder reads from a word of the opcode table. -/
def decodeTableWord (nbits w : Nat) : Option Instr :=
  match tableSpace nbits w with
  | none => none
  | some sp =>
    match decode sp (tableBytes (tableLength nbits) w) with
    | .ok (i, _) => some i
    | .error _ => none

end Sys2Proof
end

