-- ==== Sys2Proof/Machine/Operands.lean ====
section
/-! DEFINITION. Operand forms: the bits of a body byte (spec/20_memory.md R45), placing a bit (spec/43_bit_packer.md
R117), the places of a header byte (spec/44_bit_unpacker.md R130), the assembly of a count byte by byte
(spec/30_encoding.md R66, R78), the register numbers (spec/20_memory.md R51). -/

namespace Sys2Proof.Machine

/-- Bit positions 0 to `k - 1` of a byte, position 0 first (20 R45, 44 R139). -/
def bitsOf (x : Byte) (k : Nat) : List Bool := (List.range k).map x.getLsbD

/-- How many bit positions of the last body byte are examined (44 R139). -/
def lastBits (pad : BitVec 3) : Nat := 8 - pad.toNat

/-- `ACC | (bit << NB)` (43 R117, 30 R78). -/
def placeBit (acc : Byte) (nb : BitVec 3) (v : Bool) : Byte :=
  acc ||| ((if v then 1#8 else 0#8) <<< nb.toNat)

/-- The padding count at the end of the body: `8 - NB`, or 0 when no partial byte remains (43 R121). -/
def padOf (nb : BitVec 3) : BitVec 3 := if nb = 0 then 0 else BitVec.ofNat 3 (8 - nb.toNat)

/-- `HACC + byte * 256^j` (44 R130). -/
def addCountByte (acc : Count) (b : Byte) (j : Nat) : Count := acc + (b.setWidth 64 <<< (8 * j))

/-- What the header byte at position `HPOS` is (44 R130, 20 R50). -/
inductive HeaderPlace where
  | padding
  | countLo
  | countHi
  | symbol
  /-- count byte `j` of an entry -/
  | count (j : Nat)
  deriving DecidableEq, Repr

/-- The field a header byte belongs to follows from `HPOS` alone (10 R26, 44 R130). -/
def headerPlace (pos : Nat) : HeaderPlace :=
  match pos with
  | 0 => .padding
  | 1 => .countLo
  | 2 => .countHi
  | n + 3 => match n % 9 with
    | 0 => .symbol
    | j + 1 => .count j

/-- The length of a header that declares `n` entries (30 R63). -/
def headerLength (n : BitVec 16) : Nat := 3 + 9 * n.toNat

end Sys2Proof.Machine
end

