-- ==== Sys2Proof/Machine/Ops.lean ====
section
/-! DEFINITION. The named operations over tables, the sink's memory and the state: reading and writing a table entry,
appending to the sink and rewriting it (spec/20_memory.md R43, R58), starting an operation (spec/45_commands.md R159,
R164), ending it (R160), and raising a failure (spec/60_exceptions.md R184). -/

namespace Sys2Proof.Machine

/-! ### Tables -/

/-- A table with no valid entry (40 R81, 42 R104). -/
def emptyTable {α : Type} : Table α := Vector.replicate 256 none

/-- The entry of a symbol; none when `v = 0`. -/
def tableGet {α : Type} (t : Table α) (s : Byte) : Option α := t[s.toNat]'s.isLt

/-- The entry of a symbol made valid with a value. -/
def tableSet {α : Type} (t : Table α) (s : Byte) (x : α) : Table α := t.set s.toNat (some x) s.isLt

/-- The symbols in ascending order (10 R20). -/
def allBytes : List Byte := (List.range 256).map (BitVec.ofNat 8)

/-- The keys of a table with their values, in ascending order of symbol (10 R20). -/
def entriesOf {α : Type} (t : Table α) : List (Byte × α) :=
  (allBytes.zip t.toList).filterMap fun p => p.2.map fun x => (p.1, x)

/-- The number of valid entries. -/
def keyCount {α : Type} (t : Table α) : Nat := (entriesOf t).length

/-! ### The sink's memory: bytes by address -/

/-- A byte of memory; a byte nothing has written holds no value (log 9). -/
def memRead (m : List Host.Cell) (a : Nat) : Option Byte :=
  match m with
  | [] => none
  | (x, y) :: r => if x = a then some y else memRead r a

/-- Write one byte, keeping the cells in rising order of address. -/
def memWrite (m : List Host.Cell) (a : Nat) (b : Byte) : List Host.Cell :=
  match m with
  | [] => [(a, b)]
  | (x, y) :: r =>
    if a < x then (a, b) :: (x, y) :: r
    else if a = x then (a, b) :: r
    else (x, y) :: memWrite r a b

/-- Every address of a list of cells is above `lo`, and they rise strictly. -/
def memRising : Nat → List Host.Cell → Bool
  | _, [] => true
  | lo, (x, _) :: r => decide (lo < x) && memRising x r

/-- The canonical form: addresses strictly rising. No entry can equal what an unlisted address reads as, which is no
value. -/
def memWf : List Host.Cell → Bool
  | [] => true
  | (x, _) :: r => memRising x r

/-! ### The sink -/

/-- What a write to the sink comes to (20 R58). -/
inductive SinkAnswer where
  /-- the sink is not ready: no step -/
  | wait
  /-- the sink reports failure -/
  | failed (k : Sink)
  /-- the write succeeds -/
  | done (k : Sink)
  deriving DecidableEq, Repr

/-- `MemWrite(off, 1, b)`, the offset relative to where the sink stood when the operation began (00 R11, 20 R43). A
write at `OLEN` appends. -/
def Sink.store (k : Sink) (off : Nat) (b : Byte) : Sink :=
  { k with mem := memWrite k.mem (k.base + off) b, olen := if off = k.olen then k.olen + 1 else k.olen }

/-- One write, with the sink's answer (20 R58). -/
def Sink.put (k : Sink) (off : Nat) (b : Byte) : SinkAnswer :=
  if k.ready then
    match k.fails with
    | true :: r => .failed { k with fails := r }
    | false :: r => .done ({ k with fails := r }.store off b)
    | [] => .done (k.store off b)
  else .wait

/-- A new operation's offsets count from where the sink now stands (20 R43). -/
def Sink.rebase (k : Sink) : Sink := { k with base := k.base + k.olen, olen := 0 }

/-- What this operation has written is void (44 R149, 60 R185; log 10). -/
def Sink.voidOutput (k : Sink) (tag : Nat) : Sink :=
  if k.olen = 0 then k else { k with voids := { start := k.base, len := k.olen, tag := tag } :: k.voids }

/-- The bytes this operation has written so far, in offset order. -/
def Sink.output (k : Sink) : List Byte := (List.range k.olen).filterMap fun i => memRead k.mem (k.base + i)

/-- The void region an address lies in. -/
def voidTag (vs : List VoidRegion) (a : Nat) : Option Nat :=
  (vs.find? fun v => decide (v.start ≤ a ∧ a < v.start + v.len)).map VoidRegion.tag

/-- What the host finds, made the sink's contents: every byte of a void region becomes its free value, and no region is
left (log 10). What the host observes does not change. -/
def Sink.settle (k : Sink) : Sink :=
  { k with
    mem := k.mem.map fun c => (c.1, match voidTag k.voids c.1 with
      | none => c.2
      | some tag => Config.voidByte tag c.1)
    voids := [] }

/-- The byte the host finds at an absolute offset of the sink: a free value inside the output of a failed operation
(44 R149, 60 R185; log 10). -/
def Sink.observe (k : Sink) (a : Nat) : Option Byte :=
  match memRead k.mem a, voidTag k.voids a with
  | none, _ => none
  | some b, none => some b
  | some _, some tag => some (Config.voidByte tag a)

/-! ### The course of an operation -/

/-- `NN` (10 R22). -/
def State.nn (s : State) : Nat := s.node.length

/-- The void marking of a sink an operation leaves without success. -/
def voidSink (s : State) : State :=
  { s with sink := s.sink.voidOutput s.freeCtr,
           freeCtr := if s.sink.olen = 0 then s.freeCtr else s.freeCtr + 1 }

/-- The block takes a command: no operation runs, and the reset input is not asserted (45 R155, R156, 70 R195). -/
def takesCommand (s : State) : Bool := !s.status.busy && !s.inReset

/-- Start actions of every operation (45 R159); the sink's offsets start where it stands (20 R43). -/
def startOp (s : State) (op : Op) : State :=
  { s with status := s.status.start, op := op, sink := s.sink.rebase }

/-- End actions after no `raise` (45 R160). -/
def endOk (s : State) : State := { s with status := s.status.succeed, op := .unit, work := .rest }

/-- `raise <Cause>`: TAKING A FAILURE (60 R184). The unit stops, the remaining units are skipped, `CAUSE` is written
and the end actions run; every table and register keeps its value. The output so far is void (60 R185, log 10). -/
def raiseCause (c : Cause) (s : State) : State :=
  { voidSink s with status := s.status.fail c, op := .unit, work := .rest }

/-- Every register and table at its reset value (10 R33), the result flags aside (45 R164): CLR, ENC and DEC begin
so. The parameters, the channels and the host are untouched. -/
def clearBlock (s : State) : State :=
  { s with
    status := s.status.clearForOp
    pad := 0, nent := 0
    ft := emptyTable
    node := [], nleaf := 0, live := 0, root := 0
    ct := emptyTable
    cur := 0, acc := 0, nb := 0, hold := none, hpos := 0, hsym := 0, hacc := 0, path := [], stk := []
    work := .rest }

/-- The reset input is asserted (70 R195, R196): every register and table takes its reset value, no end actions; the
output of an abandoned operation is void, the channel keeps its tokens. -/
def resetBlock (s : State) : State :=
  let t := if s.status.busy then voidSink s else s
  { clearBlock t with status := Status.reset, op := .unit }

/-! ### One sequencer step -/

/-- What the sequencer does at its turn (00 R6): it has no step (60 R194), takes one, or stops at a field that holds
no value (log 15). -/
inductive Tick where
  | wait
  | next (s : State)
  | fault (f : Fault)
  deriving DecidableEq, Repr

/-- One write to the sink as (part of) a step: `good` is the state after the write, given the sink; `bad` is the state
at the point of failure (43 R126, 60 R180). -/
def writeStep (s : State) (off : Nat) (b : Byte) (good : State) (bad : State) : Tick :=
  match s.sink.put off b with
  | .wait => .wait
  | .failed k => .next (raiseCause .sinkErr { bad with sink := k })
  | .done k => .next { good with sink := k }

end Sys2Proof.Machine
end

