-- ==== Sys2Proof/Machine/Units.lean ====
section
/-! DEFINITION. How each unit begins, once its precondition holds, and what follows when it ends without failure: the
next unit of ENC or DEC, or the end actions (spec/10_state.md R18, R27; spec/45_commands.md R162, R163). Both belong to
the step that ends the unit: the model's choice of grouping (00 R6 leaves it open; log 20). -/

namespace Sys2Proof.Machine

/-- FREQ begins (40 R80, R81). -/
def startFreq (s : State) : State :=
  { s with status := { s.status.clearAll with phase := .freq }, ft := emptyTable, work := .freq }

/-- BUILD begins (41 R89): no node, no live bit, the keys of `FT` to become leaves in ascending order (R90). -/
def startBuild (s : State) : State :=
  { s with status := { s.status.clearTree with phase := .build }, node := [], live := 0,
           work := .leaves (entriesOf s.ft) }

/-- ASSIGN begins (42 R104, R105). -/
def startAssign (s : State) : State :=
  { s with status := { s.status.clearCode with phase := .assign }, ct := emptyTable, path := [],
           stk := [(s.root, true)], work := .visit }

/-- PACK begins (43 R113). -/
def startPack (s : State) : State :=
  { s with status := { s.status.clearHdr with phase := .packHdr }, work := .packStart }

/-- HDR begins (44 R130). -/
def startHdr (s : State) : State :=
  { s with status := { s.status.clearAll with phase := .hdr }, ft := emptyTable, hpos := 0, work := .hdr 0 }

/-- UNPACK begins (44 R137). -/
def startUnpack (s : State) : State :=
  { s with status := { s.status with phase := .unpack }, cur := s.root, hold := none, work := .pull }

/-- FREQ has ended (45 R162). -/
def afterFreq (s : State) : State :=
  match s.op with
  | .enc => startBuild s
  | .unit | .dec => endOk s

/-- BUILD has ended without failure (45 R162, R163). -/
def afterBuild (s : State) : State :=
  match s.op with
  | .enc => startAssign s
  | .dec => startUnpack s
  | .unit => endOk s

/-- ASSIGN has ended (45 R162). -/
def afterAssign (s : State) : State :=
  match s.op with
  | .enc => startPack s
  | .unit | .dec => endOk s

/-- HDR has ended without failure (45 R163). -/
def afterHdr (s : State) : State :=
  match s.op with
  | .dec => startBuild s
  | .unit | .enc => endOk s

end Sys2Proof.Machine
end

