-- ==== Sys2Proof/Machine/Assign.lean ====
section
/-! DEFINITION. ASSIGN, the code assigner (spec/42_code_assigner.md R104 to R111): its steps, in the stack form of
R105. -/

namespace Sys2Proof.Machine

/-- Arriving at the node on top of `STK`: a leaf records `PATH` as its code word and is left; an internal node
appends 0 to `PATH` and goes to its left child, its right one still to be visited (42 R105). -/
def visitTick (s : State) : Tick :=
  match s.stk with
  | [] => .fault .stackHoldsNoValue
  | (i, _) :: below =>
    match s.node[i.toNat]? with
    | none => .fault (.nodeHoldsNoValue i.toNat)
    | some (.leaf sym _) => .next { s with ct := tableSet s.ct sym s.path, stk := below, work := .unwind }
    | some (.internal _ left _) =>
      .next { s with path := s.path ++ [false], stk := (left, true) :: (i, true) :: below }

/-- Returning to the node on top of `STK`: with its right side pending, the last bit of `PATH` becomes 1 and the walk
goes right; returning from the right side, the last bit is dropped and the node left. With `STK` empty the traversal
is over (42 R105, R104). -/
def unwindTick (s : State) : Tick :=
  match s.stk with
  | [] => .next (afterAssign { s with status := { s.status with ctV := true } })
  | (i, true) :: below =>
    match s.node[i.toNat]? with
    | some (.internal _ _ right) =>
      .next { s with path := s.path.dropLast ++ [true], stk := (right, true) :: (i, false) :: below, work := .visit }
    | some (.leaf _ _) | none => .fault (.nodeHoldsNoValue i.toNat)
  | (_, false) :: below => .next { s with path := s.path.dropLast, stk := below }

end Sys2Proof.Machine
end

