-- ==== Sys2Proof/Machine/Build.lean ====
section
/-! DEFINITION. BUILD, the tree builder (spec/41_tree_builder.md R89 to R102): its steps. -/

namespace Sys2Proof.Machine

/-- A node's weight (10 R21). -/
def Node.weight : Node → Count
  | .leaf _ w => w
  | .internal w _ _ => w

/-- The weight of `NODE[i]`; no caller asks it of an entry at or above `NN`. -/
def weightAt (ns : List Node) (i : Nat) : Count :=
  match ns[i]? with
  | some n => n.weight
  | none => 0

/-- `(NODE[i].w, i)` comes before `(NODE[j].w, j)` in lexicographic order, unsigned (41 R91). -/
def lighter (ns : List Node) (i j : Nat) : Bool :=
  decide ((weightAt ns i).toNat < (weightAt ns j).toNat) ||
    (decide ((weightAt ns i).toNat = (weightAt ns j).toNat) && decide (i < j))

/-- The first of some nodes in that order. -/
def argmin (ns : List Node) : List Nat → Option Nat
  | [] => none
  | i :: r => match argmin ns r with
    | none => some i
    | some j => if lighter ns i j then some i else some j

/-- The live nodes, in ascending order of index (10 R22). -/
def liveNodes (ns : List Node) (live : BitVec 511) : List Nat :=
  (List.range ns.length).filter fun i => live.getLsbD i

/-- `argmin_live` (00 R11, 41 R91). -/
def argminLive (ns : List Node) (live : BitVec 511) : Option Nat := argmin ns (liveNodes ns live)

/-- `LIVE[i] <- 1`. -/
def setLive (live : BitVec 511) (i : Nat) : BitVec 511 := live ||| BitVec.twoPow 511 i

/-- `LIVE[i] <- 0`. -/
def clearLive (live : BitVec 511) (i : Nat) : BitVec 511 := live &&& ~~~(BitVec.twoPow 511 i)

/-- A new node: it takes index `NN`, is live, and `NN` grows by one (41 R89, R90, R92). -/
def addNode (n : Node) (s : State) : State :=
  { s with node := s.node ++ [n], live := setLive s.live s.node.length }

/-- One leaf step (41 R90), or the end of the leaf loop: `NLEAF`, and `EMPTY_TABLE` for a table without a key
(R97). -/
def leavesTick (keys : List (Byte × Count)) (s : State) : Tick :=
  match keys with
  | (k, c) :: rest => .next (addNode (.leaf k c) { s with work := .leaves rest })
  | [] =>
    let s1 := { s with nleaf := BitVec.ofNat 9 s.node.length }
    if s.node = [] then .next (raiseCause .emptyTable s1) else .next { s1 with work := .merge }

/-- The merge of two nodes: the first removed is the left child, the second the right, the weight is the sum modulo
2^64 (41 R92, R93, R94). -/
def mergeNode (ns : List Node) (a b : Nat) : Node :=
  .internal (weightAt ns a + weightAt ns b) (BitVec.ofNat 9 a) (BitVec.ofNat 9 b)

/-- The cursor once a tree of `nn` entries is valid: an entry in use, as 10 R19 says it always is while `TREE_V = 1`. It
stays where it stands if that is an entry; else, left by an earlier and larger tree, it comes to any entry: between
operations it is a scratch register, of any value (93 U21). How R19 is kept beside BUILD's list of what it writes (41 R89)
is the model's choice (log 21). -/
def boundCursor (nn : Nat) (cur : Idx) : Idx :=
  if cur.toNat < nn then cur else BitVec.ofNat 9 (Config.staleCursor cur nn % nn)

/-- One merge step, the second `argmin_live` taken after the first node is removed; or the end of BUILD (41 R89,
R92, R95). -/
def mergeTick (s : State) : Tick :=
  match liveNodes s.node s.live with
  | [] => .fault .noLiveNode
  | [r] => .next (afterBuild { s with
      root := BitVec.ofNat 9 r, cur := boundCursor s.nn s.cur, status := { s.status with treeV := true } })
  | _ :: _ :: _ =>
    match argminLive s.node s.live with
    | none => .fault .noLiveNode
    | some a =>
      match argminLive s.node (clearLive s.live a) with
      | none => .fault .noLiveNode
      | some b => .next (addNode (mergeNode s.node a b) { s with live := clearLive (clearLive s.live a) b })

end Sys2Proof.Machine
end

