-- ==== Sys2Proof/Machine/Freq.lean ====
section
/-! DEFINITION. FREQ, the frequency counter (spec/40_frequency_counter.md R80 to R87): its step. -/

namespace Sys2Proof.Machine

/-- One byte counted (40 R82, R85): a value seen for the first time becomes a key with count 1, a key's count grows
by one modulo 2^64. -/
def countByte (t : Table Count) (b : Byte) : Table Count :=
  match tableGet t b with
  | none => tableSet t b 1
  | some n => tableSet t b (n + 1)

/-- The sentinel rule, after the scan (40 R83). -/
def seedSentinel (sentinel : Byte) (t : Table Count) : Table Count :=
  if keyCount t < 2 ∧ tableGet t sentinel = none then tableSet t sentinel 0 else t

/-- FREQ on one token (40 R80). -/
def freqToken (t : Token) (s : State) : State :=
  match t with
  | .byte b => { s with ft := countByte s.ft b }
  | .eos => afterFreq { s with ft := seedSentinel s.par.sentinel s.ft, status := { s.status with ftV := true } }

/-- One step of FREQ: the next token, or none while the host has supplied none (20 R41). -/
def freqTick (s : State) : Tick :=
  match s.inq with
  | [] => .wait
  | t :: rest => .next (freqToken t { s with inq := rest })

end Sys2Proof.Machine
end

