-- ==== Sys2Proof/Machine/Hdr.lean ====
section
/-! DEFINITION. HDR, the header parser (spec/44_bit_unpacker.md R130 to R135): its step. -/

namespace Sys2Proof.Machine

/-- HDR ends when `3 + 9 * NENT` bytes are consumed (44 R130). -/
def hdrCheckEnd (s : State) : State :=
  if s.hpos.toNat = headerLength s.nent then
    afterHdr { s with status := { s.status with ftV := true, hdrV := true } }
  else s

/-- The padding byte: 0 to 7, or `BAD_PAD` (44 R131). -/
def hdrPadding (b : Byte) (s : State) : State :=
  match decodePadding b with
  | .ok _ => { s with pad := b.setWidth 3 }
  | .error _ => raiseCause .badPad s

/-- Count byte `j` of an entry; the eighth completes it: the pair is stored at `FT[HSYM]`, a later pair over an
earlier one (44 R130, R133). -/
def hdrCount (b : Byte) (j : Nat) (s : State) : State :=
  let n := addCountByte s.hacc b j
  if j = 7 then hdrCheckEnd { s with hacc := n, ft := tableSet s.ft s.hsym n } else { s with hacc := n }

/-- The header parser on one byte: `HPOS` grows by one, and the byte goes to the field its position names (44 R130).
`lo` is the low byte of the entry count, once read (R132). -/
def hdrByte (lo b : Byte) (s : State) : State :=
  let s1 := { s with hpos := s.hpos + 1 }
  match headerPlace s.hpos.toNat with
  | .padding => hdrPadding b s1
  | .countLo => { s1 with work := .hdr b }
  | .countHi => hdrCheckEnd { s1 with nent := fromLE16 lo b }
  | .symbol => { s1 with hsym := b, hacc := 0 }
  | .count j => hdrCount b j s1

/-- One step of HDR: the next byte, or `TRUNC_HDR` at `EOS` (44 R134), or none while there is no token. -/
def hdrTick (lo : Byte) (s : State) : Tick :=
  match s.inq with
  | [] => .wait
  | .eos :: rest => .next (raiseCause .truncHdr { s with inq := rest })
  | .byte b :: rest => .next (hdrByte lo b { s with inq := rest })

end Sys2Proof.Machine
end

