-- ==== Sys2Proof/Machine/Pack.lean ====
section
/-! DEFINITION. PACK, the header writer and bit-packer (spec/43_bit_packer.md R113 to R128): its steps. -/

namespace Sys2Proof.Machine

/-- An entry's nine bytes (30 R66, 43 R116). -/
def entryBytes (e : Byte × Count) : List Byte := e.1 :: le64 e.2

/-- The header after the placeholder: the entry count, then the entries in ascending order (43 R115, R116). -/
def headerTail (t : Table Count) : List Byte :=
  le16 (BitVec.ofNat 16 (keyCount t)) ++ (entriesOf t).flatMap entryBytes

/-- The placeholder is appended, then `NENT` latched (43 R113, R114, R115), in one step: the model's grouping, log 20.
-/
def packStartTick (s : State) : Tick :=
  writeStep s s.sink.olen 0x00#8
    { s with nent := BitVec.ofNat 16 (keyCount s.ft), work := .packHdr (headerTail s.ft) } s

/-- The body begins: `PHASE <- 5`, `ACC <- 0`, `NB <- 0` (43 R113). -/
def startBody (s : State) : State :=
  { s with status := { s.status with phase := .packBody }, acc := 0, nb := 0, work := .packPull }

/-- One header byte appended; after the last one the body begins (43 R115, R116). That the step of the last append
also sets `PHASE` to 5 and clears `ACC` and `NB`, so that `PHASE = 4` is never read with the whole header written, is
the model's choice of grouping (00 R6 leaves it open; log 20). -/
def packHdrTick (bytes : List Byte) (s : State) : Tick :=
  match bytes with
  | [] => .next (startBody s)
  | [b] => writeStep s s.sink.olen b (startBody s) s
  | b :: rest => writeStep s s.sink.olen b { s with work := .packHdr rest } s

/-- Where PACK stands with these bits of the current code word still to be appended. -/
def packWork (bits : List Bool) : Work := if bits = [] then .packPull else .packBits bits

/-- PACK on one token of the body: a byte's code word is looked up, a byte without one raises `NO_CODE` (43 R119,
R120); at the end of the stream the padding count is computed (R121), in
the step that pulls `EOS` (the model's grouping, log 20). -/
def packToken (t : Token) (s : State) : State :=
  match t with
  | .byte b => match tableGet s.ct b with
    | none => raiseCause .noCode s
    | some c => { s with work := packWork c }
  | .eos => { s with pad := padOf s.nb, work := if s.nb = 0 then .packRewrite else .packTail }

/-- PACK at `InNext()`. -/
def packPullTick (s : State) : Tick :=
  match s.inq with
  | [] => .wait
  | t :: rest => .next (packToken t { s with inq := rest })

/-- One code bit appended (43 R117), with the byte it completes, if it does (R118): one step, the model's grouping
(log 20). At a failed write `ACC` is full and `NB` has wrapped. -/
def packBit (v : Bool) (rest : List Bool) (s : State) : Tick :=
  let acc := placeBit s.acc s.nb v
  if s.nb = 7 then
    writeStep s s.sink.olen acc { s with acc := 0, nb := 0, work := packWork rest } { s with acc := acc, nb := 0 }
  else .next { s with acc := acc, nb := s.nb + 1, work := packWork rest }

/-- The code bits of the current symbol. -/
def packBitsTick (bits : List Bool) (s : State) : Tick :=
  match bits with
  | [] => .next { s with work := .packPull }
  | v :: rest => packBit v rest s

/-- The last, partial byte is appended; its high bits are 0 already (43 R121). -/
def packTailTick (s : State) : Tick :=
  writeStep s s.sink.olen s.acc { s with acc := 0, nb := 0, work := .packRewrite } s

/-- The rewrite of offset 0 by `PAD`, the last action (43 R122); then the end actions (PACK is the last unit of
ENC), in the same step (the model's grouping, log 20). -/
def packRewriteTick (s : State) : Tick := writeStep s 0 (s.pad.setWidth 8) (endOk s) s

end Sys2Proof.Machine
end

