-- ==== Sys2Proof/Machine/Unpack.lean ====
section
/-! DEFINITION. UNPACK, the bit-unpacker with its tree walk (spec/44_bit_unpacker.md R137 to R152): its steps. -/

namespace Sys2Proof.Machine

/-- The end of the body: `DANGLING`, and `DANGLING_END` when `STRICT_END = 1` (44 R143); UNPACK is the last unit of
DEC. It has no step of its own (the model's grouping, log 20). -/
def unpackEnd (s : State) : State :=
  let d := decide (s.cur ≠ s.root)
  let s1 := { s with status := { s.status with dangling := d } }
  if d && s.par.strictEnd then raiseCause .danglingEnd s1 else endOk s1

/-- A `walk` is over: the byte that ended it is held (44 R138), or the body has ended (R139). Both belong to the step
of the last bit examined and of the append it makes, where the pseudocode has statements of their own: the model's
choice of grouping (00 R6 leaves it open; log 20). -/
def walkEnd (next : Option Byte) (s : State) : State :=
  match next with
  | some b => { s with hold := some b, work := .pull }
  | none => unpackEnd { s with hold := none }

/-- Where UNPACK stands with these bits still to be examined. -/
def walkFrom (bits : List Bool) (next : Option Byte) (s : State) : State :=
  if bits = [] then walkEnd next s else { s with work := .walk bits next }

/-- UNPACK on one token (44 R137, R138): a byte makes its predecessor walk whole; `EOS` makes the last byte walk
without its padding. -/
def unpackToken (t : Token) (s : State) : State :=
  match t, s.hold with
  | .byte b, none => { s with hold := some b }
  | .byte b, some x => walkFrom (bitsOf x 8) (some b) s
  | .eos, none => unpackEnd s
  | .eos, some x => walkFrom (bitsOf x (lastBits s.pad)) none s

/-- UNPACK at `InNext()`. -/
def pullTick (s : State) : Tick :=
  match s.inq with
  | [] => .wait
  | t :: rest => .next (unpackToken t { s with inq := rest })

/-- One bit examined (44 R137): on a leaf the child does not exist, `INVALID_BIT` (R141); else the cursor moves left
on 0, right on 1 (R140); at a leaf its symbol is appended and the cursor returns to the root (R142). All of it
is one step (the model's grouping, log 20). -/
def walkBit (v : Bool) (rest : List Bool) (next : Option Byte) (s : State) : Tick :=
  match s.node[s.cur.toNat]? with
  | none => .fault (.nodeHoldsNoValue s.cur.toNat)
  | some (.leaf _ _) => .next (raiseCause .invalidBit s)
  | some (.internal _ left right) =>
    let child := if v then right else left
    match s.node[child.toNat]? with
    | none => .fault (.nodeHoldsNoValue child.toNat)
    | some (.internal _ _ _) => .next (walkFrom rest next { s with cur := child })
    | some (.leaf sym _) =>
      match s.sink.put s.sink.olen sym with
      | .wait => .wait
      | .failed k => .next (raiseCause .sinkErr { s with cur := child, sink := k })
      | .done k => .next (walkFrom rest next { s with cur := s.root, sink := k })

/-- The bits of the byte being walked. -/
def walkTick (bits : List Bool) (next : Option Byte) (s : State) : Tick :=
  match bits with
  | [] => .next (walkEnd next s)
  | v :: rest => walkBit v rest next s

end Sys2Proof.Machine
end

