-- ==== Sys2Proof/Machine/Sequencer.lean ====
section
/-! DEFINITION. The sequencer: one step of it (spec/00_scope.md R6), several, and its turn (log 7). -/

namespace Sys2Proof.Machine

/-- One step of the sequencer; it has none when no operation runs (60 R194). -/
def tick (s : State) : Tick :=
  if s.status.busy then
    match s.work with
    | .rest => .wait
    | .freq => freqTick s
    | .leaves keys => leavesTick keys s
    | .merge => mergeTick s
    | .visit => visitTick s
    | .unwind => unwindTick s
    | .packStart => packStartTick s
    | .packHdr bytes => packHdrTick bytes s
    | .packPull => packPullTick s
    | .packBits bits => packBitsTick bits s
    | .packTail => packTailTick s
    | .packRewrite => packRewriteTick s
    | .hdr lo => hdrTick lo s
    | .pull => pullTick s
    | .walk bits next => walkTick bits next s
  else .wait

/-- At most `n` steps of the sequencer, fewer if it has no step before. -/
def drive : Nat → State → Host.Outcome State Fault Refusal
  | 0, s => .next s
  | n + 1, s =>
    match tick s with
    | .wait => .next s
    | .next t => drive n t
    | .fault f => .fault f

/-- More steps than any operation takes on the tokens now on the channel (70 R212; log 17). -/
def stepBound (s : State) : Nat := 8192 + 512 * (s.inq.length + 1)

/-- The steps of one turn. 00 R6 leaves the pace open: the host sets it, 0 included, and that is the model's choice
(log 7). A pace of 0 holds the sequencer back in the step that serves a host act and nowhere else: see `ownTurn`. -/
def budget (s : State) : Nat :=
  match s.pace with
  | some n => n
  | none => stepBound s

/-- The sequencer's turn: as many steps as `pace` says, or until it has no step. -/
def turn (s : State) : Host.Outcome State Fault Refusal := drive (budget s) s

/-- The sequencer's turn when no host act is pending: it takes at least one step wherever it has one, whatever the pace,
since there is no stuck state but waiting and idleness (60 R194), and `DONE` is 1 eventually, given tokens and sink
(70 R211). That it has a turn in every such step is the model's choice (log 7). -/
def ownTurn (s : State) : Host.Outcome State Fault Refusal := drive (max 1 (budget s)) s

end Sys2Proof.Machine
end

