-- ==== Sys2Proof/Machine/Commands.lean ====
section
/-! DEFINITION. The meanings of the nine command words, and of a reserved one (spec/45_commands.md R155 to R164;
spec/30_encoding.md R61, R62). Each is the whole operation: start actions, precondition, and the sequencer's turn,
which runs the unit or units to the end actions, or until the block waits for the host (log 7). -/

namespace Sys2Proof.Machine

/-- A command written to `CMD` (45 R155): discarded while busy (R156) and while the reset input is asserted
(70 R195); else the start actions (R159), the precondition (R158), and the operation. That the sequencer makes no step
in the same step as a discarded write is the model's choice (00 R6 leaves the pace open; log 7). -/
def issue (op : Op) (ready : Status → Bool) (start : State → State) (s : State) :
    Host.Outcome State Fault Refusal :=
  if takesCommand s then
    let s1 := startOp s op
    if ready s1.status then turn (start s1) else .next (raiseCause .precond s1)
  else .next s

/-- No precondition (45 R158). -/
def always (_ : Status) : Bool := true

/-- CLR: every piece of state takes its reset value; it ends with `DONE`, `OK` (45 R161). Start actions, clearing and
end actions are one step, whatever the pace, so that `BUSY = 1` is never read of a CLR: the model's choice (00 R6 leaves
the granularity open; log 7). -/
def execClr (s : State) : Host.Outcome State Fault Refusal :=
  if takesCommand s then .next (endOk (clearBlock (startOp s .unit))) else .next s

/-- FREQ counts one input pass into `FT` (40 R80). -/
def execFreq (s : State) : Host.Outcome State Fault Refusal := issue .unit always startFreq s

/-- BUILD builds the tree from `FT` (41 R89). -/
def execBuild (s : State) : Host.Outcome State Fault Refusal := issue .unit Status.buildReady startBuild s

/-- ASSIGN derives `CT` from the tree (42 R104). -/
def execAssign (s : State) : Host.Outcome State Fault Refusal := issue .unit Status.assignReady startAssign s

/-- PACK writes the header, packs one input pass, pads (43 R113). -/
def execPack (s : State) : Host.Outcome State Fault Refusal := issue .unit Status.packReady startPack s

/-- HDR parses a container header into `PAD`, `NENT`, `FT` (44 R130). -/
def execHdr (s : State) : Host.Outcome State Fault Refusal := issue .unit always startHdr s

/-- UNPACK decodes a body by walking the tree (44 R137). -/
def execUnpack (s : State) : Host.Outcome State Fault Refusal := issue .unit Status.unpackReady startUnpack s

/-- ENC: everything to its reset value, then FREQ, BUILD, ASSIGN, PACK (45 R162, R164). -/
def execEnc (s : State) : Host.Outcome State Fault Refusal := issue .enc always (fun t => startFreq (clearBlock t)) s

/-- DEC: everything to its reset value, then HDR, BUILD, UNPACK (45 R163, R164). -/
def execDec (s : State) : Host.Outcome State Fault Refusal := issue .dec always (fun t => startHdr (clearBlock t)) s

/-- A reserved command word: start actions, `CMD_ERR`, end actions, nothing else (45 R157, 30 R62); one step, whatever
the pace (the model's choice, log 7). -/
def execReserved (s : State) : Host.Outcome State Fault Refusal :=
  if takesCommand s then .next (raiseCause .cmdErr (startOp s .unit)) else .next s

end Sys2Proof.Machine
end

