-- ==== Sys2Proof/Machine/Fields.lean ====
section
/-! DEFINITION. The meanings of the container's fields and of a code bit (spec/30_encoding.md R64 to R68, R71): what
the unit that takes the item does with it, the item's bytes being off the channel already. Where no unit stands at
the item's place nothing takes it, and nothing changes (spec/20_memory.md R41; log 12). -/

namespace Sys2Proof.Machine

/-- Hand bytes to a running HDR, one step a byte (44 R130, 20 R48). -/
def feedHeader : List Byte → State → State
  | [], s => s
  | b :: rest, s =>
    match s.status.busy, s.work with
    | true, .hdr lo => feedHeader rest (hdrByte lo b s)
    | _, _ => s

/-- HDR is running and the next byte it takes has the given place in the header. -/
def hdrAt (place : HeaderPlace) (s : State) : Bool :=
  match s.work with
  | .hdr _ => s.status.busy && decide (headerPlace s.hpos.toNat = place)
  | _ => false

/-- CONTAINER.PADDING_COUNT: into `PAD`, or `BAD_PAD` (44 R131). -/
def execPaddingCount (p : Byte) (s : State) : Host.Outcome State Fault Refusal :=
  if hdrAt .padding s then .next (feedHeader [p] s) else .next s

/-- CONTAINER.ENTRY_COUNT: into `NENT`; 0 ends HDR (44 R132). -/
def execEntryCount (n : BitVec 16) (s : State) : Host.Outcome State Fault Refusal :=
  if hdrAt .countLo s then .next (feedHeader (le16 n) s) else .next s

/-- CONTAINER.ENTRY: stored at `FT[byte value]`; the last one declared ends HDR (44 R133). -/
def execEntry (sym : Byte) (count : Count) (s : State) : Host.Outcome State Fault Refusal :=
  if hdrAt .symbol s then .next (feedHeader (sym :: le64 count) s) else .next s

/-- The number of bits a walk has still to examine. -/
def walkLeft (s : State) : Nat :=
  match s.work with
  | .walk bits _ => bits.length
  | _ => 0

/-- CONTAINER.BODY_BYTE: its predecessor, if any, is walked whole, one step a bit, and it is held (44 R137, R138). -/
def execBodyByte (b : Byte) (s : State) : Host.Outcome State Fault Refusal :=
  match s.status.busy, s.work with
  | true, .pull =>
    let t := unpackToken (.byte b) s
    drive (walkLeft t) t
  | _, _ => .next s

/-- A step made of an item taken off: if the sequencer has no step, the item stays where it was. -/
def stepOrStay (t : Tick) (stay : State) : Host.Outcome State Fault Refusal :=
  match t with
  | .wait => .next stay
  | .next u => .next u
  | .fault f => .fault f

/-- CODE_BIT: in UNPACK the cursor moves along the edge it names (44 R140 to R142); in PACK it is appended to the body
(43 R117, R118). -/
def execCodeBit (v : Bool) (s : State) : Host.Outcome State Fault Refusal :=
  match s.status.busy, s.work with
  | true, .walk bits next => stepOrStay (walkBit v bits next s) { s with work := .walk (v :: bits) next }
  | true, .packBits bits => stepOrStay (packBit v bits s) { s with work := .packBits (v :: bits) }
  | _, _ => .next s

end Sys2Proof.Machine
end

