-- ==== Sys2Proof/Machine/Dispatch.lean ====
section
/-! DEFINITION. One arm per row of spec/opcode_table.json. -/

namespace Sys2Proof.Machine

def exec (i : Instr) (s : State) : Host.Outcome State Fault Refusal :=
  match i with
  | .clr => Sys2Proof.Machine.execClr s
  | .freq => Sys2Proof.Machine.execFreq s
  | .build => Sys2Proof.Machine.execBuild s
  | .assign => Sys2Proof.Machine.execAssign s
  | .pack => Sys2Proof.Machine.execPack s
  | .hdr => Sys2Proof.Machine.execHdr s
  | .unpack => Sys2Proof.Machine.execUnpack s
  | .enc => Sys2Proof.Machine.execEnc s
  | .dec => Sys2Proof.Machine.execDec s
  | .paddingCount p => Sys2Proof.Machine.execPaddingCount p s
  | .entryCount n => Sys2Proof.Machine.execEntryCount n s
  | .entry sym count => Sys2Proof.Machine.execEntry sym count s
  | .bodyByte b => Sys2Proof.Machine.execBodyByte b s
  | .codeBit v => Sys2Proof.Machine.execCodeBit v s

end Sys2Proof.Machine
end

