-- ==== Sys2Proof/Machine/HostPort.lean ====
section
/-! DEFINITION. The host's side (spec/10_state.md R14 to R17, R32; spec/20_memory.md R41, R51, R54, R58;
spec/70_reset_and_hazards.md R195, R196, R208): register reads and writes, the channels, reset; and how an
instruction is placed where the machine takes its next one (log 14). -/

namespace Sys2Proof.Machine

/-- What a host read of register `n` returns (10 R14 to R17, R32; 20 R51). -/
def readRegister (s : State) (n : Nat) : BitVec 16 :=
  match n with
  | 1 => s.status.word
  | 2 => s.pad.setWidth 16
  | 3 => s.nent
  | _ => 0

/-- A word written to `CMD` (45 R155 to R157). -/
def writeCmd (c : Byte) (s : State) : Host.Outcome State Fault Refusal :=
  match decode .command [c] with
  | .ok (i, _) => exec i s
  | .error _ => execReserved s

/-- The sink is the host's to empty or to position: no operation runs, or the running one has written nothing yet
(20 R43, 70 R199; log 9). -/
def sinkFree (s : State) : Bool := !s.status.busy || decide (s.sink.olen = 0)

/-- The sink emptied. -/
def Sink.emptied (k : Sink) : Sink := { k with mem := [], base := 0, olen := 0, voids := [] }

/-- The sink positioned at an address: its bytes stay, and the next one written goes there. -/
def Sink.seek (k : Sink) (a : Nat) : Sink := { k.settle with base := a, olen := 0 }

/-- The host's acts on what is not a register write: its own property, its reads, the reset input, the pace. While the
reset input is asserted the block keeps its reset values, since no command starts (70 R195). -/
def hostAct (a : HostAct) (s : State) : State :=
  match a with
  | .write _ _ => s
  | .read n => { s with rdata := readRegister s n }
  | .feed ts => { s with inq := s.inq ++ ts }
  | .drain => { s with inq := [] }
  | .takeSink => if sinkFree s then { s with sink := s.sink.emptied } else s
  | .seekSink a => if sinkFree s then { s with sink := s.sink.seek a } else s
  | .sinkReady r => { s with sink := { s.sink with ready := r } }
  | .sinkFails fs => { s with sink := { s.sink with fails := fs } }
  | .resetInput true => { resetBlock s with inReset := true }
  | .resetInput false => { s with inReset := false }
  | .setPace p => { s with pace := p }

/-- One host act: a write to `CMD` is a command; a write to any other register is ignored (10 R32); after any other
act the sequencer has its turn. -/
def serve (a : HostAct) (s : State) : Host.Outcome State Fault Refusal :=
  match a with
  | .write 0 c => writeCmd c s
  | .write (_ + 1) _ => turn s
  | .read n => turn (hostAct (.read n) s)
  | .feed ts => turn (hostAct (.feed ts) s)
  | .drain => turn (hostAct .drain s)
  | .takeSink => turn (hostAct .takeSink s)
  | .seekSink a => turn (hostAct (.seekSink a) s)
  | .sinkReady r => turn (hostAct (.sinkReady r) s)
  | .sinkFails fs => turn (hostAct (.sinkFails fs) s)
  | .resetInput v => turn (hostAct (.resetInput v) s)
  | .setPace p => turn (hostAct (.setPace p) s)

/-- The host's next act, or the sequencer's own turn when none is pending. -/
def advance (s : State) : Host.Outcome State Fault Refusal :=
  match s.host with
  | [] => ownTurn s
  | a :: rest => serve a { s with host := rest }

/-- An operation in progress at one place of its pseudocode, for `n` sequencer steps, with no host act pending. -/
def placeAt (s : State) (phase : Phase) (work : Work) (n : Nat) : State :=
  { s with status := { s.status with busy := true, done := false, phase := phase }, work := work, host := [],
           pace := some n, inReset := false }

/-- The tokens of some bytes. -/
def byteTokens (bs : List Byte) : List Token := bs.map Token.byte

/-- The smallest tree with an edge to each side: 0 to the symbol 0x00, 1 to 0x01 (log 14). -/
def smallTree : List Node := [.leaf 0x00#8 0, .leaf 0x01#8 0, .internal 0 0#9 1#9]

/-- The state with a word of the opcode table standing where `advance` takes its next instruction: a command as the
host's next act, a container field on the channel before the unit that takes it, a code bit in a walk (log 14). -/
def placeWord (s : State) (nbits w : Nat) : State :=
  let bytes := tableBytes (tableLength nbits) w
  match tableSpace nbits w with
  | none => s
  | some .command =>
    { s with status := { s.status with busy := false }, inReset := false, host := .write 0 (BitVec.ofNat 8 w) :: s.host }
  | some .padding => { placeAt s .hdr (.hdr 0) 1 with hpos := 0, inq := byteTokens bytes ++ s.inq }
  | some .entryCount => { placeAt s .hdr (.hdr 0) 2 with hpos := 1, inq := byteTokens bytes ++ s.inq }
  | some .entry => { placeAt s .hdr (.hdr 0) 9 with hpos := 3, nent := 1, inq := byteTokens bytes ++ s.inq }
  | some .body =>
    { placeAt s .unpack .pull (1 + if s.hold.isSome then 8 else 0) with inq := byteTokens bytes ++ s.inq }
  | some .codeBit =>
    { placeAt s .unpack (.walk [BitVec.ofNat 8 w = 1#8] none) 1 with node := smallTree, root := 2, cur := 2 }

end Sys2Proof.Machine
end

