-- ==== Sys2Proof/Machine/Step.lean ====
section
/-! DEFINITION. One step of the machine (spec/00_scope.md R5, R6), and the placing of an instruction for the next
step. -/

namespace Sys2Proof.Machine

/-- One step: the host's next act with the sequencer's turn after it, or the sequencer's turn alone. -/
def step (s : State) : Host.Outcome State Fault Refusal := advance s

/-- The state whose next step takes the instruction of a word of the opcode table (log 14). -/
def State.withFetchWord (s : State) (nbits w : Nat) : State := placeWord s nbits w

end Sys2Proof.Machine
end

