-- ==== Sys2Proof/Machine/Functional.lean ====
section
/-! DEFINITION. The functional view of the units (spec/00_scope.md R12): pure functions from the whole input to the
whole output, against which the step view is stated. freq: spec/40_frequency_counter.md R87; the tree as a stable
insertion-order multiset: spec/41_tree_builder.md R91, R92; code words: spec/30_encoding.md R71; pack:
spec/43_bit_packer.md R128; decode: spec/44_bit_unpacker.md R152. The machine does not use this file. -/

namespace Sys2Proof.Machine

/-! ### Tables and FREQ -/

/-- The table with given entries. -/
def tableOf {α : Type} (f : Byte → Option α) : Table α := Vector.ofFn fun i : Fin 256 => f (BitVec.ofNat 8 i.val)

/-- `freq(S)` (40 R87): the number of occurrences modulo 2^64 of each byte that occurs, and `SENTINEL` with 0 when
fewer than two byte values occur and it is not among them. -/
def freqView (sentinel : Byte) (input : List Byte) : Table Count :=
  tableOf fun b =>
    if b ∈ input then some (BitVec.ofNat 64 (input.count b))
    else if b = sentinel ∧ input.dedup.length < 2 then some 0
    else none

/-! ### BUILD -/

/-- A code tree with the weights of its nodes (00 glossary, CodeTree). -/
inductive HTree where
  | leaf (sym : Byte) (w : Count)
  | node (w : Count) (left right : HTree)
  deriving DecidableEq, Repr

/-- The weight of the root. -/
def HTree.weight : HTree → Count
  | .leaf _ w => w
  | .node w _ _ => w

/-- The number of leaves. -/
def HTree.leaves : HTree → Nat
  | .leaf _ _ => 1
  | .node _ l r => l.leaves + r.leaves

/-- The symbols of the leaves, left to right. -/
def HTree.symbols : HTree → List Byte
  | .leaf s _ => [s]
  | .node _ l r => l.symbols ++ r.symbols

/-- Insertion into the multiset: behind every tree of the same or less weight (41 R91). -/
def insertTree (t : HTree) : List HTree → List HTree
  | [] => [t]
  | u :: rest => if t.weight.toNat < u.weight.toNat then t :: u :: rest else u :: insertTree t rest

/-- Merge the two first trees, the first removed to the left, until one is left (41 R92, R93, R94). -/
def mergeForest : Nat → List HTree → List HTree
  | 0, f => f
  | n + 1, a :: b :: rest => mergeForest n (insertTree (.node (a.weight + b.weight) a b) rest)
  | _ + 1, f => f

/-- One leaf per key, in ascending order (41 R90). -/
def leafForest (es : List (Byte × Count)) : List HTree :=
  es.foldl (fun f e => insertTree (.leaf e.1 e.2) f) []

/-- The tree of a table's entries; none for a table without a key (41 R97). -/
def buildView (es : List (Byte × Count)) : Option HTree := (mergeForest es.length (leafForest es)).head?

/-- Node `i` of the arena is the root of a tree (10 R21, 41 R99). -/
inductive IsTree (ns : List Node) : Nat → HTree → Prop where
  | leaf {i : Nat} {s : Byte} {w : Count} (h : ns[i]? = some (.leaf s w)) : IsTree ns i (.leaf s w)
  | node {i : Nat} {w : Count} {l r : Idx} {tl tr : HTree} (h : ns[i]? = some (.internal w l r))
      (hl : IsTree ns l.toNat tl) (hr : IsTree ns r.toNat tr) : IsTree ns i (.node w tl tr)

/-- The children a node has (10 R21). -/
def Node.children : Node → List Nat
  | .leaf _ _ => []
  | .internal _ l r => [l.toNat, r.toNat]

/-- Every child of every node of an arena, once for each time a node names it (41 R99). -/
def childList (ns : List Node) : List Nat := ns.flatMap Node.children

/-! ### ASSIGN -/

/-- Every leaf's symbol with its path from the root, 0 to the left, 1 to the right (30 R71, 42 R106). -/
def HTree.codes : HTree → List (Byte × Code)
  | .leaf s _ => [(s, [])]
  | .node _ l r => l.codes.map (fun p => (p.1, false :: p.2)) ++ r.codes.map (fun p => (p.1, true :: p.2))

/-- The code table of a tree (42 R106). -/
def codeTable (t : HTree) : Table Code := t.codes.foldl (fun ct p => tableSet ct p.1 p.2) emptyTable

/-! ### PACK and ENC -/

/-- `OutAppend` of some bytes, one after another (20 R43). -/
def appendAll (k : Sink) (bs : List Byte) : Sink := bs.foldl (fun k b => k.store k.olen b) k

/-- `bitsOf(S)`: the code words of the input bytes in input order (43 R128). -/
def inputBits (ct : Table Code) (input : List Byte) : List Bool :=
  input.flatMap fun b => (tableGet ct b).getD []

/-- The byte whose bit `i` is bit `8j + i` of a bit sequence, 0 beyond its end (43 R128, 20 R45). -/
def bodyByteAt (q : List Bool) (j : Nat) : Byte :=
  (List.range 8).foldl (fun acc i => if q.getD (8 * j + i) false then acc ||| BitVec.twoPow 8 i else acc) 0

/-- `bytes(q)`: `ceil(B / 8)` bytes (43 R128). -/
def bodyBytes (q : List Bool) : List Byte := (List.range ((q.length + 7) / 8)).map (bodyByteAt q)

/-- `(8 - B mod 8) mod 8` (43 R121, R128). -/
def padView (bits : Nat) : Nat := (8 - bits % 8) % 8

/-- `pack(FT, CT, S)` (43 R128). -/
def packView (ft : Table Count) (ct : Table Code) (input : List Byte) : List Byte :=
  BitVec.ofNat 8 (padView (inputBits ct input).length) :: (headerTail ft ++ bodyBytes (inputBits ct input))

/-- The container ENC writes for an input (45 R162, R169): a function of `SENTINEL` and the input alone. Every table
of `freqView` has a key (40 R84), so the tree exists. -/
def encodeView (sentinel : Byte) (input : List Byte) : List Byte :=
  let ft := freqView sentinel input
  match buildView (entriesOf ft) with
  | some t => packView ft (codeTable t) input
  | none => []

/-! ### DEC -/

/-- What `decode` answers (44 R152): a failure with its cause, or the output and whether the end dangles. -/
inductive DecodeResult where
  | fail (c : Cause)
  | done (out : List Byte) (dangling : Bool)
  deriving DecidableEq, Repr

/-- The first `n` entries of a byte string, stored in order, a later one over an earlier one (44 R133, R152). -/
def readEntries : Nat → List Byte → Table Count → Table Count
  | n + 1, s :: a :: b :: c :: d :: e :: f :: g :: h :: rest, t =>
      readEntries n rest (tableSet t s (fromLE64 a b c d e f g h))
  | _, _, t => t

/-- The examined bits of a body: every byte whole but the last, which is examined without its padding (44 R139,
R152). -/
def examinedBits (pad : BitVec 3) : List Byte → List Bool
  | [] => []
  | [x] => bitsOf x (lastBits pad)
  | x :: y :: rest => bitsOf x 8 ++ examinedBits pad (y :: rest)

/-- Where a walk stands after its last bit: off the tree (44 R141), at the root, or inside, at a subtree that is no
leaf (44 R143). -/
inductive WalkEnd where
  | offTree
  | atRoot
  | inside (t : HTree)
  deriving DecidableEq, Repr

/-- The walk from a node: the symbols emitted, and where it ends (44 R140 to R142). -/
def walkView (root : HTree) : HTree → List Bool → List Byte × WalkEnd
  | cur, [] => ([], if cur = root then .atRoot else .inside cur)
  | .leaf _ _, _ :: _ => ([], .offTree)
  | .node _ l r, v :: rest =>
    match (if v then r else l) with
    | .leaf s _ => let w := walkView root root rest; (s :: w.1, w.2)
    | .node w' l' r' => walkView root (.node w' l' r') rest

/-- `decode(C)` (44 R152). The tests stand in the order in which the step view meets them. -/
def decodeView (strictEnd : Bool) (c : List Byte) : DecodeResult :=
  match c with
  | [] => .fail .truncHdr
  | p :: rest =>
    if 7 < p.toNat then .fail .badPad
    else match rest with
    | lo :: hi :: rest =>
      let n := (fromLE16 lo hi).toNat
      if rest.length < 9 * n then .fail .truncHdr
      else match buildView (entriesOf (readEntries n rest emptyTable)) with
      | none => .fail .emptyTable
      | some t =>
        match walkView t t (examinedBits (p.setWidth 3) (rest.drop (9 * n))) with
        | (_, .offTree) => .fail .invalidBit
        | (out, .atRoot) => .done out false
        | (out, .inside _) => if strictEnd then .fail .danglingEnd else .done out true
    | _ => .fail .truncHdr

end Sys2Proof.Machine
end

