-- ==== Sys2Proof/Safety.lean ====
section
/-! DEFINITION. What counts as a safe run, and the words the statements use: conditions on the host's side, the status
after an operation, and the invariants of the machine (spec/10_state.md R15, R18, R21, R22, R24, R31;
spec/41_tree_builder.md R99; spec/60_exceptions.md R194). -/

namespace Sys2Proof.Machine

/-! ### Conditions -/

/-- No operation runs and the reset input is not asserted: the block takes a command (45 R155, 70 R195). -/
def Idle (s : State) : Prop := s.status.busy = false ∧ s.inReset = false

/-- The sequencer runs until it has no step (log 7). -/
def Unpaced (s : State) : Prop := s.pace = none

/-- The sink accepts every write (20 R58). -/
def SinkGood (s : State) : Prop := s.sink.ready = true ∧ s.sink.fails = []

/-- The block takes a command and runs it until it has no step. -/
def Ready (s : State) : Prop := Idle s ∧ Unpaced s

/-! ### The status after an operation -/

/-- `DONE`, `OK`, no cause, no dangling end, and these valid flags (45 R160). -/
def goodStatus (ftV treeV ctV hdrV : Bool) : Status :=
  { busy := false, done := true, ok := true, ftV := ftV, treeV := treeV, ctV := ctV, hdrV := hdrV, dangling := false,
    cause := .none, phase := .idle }

/-- `DONE`, `OK = 0`, this cause, and these valid flags (60 R184). -/
def failStatus (c : Cause) (ftV treeV ctV hdrV dangling : Bool) : Status :=
  { busy := false, done := true, ok := false, ftV := ftV, treeV := treeV, ctV := ctV, hdrV := hdrV,
    dangling := dangling, cause := c, phase := .idle }

/-- The requirement of a command on the valid flags (45 R158). -/
def requirement : Instr → Status → Bool
  | .build => Status.buildReady
  | .assign => Status.assignReady
  | .pack => Status.packReady
  | .unpack => Status.unpackReady
  | .clr | .freq | .hdr | .enc | .dec | .paddingCount _ | .entryCount _ | .entry _ _ | .bodyByte _ | .codeBit _ =>
    fun _ => true

/-- A word of the command register (30 R61). -/
def IsCommand (i : Instr) : Prop := i.space = .command

/-- The reset value of every register and table that 10 R33 gives one, `STATUS` aside. -/
structure BlockReset (s : State) : Prop where
  pad : s.pad = 0
  nent : s.nent = 0
  cur : s.cur = 0
  root : s.root = 0
  nn : s.nn = 0
  nleaf : s.nleaf = 0
  live : s.live = 0
  ft : ∀ b, tableGet s.ft b = none
  ct : ∀ b, tableGet s.ct b = none
  acc : s.acc = 0
  nb : s.nb = 0
  holdV : s.hold = none
  hpos : s.hpos = 0
  plen : s.path = []
  stk : s.stk = []

/-! ### What an operation writes -/

/-- Where in the sink's memory an operation begun now stores its first byte, and a running one its next (20 R43). -/
def outputStart (s : State) : Nat := s.sink.base + s.sink.olen

/-- From the sink `k0` an operation has left the sink `k`: it has written exactly these bytes, from where the sink
stood; every other byte, the sink's answers and the void regions are as before. -/
structure Wrote (k0 k : Sink) (out : List Byte) : Prop where
  base : k.base = k0.base + k0.olen
  olen : k.olen = out.length
  output : k.output = out
  ready : k.ready = k0.ready
  fails : k.fails = k0.fails
  voids : k.voids = k0.voids
  frame : ∀ a, a < k.base ∨ k.base + k.olen ≤ a → memRead k.mem a = memRead k0.mem a

/-! ### The tree BUILD makes -/

/-- Entry `i` is an internal node. -/
def IsInternal (ns : List Node) (i : Nat) : Prop := ∃ (w : Count) (l r : Idx), ns[i]? = some (.internal w l r)

/-- The arena `ns` holds the tree `t` of a table's entries `es` as BUILD lays it out (41 R90, R95, R99). -/
structure BuiltTree (es : List (Byte × Count)) (ns : List Node) (t : HTree) : Prop where
  tree : buildView es = some t
  root : IsTree ns (2 * es.length - 2) t
  count : ns.length = 2 * es.length - 1
  leaves : ∀ (i : Nat) (h : i < es.length), ns[i]? = some (.leaf es[i].1 es[i].2)
  inner : ∀ i, es.length ≤ i → i < 2 * es.length - 1 → IsInternal ns i
  order : ∀ (i : Nat) (w : Count) (l r : Idx), ns[i]? = some (.internal w l r) → l.toNat < i ∧ r.toNat < i
  parents : (childList ns ++ [2 * es.length - 2]).Perm (List.range (2 * es.length - 1))

/-- The root stands over the tree `t`, the cursor over its part `c`: at the root, or at an internal node properly
inside (44 R140 to R142). -/
structure WalkAt (ns : List Node) (root cur : Idx) (t c : HTree) : Prop where
  rootTree : IsTree ns root.toNat t
  curTree : IsTree ns cur.toNat c
  place : (cur = root ∧ c = t) ∨ (c.leaves < t.leaves ∧ 2 ≤ c.leaves)

/-! ### Invariants -/

/-- The phase in which each place of the pseudocode stands (10 R18). -/
def phaseOf : Work → Phase
  | .rest => .idle
  | .freq => .freq
  | .leaves _ | .merge => .build
  | .visit | .unwind => .assign
  | .packStart | .packHdr _ => .packHdr
  | .packPull | .packBits _ | .packTail | .packRewrite => .packBody
  | .hdr _ => .hdr
  | .pull | .walk _ _ => .unpack

/-- `PHASE` names the running unit, `BUSY` is 1 exactly while one runs, and then `DONE` and `OK` are 0 (10 R15, R18,
45 R159). -/
def StatusInv (s : State) : Prop :=
  s.status.phase = phaseOf s.work ∧ (s.status.busy = true ↔ s.work ≠ .rest) ∧
    (s.status.busy = true → s.status.done = false ∧ s.status.ok = false)

/-- The sink's memory is in canonical form, and it holds every byte the running operation has appended (20 R43). -/
def MemInv (s : State) : Prop :=
  memWf s.sink.mem = true ∧ ∀ i, i < s.sink.olen → memRead s.sink.mem (s.sink.base + i) ≠ none

/-- At most 511 nodes, and an internal node's children are earlier entries (10 R21, R22, 41 R95). -/
def ArenaInv (s : State) : Prop :=
  s.node.length ≤ 511 ∧
    ∀ (i : Nat) (w : Count) (l r : Idx), s.node[i]? = some (.internal w l r) → l.toNat < i ∧ r.toNat < i

/-- While BUILD runs (41 R89): every leaf is live, and 256 leaves at most are made; while it merges, a live node
remains, and the nodes made and to be made are at most 511. -/
def BuildInv (s : State) : Prop :=
  match s.work with
  | .leaves keys =>
    (liveNodes s.node s.live).length = s.node.length ∧ s.node.length + keys.length ≤ 256
  | .merge =>
    1 ≤ (liveNodes s.node s.live).length ∧ s.node.length + (liveNodes s.node s.live).length ≤ 512
  | _ => True

/-- With `TREE_V = 1`, `ROOT` and the cursor are entries in use (10 R22, R19). -/
def TreeInv (s : State) : Prop :=
  s.status.treeV = true → s.root.toNat < s.node.length ∧ s.cur.toNat < s.node.length

/-- While ASSIGN runs (42 R105): `STK` holds entries in use, those below the top internal; on return, all internal. -/
def AssignInv (s : State) : Prop :=
  match s.work with
  | .visit => ∃ top below, s.stk = top :: below ∧ top.1.toNat < s.node.length ∧
      ∀ e ∈ below, IsInternal s.node e.1.toNat
  | .unwind => ∀ e ∈ s.stk, IsInternal s.node e.1.toNat
  | _ => True

/-- While PACK packs, every bit position of `ACC` not yet filled is 0 (10 R24). -/
def AccInv (s : State) : Prop :=
  match s.work with
  | .packPull | .packBits _ | .packTail => s.acc.toNat < 2 ^ s.nb.toNat
  | _ => True

/-- While UNPACK runs, the tree is valid and the cursor is an entry in use (10 R19). -/
def UnpackInv (s : State) : Prop :=
  match s.work with
  | .pull | .walk _ _ => s.status.treeV = true ∧ s.cur.toNat < s.node.length
  | _ => True

/-- The invariant of the machine. -/
structure Inv (s : State) : Prop where
  status : StatusInv s
  mem : MemInv s
  arena : ArenaInv s
  build : BuildInv s
  tree : TreeInv s
  assign : AssignInv s
  acc : AccInv s
  unpack : UnpackInv s

/-- The sequencer has no step (60 R194): the block is idle; or its unit needs a token and none is there (20 R41); or a
write is due and the sink is not ready (20 R58). -/
def Waits (s : State) : Prop :=
  s.status.busy = false ∨
    (s.inq = [] ∧ (s.work = .freq ∨ s.work = .packPull ∨ s.work = .pull ∨ ∃ lo, s.work = .hdr lo)) ∨
    (s.sink.ready = false ∧ (s.work = .packStart ∨ s.work = .packTail ∨ s.work = .packRewrite ∨
      (∃ b r, s.work = .packHdr (b :: r)) ∨ (∃ v r, s.work = .packBits (v :: r) ∧ s.nb = 7) ∨
      (∃ v r x w i j sym w', s.work = .walk (v :: r) x ∧ s.node[s.cur.toNat]? = some (.internal w i j) ∧
        s.node[(if v then j else i).toNat]? = some (.leaf sym w'))))

/-- A safe step: the machine goes on (10 R31: no field that holds no value is read). -/
def GoesOn (o : Host.Outcome State Fault Refusal) : Prop := ∃ t, o = .next t

end Sys2Proof.Machine
end

