-- ==== Sys2Proof/Certificates/Slice0/Obligations.lean ====
section
/-! DEFINITION. The statements for the provers. Each docstring names the rule of spec/ it formalises. -/

section

open Sys2Proof Sys2Proof.Machine

/-! ### Encoding -/

/-- 30 R61, R64 to R68, R71: decoding the bytes of a well-formed instruction in its own space gives it back, and the
bytes after it. -/
def Obligations.DecodeOfEncode : Prop :=
  ∀ (i : Instr) (rest : List Byte), i.WellFormed → decode i.space (encode i ++ rest) = .ok (i, rest)

/-- 30 R60 to R68, R71: what decodes is the encoding of a well-formed instruction of that space, and what follows
it: no two byte strings stand for one instruction, and no instruction of one space is read in another. -/
def Obligations.EncodeOfDecode : Prop :=
  ∀ (sp : Space) (bytes rest : List Byte) (i : Instr),
    decode sp bytes = .ok (i, rest) → i.WellFormed ∧ i.space = sp ∧ bytes = encode i ++ rest

/-- 30 R61, R62, R64 to R66, R71, 20 R44, R45: the nine command words and words of the container, written out bit by
bit; every other command word, and every padding count above 7, refused by name. -/
def Obligations.EncodedWords : Prop :=
  (decode .command [0b00000001#8] = .ok (.clr, []) ∧ decode .command [0b00000010#8] = .ok (.freq, []) ∧
    decode .command [0b00000011#8] = .ok (.build, []) ∧ decode .command [0b00000100#8] = .ok (.assign, []) ∧
    decode .command [0b00000101#8] = .ok (.pack, []) ∧ decode .command [0b00000110#8] = .ok (.hdr, []) ∧
    decode .command [0b00000111#8] = .ok (.unpack, []) ∧ decode .command [0b00001000#8] = .ok (.enc, []) ∧
    decode .command [0b00001001#8] = .ok (.dec, [])) ∧
  (∀ c : Byte, c.toNat = 0 ∨ 10 ≤ c.toNat → decode .command [c] = .error (.reservedCommand c)) ∧
  (decode .padding [0b00000111#8] = .ok (.paddingCount 7, []) ∧
    decode .entryCount [0b00000000#8, 0b00000001#8] = .ok (.entryCount 256, []) ∧
    decode .entry [0b00111111#8, 0b00000001#8, 0b00000010#8, 0#8, 0#8, 0#8, 0#8, 0#8, 0b10000000#8] =
      .ok (.entry 0x3F#8 0x8000000000000201#64, []) ∧
    decode .body [0b10110001#8] = .ok (.bodyByte 0xB1#8, []) ∧
    decode .codeBit [0b00000000#8] = .ok (.codeBit false, []) ∧
    decode .codeBit [0b00000001#8] = .ok (.codeBit true, []) ∧
    decodeBodyBit 0b10000000#8 7 = .codeBit true ∧ decodeBodyBit 0b10000000#8 0 = .codeBit false) ∧
  ∀ p : Byte, 8 ≤ p.toNat → decode .padding [p] = .error (.badPad p)

/-- 20 R44, 30 R65, R66: the two multi-byte fields are little-endian, both ways. -/
def Obligations.LittleEndian : Prop :=
  (∀ lo hi : Byte, (fromLE16 lo hi).toNat = lo.toNat + 256 * hi.toNat ∧ le16 (fromLE16 lo hi) = [lo, hi]) ∧
  ∀ a b c d e f g h : Byte,
    (fromLE64 a b c d e f g h).toNat = a.toNat + 256 * (b.toNat + 256 * (c.toNat + 256 * (d.toNat + 256 * (e.toNat +
      256 * (f.toNat + 256 * (g.toNat + 256 * h.toNat)))))) ∧
    le64 (fromLE64 a b c d e f g h) = [a, b, c, d, e, f, g, h]

/-- 20 R45, 43 R128: body bit `k` is bit `k mod 8` of body byte `k div 8`, the bits above the last one are 0, there
are `ceil(B / 8)` bytes; and the unpacker's examined bits of those bytes are the packer's bits, in order. -/
def Obligations.BodyBits : Prop :=
  ∀ q : List Bool,
    (bodyBytes q).length = (q.length + 7) / 8 ∧
    (∀ k, k < 8 * (bodyBytes q).length →
      ((bodyBytes q).getD (k / 8) 0).getLsbD (k % 8) = q.getD k false) ∧
    examinedBits (BitVec.ofNat 3 (padView q.length)) (bodyBytes q) = q

/-! ### The step and the decoded instruction -/

/-- 45 R155: a word the host writes to `CMD` is decoded and executed, the act taken off the host's list. -/
def Obligations.StepRunsCommand : Prop :=
  ∀ (s : State) (c : Byte) (h : List HostAct) (i : Instr),
    s.host = .write 0 c :: h → decode .command [c] = .ok (i, []) → step s = exec i { s with host := h }

/-- 44 R130, 20 R48, R50: where HDR stands at a header field and its bytes are on the channel, that many steps of the
sequencer are the field's meaning, the bytes taken off. That a field is one instruction, and the pace, are the
model's choices (log 7, 12). -/
def Obligations.StepRunsHeaderField : Prop :=
  ∀ (s : State) (i : Instr) (rest : List Token),
    i.WellFormed → s.host = [] → s.pace = some (encode i).length → s.inq = byteTokens (encode i) ++ rest →
    s.hpos.toNat + 9 < 2 ^ 20 →
    ((i.space = .padding ∧ hdrAt .padding s = true) ∨ (i.space = .entryCount ∧ hdrAt .countLo s = true) ∨
      (i.space = .entry ∧ hdrAt .symbol s = true)) →
    step s = exec i { s with inq := rest }

/-- 44 R138, R140, 43 R117: where UNPACK stands at `InNext()` with a byte on the channel, the step that takes it and
the eight that walk its predecessor, if there is one, are the byte's meaning; one step with a bit to be examined, or
to be appended, is that bit's meaning, the bit taken off those still to come. That a byte and a bit are instructions,
and the pace, are the model's choices (log 7, 12). -/
def Obligations.StepRunsBody : Prop :=
  ∀ s : State, s.host = [] → s.status.busy = true →
    (∀ (b : Byte) (rest : List Token), s.pace = some (1 + if s.hold.isSome then 8 else 0) → s.inq = .byte b :: rest →
      s.work = .pull → step s = exec (.bodyByte b) { s with inq := rest }) ∧
    (∀ (v : Bool) (bits : List Bool) (next : Option Byte), s.pace = some 1 → s.work = .walk (v :: bits) next →
      step s = exec (.codeBit v) { s with work := .walk bits next }) ∧
    (∀ (v : Bool) (bits : List Bool), s.pace = some 1 → s.work = .packBits (v :: bits) →
      step s = exec (.codeBit v) { s with work := .packBits bits })

/-! ### The host's port -/

/-- 45 R157, 30 R62, 60 R181: a reserved command word ends with `CMD_ERR`, and changes nothing else. That it is whole
in the step of the write, at every pace, is the model's choice (log 7). -/
def Obligations.ReservedCommand : Prop :=
  ∀ (s : State) (c : Byte) (h : List HostAct),
    Idle s → s.host = .write 0 c :: h → (c.toNat = 0 ∨ 10 ≤ c.toNat) →
    step s = .next { s with
      host := h, op := .unit, work := .rest, sink := s.sink.rebase,
      status := failStatus .cmdErr s.status.ftV s.status.treeV s.status.ctV s.status.hdrV false }

/-- 45 R156: a write to `CMD` while `BUSY = 1` is discarded, whatever the word. That the sequencer makes no step in
the same step of the model is the model's choice (log 7). -/
def Obligations.BusyCommandDiscarded : Prop :=
  ∀ (s : State) (c : Byte) (h : List HostAct),
    s.status.busy = true → s.host = .write 0 c :: h → step s = .next { s with host := h }

/-- 10 R32, R14 to R17, 20 R51: what a read of each register number returns, that a read changes nothing of the block,
and that a write to any register but `CMD` changes nothing at all. The place of the value read, `rdata`, and the
sequencer's turn after the act are the model's choices (log 8, 19). -/
def Obligations.RegisterAccess : Prop :=
  (∀ (s : State) (n : Nat) (h : List HostAct), s.host = .read n :: h →
    step s = turn { s with
      host := h
      rdata := if n = 0 then 0
        else if n = 1 then s.status.word
        else if n = 2 then BitVec.ofNat 16 s.pad.toNat
        else if n = 3 then s.nent
        else 0 }) ∧
  ∀ (s : State) (n : Nat) (v : Byte) (h : List HostAct), n ≠ 0 → s.host = .write n v :: h →
    step s = turn { s with host := h }

/-- 10 R15, R18, 60 R173: the bits of `STATUS`, the numbers of the causes and of the phases. -/
def Obligations.StatusWord : Prop :=
  (∀ t : Status,
    t.word.getLsbD 0 = t.busy ∧ t.word.getLsbD 1 = t.done ∧ t.word.getLsbD 2 = t.ok ∧ t.word.getLsbD 3 = t.ftV ∧
    t.word.getLsbD 4 = t.treeV ∧ t.word.getLsbD 5 = t.ctV ∧ t.word.getLsbD 6 = t.hdrV ∧
    t.word.getLsbD 7 = t.dangling ∧ t.word.extractLsb' 8 4 = t.cause.code ∧
    t.word.extractLsb' 12 4 = t.phase.code) ∧
  (Cause.none.code = 0 ∧ Cause.truncHdr.code = 1 ∧ Cause.invalidBit.code = 2 ∧ Cause.danglingEnd.code = 3 ∧
    Cause.badPad.code = 4 ∧ Cause.emptyTable.code = 5 ∧ Cause.noCode.code = 6 ∧ Cause.sinkErr.code = 7 ∧
    Cause.cmdErr.code = 8 ∧ Cause.precond.code = 9) ∧
  Phase.idle.code = 0 ∧ Phase.freq.code = 1 ∧ Phase.build.code = 2 ∧ Phase.assign.code = 3 ∧
    Phase.packHdr.code = 4 ∧ Phase.packBody.code = 5 ∧ Phase.hdr.code = 6 ∧ Phase.unpack.code = 7

/-- 45 R158 (its last clause on ENC and DEC the spec's own inference), 60 R182: a unit command whose required valid
flags are not set ends with `PRECOND` and does nothing else; a command whose requirement is met never ends with
`PRECOND`, also not ENC and DEC when they reach their later units. That start actions, precondition and the end it
brings are one step with the write, at every pace, is the model's choice (log 7). -/
def Obligations.Preconditions : Prop :=
  ∀ (s : State) (i : Instr), Idle s → IsCommand i →
    (requirement i s.status = false → exec i s = .next { s with
      op := .unit, work := .rest, sink := s.sink.rebase,
      status := failStatus .precond s.status.ftV s.status.treeV s.status.ctV s.status.hdrV false }) ∧
    (requirement i s.status = true → ∀ t, exec i s = .next t → t.status.cause ≠ .precond)

/-! ### Reset and CLR -/

/-- 10 R33, 70 R195, R196: after reset every register and table has its reset value. Asserting the reset input gives
them those values, ends no operation (`DONE` stays 0), and leaves the channel's tokens and the sink's bytes; an
abandoned operation's output is marked void (the model's form of the rule: log 10). While the input is asserted, and
when it is released, they keep those values whatever the host does, and a word written to `CMD` starts nothing. Log 18
has the last clause (DEDUCED), and as the model's choices that the input is released at `State.reset` and that a
running operation is abandoned in the step that asserts it. -/
def Obligations.ResetInput : Prop :=
  (BlockReset State.reset ∧ State.reset.status.word = 0x0000#16 ∧ State.reset.inReset = false) ∧
  (∀ (s : State) (h : List HostAct), s.host = .resetInput true :: h →
    ∃ t, step s = .next t ∧ BlockReset t ∧ t.status = Status.reset ∧ t.status.word = 0x0000#16 ∧ t.inReset = true ∧
      t.inq = s.inq ∧ t.sink.mem = s.sink.mem ∧ t.sink.base = s.sink.base ∧ t.sink.olen = s.sink.olen ∧ t.host = h ∧
      t.par = s.par ∧
      (s.status.busy = true → s.sink.olen ≠ 0 →
        t.sink.voids = { start := s.sink.base, len := s.sink.olen, tag := s.freeCtr } :: s.sink.voids) ∧
      (s.status.busy = false → t.sink.voids = s.sink.voids)) ∧
  (∀ s t : State, s.inReset = true → BlockReset s → s.status = Status.reset → step s = .next t →
    BlockReset t ∧ t.status = Status.reset ∧ (t.inReset = true ∨ ∃ h, s.host = .resetInput false :: h)) ∧
  (∀ (s : State) (h : List HostAct), s.status.busy = false → s.host = .resetInput false :: h →
    step s = .next { s with host := h, inReset := false }) ∧
  ∀ (s : State) (c : Byte) (h : List HostAct), s.inReset = true → s.host = .write 0 c :: h →
    step s = .next { s with host := h }

/-- 20 R41, R54, 70 R199, R208: what the host's acts on the channels do before the sequencer's turn: a burst goes
behind the tokens waiting, a drain removes them all; while no operation runs, or the running one has written nothing
yet, the host empties the sink or positions it where the output is to begin, its bytes as the host found them; else
the sink is the block's alone, and the act changes nothing (the acts themselves are the model's form of the host: log
8, 9, 19). -/
def Obligations.HostChannels : Prop :=
  (∀ (s : State) (ts : List Token) (h : List HostAct), s.host = .feed ts :: h →
    step s = turn { s with host := h, inq := s.inq ++ ts }) ∧
  (∀ (s : State) (h : List HostAct), s.host = .drain :: h → step s = turn { s with host := h, inq := [] }) ∧
  (∀ (s : State) (a : Nat) (h : List HostAct), s.host = .seekSink a :: h →
    (s.status.busy = false ∨ s.sink.olen = 0 → ∃ k : Sink, step s = turn { s with host := h, sink := k } ∧
      outputStart { s with sink := k } = a ∧ k.olen = 0 ∧ k.ready = s.sink.ready ∧ k.fails = s.sink.fails ∧
      ∀ x, k.observe x = s.sink.observe x) ∧
    (s.status.busy = true → s.sink.olen ≠ 0 → step s = turn { s with host := h })) ∧
  ∀ (s : State) (h : List HostAct), s.host = .takeSink :: h →
    (s.status.busy = false ∨ s.sink.olen = 0 → step s = turn { s with
      host := h, sink := { s.sink with mem := [], base := 0, olen := 0, voids := [] } }) ∧
    (s.status.busy = true → s.sink.olen ≠ 0 → step s = turn { s with host := h })

/-- 45 R161, 70 R197: CLR gives every register and table its reset value and ends with `DONE` and `OK` (`STATUS =
0x0006`); no token is pulled, no byte of the sink written. That CLR is whole in one step, at every pace, is the
model's choice (log 7). -/
def Obligations.ClrResult : Prop :=
  ∀ s : State, Idle s →
    ∃ t, exec .clr s = .next t ∧ BlockReset t ∧ t.status = goodStatus false false false false ∧
      t.status.word = 0x0006#16 ∧ t.inq = s.inq ∧ t.sink = s.sink.rebase ∧ t.host = s.host ∧ t.par = s.par ∧
      t.pace = s.pace ∧ t.rdata = s.rdata ∧ t.freeCtr = s.freeCtr ∧ t.inReset = false

/-- 45 R164: nothing an earlier operation left, in a register, a table or a flag, can influence an ENC or a DEC. For
`HSYM` and `HACC`, whose reset value 10 R33 leaves unspecified, this rests on the zeros the model has there (its
choice: log 4). -/
def Obligations.EncDecStartFromNothing : Prop :=
  ∀ s s' : State, Idle s → Idle s' → s.par = s'.par → s.inq = s'.inq → s.sink = s'.sink → s.host = s'.host →
    s.pace = s'.pace → s.rdata = s'.rdata → s.freeCtr = s'.freeCtr →
    exec .enc s = exec .enc s' ∧ exec .dec s = exec .dec s'

/-! ### FREQ -/

/-- 40 R80, R87: FREQ on a stream ends with `FT` representing `freq(S)`, `FT_V` alone set; any reordering of the
input gives the same table. -/
def Obligations.FreqResult : Prop :=
  (∀ (s : State) (l : List Byte) (rest : List Token), Ready s → s.inq = byteTokens l ++ .eos :: rest →
    exec .freq s = .next { s with
      status := goodStatus true false false false, ft := freqView s.par.sentinel l, inq := rest,
      sink := s.sink.rebase, op := .unit, work := .rest }) ∧
  ∀ (sentinel : Byte) (l l' : List Byte), l.Perm l' → freqView sentinel l = freqView sentinel l'

/-- 40 R84, R86: after FREQ the table has at least one key, exactly one in exactly two cases: the empty input and an
input of sentinel bytes alone; a count of 0 is the added sentinel's and no other's. -/
def Obligations.FreqTable : Prop :=
  ∀ (s : State) (l : List Byte) (rest : List Token), Ready s → s.inq = byteTokens l ++ .eos :: rest →
    l.length < 2 ^ 64 →
    ∃ t, exec .freq s = .next t ∧ 1 ≤ keyCount t.ft ∧ (keyCount t.ft = 1 ↔ ∀ b ∈ l, b = s.par.sentinel) ∧
      (∀ b ∈ l, tableGet t.ft b = some (BitVec.ofNat 64 (l.count b))) ∧
      (∀ b, b ∉ l → tableGet t.ft b ≠ none →
        b = s.par.sentinel ∧ tableGet t.ft b = some 0 ∧ l.dedup.length < 2) ∧
      ∀ b, tableGet t.ft b = some 0 → b ∉ l

/-! ### BUILD -/

/-- 41 R89, R90 to R95, R99: BUILD on a table with a key leaves the tree of the table in the arena, its leaves first
in ascending order, `NN = 2L - 1`, the root last, one bit of `LIVE`; `TREE_V` is set, `CT_V` cleared, and the cursor
stays if it is an entry of the tree, else comes to a free one (10 R19, the model's choice: log 21); nothing else
changes. -/
def Obligations.BuildResult : Prop :=
  ∀ (s : State) (es : List (Byte × Count)), Ready s → s.status.ftV = true → entriesOf s.ft = es → es ≠ [] →
    ∃ (node : List Node) (t : HTree), BuiltTree es node t ∧
      exec .build s = .next { s with
        status := goodStatus true true false s.status.hdrV, node := node, nleaf := BitVec.ofNat 9 es.length,
        live := BitVec.twoPow 511 (2 * es.length - 2), root := BitVec.ofNat 9 (2 * es.length - 2),
        cur := boundCursor (2 * es.length - 1) s.cur, sink := s.sink.rebase, op := .unit, work := .rest }

/-- 41 R97, 60 R178: BUILD on a table without a key ends with `EMPTY_TABLE`; `TREE_V` stays 0. -/
def Obligations.BuildEmptyTable : Prop :=
  ∀ s : State, Ready s → s.status.ftV = true → entriesOf s.ft = [] →
    exec .build s = .next { s with
      status := failStatus .emptyTable true false false s.status.hdrV false, node := [], nleaf := 0, live := 0,
      sink := s.sink.rebase, op := .unit, work := .rest }

/-- 41 R98: the tree is a function of the table alone, whatever the rest of the two states holds. The table has a key:
on one without, BUILD makes no tree and `ROOT` keeps its value (R97, 60 R184). -/
def Obligations.BuildDeterminism : Prop :=
  ∀ s s' t t' : State, Ready s → Ready s' → s.status.ftV = true → s'.status.ftV = true → s.ft = s'.ft →
    entriesOf s.ft ≠ [] → exec .build s = .next t → exec .build s' = .next t' →
    t.node = t'.node ∧ t.nn = t'.nn ∧ t.nleaf = t'.nleaf ∧ t.root = t'.root ∧ t.live = t'.live ∧
      t.status.treeV = t'.status.treeV

/-- 41 R91 to R93: one merge step takes the two live nodes that come first by weight and index, makes them the left
and the right child, in that order, of a node of their summed weight, and leaves that node live in their stead. -/
def Obligations.MergeStep : Prop :=
  ∀ s : State, Inv s → s.host = [] → s.pace = some 1 → s.work = .merge → 2 ≤ (liveNodes s.node s.live).length →
    ∃ a b, a ∈ liveNodes s.node s.live ∧ b ∈ liveNodes s.node s.live ∧ lighter s.node a b = true ∧
      (∀ c ∈ liveNodes s.node s.live, c = a ∨ c = b ∨ lighter s.node b c = true) ∧
      ∃ t, step s = .next t ∧
        t.node = s.node ++
          [.internal (weightAt s.node a + weightAt s.node b) (BitVec.ofNat 9 a) (BitVec.ofNat 9 b)] ∧
        (∀ c, c ∈ liveNodes t.node t.live ↔ c = s.node.length ∨ (c ∈ liveNodes s.node s.live ∧ c ≠ a ∧ c ≠ b))

/-! ### ASSIGN -/

/-- 42 R104, R106: ASSIGN on a tree of at most 256 leaves leaves the code table of the tree: every leaf's symbol with
its path, no other symbol; `CT_V` is set, nothing else changes. -/
def Obligations.AssignResult : Prop :=
  ∀ (s : State) (t : HTree), Ready s → s.status.treeV = true → IsTree s.node s.root.toNat t → t.leaves ≤ 256 →
    t.symbols.Nodup →
    ∃ ct : Table Code, (∀ b c, tableGet ct b = some c ↔ (b, c) ∈ t.codes) ∧
      exec .assign s = .next { s with
        status := goodStatus s.status.ftV true true s.status.hdrV, ct := ct, path := [], stk := [],
        sink := s.sink.rebase, op := .unit, work := .rest }

/-- 42 R108: in a tree of `L` leaves, two or more, every code word has between 1 and `L - 1` bits; in the tree of any
table at most 255. -/
def Obligations.CodeLengths : Prop :=
  (∀ (t : HTree) (b : Byte) (c : Code), 2 ≤ t.leaves → (b, c) ∈ t.codes →
    1 ≤ c.length ∧ c.length + 1 ≤ t.leaves) ∧
  ∀ (ft : Table Count) (t : HTree) (b : Byte) (c : Code), buildView (entriesOf ft) = some t → (b, c) ∈ t.codes →
    c.length ≤ 255

/-- 42 R109: the code words of two different leaves are neither equal nor one a prefix of the other; and every bit
sequence as long as the tree is deep begins with exactly one code word. -/
def Obligations.PrefixProperty : Prop :=
  (∀ (t : HTree) (b b' : Byte) (c c' : Code), t.symbols.Nodup → (b, c) ∈ t.codes → (b', c') ∈ t.codes →
    c <+: c' → b = b' ∧ c = c') ∧
  ∀ (t : HTree) (q : List Bool), t.symbols.Nodup → t.leaves ≤ q.length + 1 →
    ∃! p : Byte × Code, p ∈ t.codes ∧ p.2 <+: q

/-! ### PACK -/

/-- 43 R113 to R122, R128: PACK on a stream whose every byte has a code word leaves `pack(FT, CT, S)` in the sink,
`PAD` and `NENT` set accordingly, and changes nothing else (R127). -/
def Obligations.PackResult : Prop :=
  ∀ (s : State) (l : List Byte) (rest : List Token), Ready s → SinkGood s → s.status.ftV = true →
    s.status.ctV = true → s.inq = byteTokens l ++ .eos :: rest →
    (∀ b ∈ l, ∃ c, tableGet s.ct b = some c ∧ c.length ≤ 255) →
    ∃ k : Sink, Wrote s.sink k (packView s.ft s.ct l) ∧
      exec .pack s = .next { s with
        status := goodStatus true s.status.treeV true false,
        pad := BitVec.ofNat 3 (padView (inputBits s.ct l).length), nent := BitVec.ofNat 16 (keyCount s.ft),
        acc := 0, nb := 0, inq := rest, sink := k, op := .unit, work := .rest }

/-- 43 R120, 60 R179: at a byte without a code word PACK ends with `NO_CODE`: that byte is pulled and nothing appended
for it, offset 0 still holds the placeholder, `PAD` is as before. The bytes are those the step view leaves (60 R184);
as a result they are void (60 R185), and the host observes free values there (log 10). -/
def Obligations.PackNoCode : Prop :=
  ∀ (s : State) (l : List Byte) (b : Byte) (rest : List Token), Ready s → SinkGood s → s.status.ftV = true →
    s.status.ctV = true → s.inq = byteTokens (l ++ [b]) ++ rest →
    (∀ x ∈ l, ∃ c, tableGet s.ct x = some c ∧ c.length ≤ 255) → tableGet s.ct b = none →
    ∃ t, exec .pack s = .next t ∧
      t.status = failStatus .noCode true s.status.treeV true false false ∧ t.inq = rest ∧ t.pad = s.pad ∧
      t.nent = BitVec.ofNat 16 (keyCount s.ft) ∧ t.sink.base = outputStart s ∧
      t.sink.output = 0x00#8 :: (headerTail s.ft ++
        (bodyBytes (inputBits s.ct l)).take ((inputBits s.ct l).length / 8)) ∧
      t.ft = s.ft ∧ t.ct = s.ct ∧ t.node = s.node

/-- 20 R58, 43 R126, 60 R180, R184: where a write is due, the placeholder, a header byte, a full body byte, the last
byte, the rewrite of offset 0, or a symbol, and the sink reports failure, the next state has ended with `SINK_ERR`: no
byte written, no token pulled, the tables kept, and nothing more will happen of itself. -/
def Obligations.SinkFailure : Prop :=
  ∀ (s : State) (r : List Bool), Inv s → s.host = [] → s.pace = some 1 → s.sink.ready = true →
    s.sink.fails = true :: r →
    (s.work = .packStart ∨ s.work = .packTail ∨ s.work = .packRewrite ∨ (∃ b bs, s.work = .packHdr (b :: bs)) ∨
      (∃ v bits, s.work = .packBits (v :: bits) ∧ s.nb = 7) ∨
      (∃ v bits x w i j sym w', s.work = .walk (v :: bits) x ∧ s.node[s.cur.toNat]? = some (.internal w i j) ∧
        s.node[(if v then j else i).toNat]? = some (.leaf sym w'))) →
    ∃ t, step s = .next t ∧
      t.status = failStatus .sinkErr s.status.ftV s.status.treeV s.status.ctV s.status.hdrV s.status.dangling ∧
      t.sink.fails = r ∧ t.sink.mem = s.sink.mem ∧ t.sink.base = s.sink.base ∧ t.sink.olen = s.sink.olen ∧
      t.inq = s.inq ∧ t.ft = s.ft ∧ t.node = s.node ∧ t.ct = s.ct ∧ t.pad = s.pad ∧ t.nent = s.nent ∧
      step t = .next t

/-! ### HDR -/

/-- 44 R130 to R133: HDR on a whole header takes exactly its bytes off and leaves `PAD`, `NENT` and `FT` as the header
says, a later entry over an earlier one; `FT_V` and `HDR_V` alone are set. -/
def Obligations.HdrResult : Prop :=
  ∀ (s : State) (p lo hi : Byte) (bytes : List Byte) (rest : List Token), Ready s → p.toNat ≤ 7 →
    bytes.length = 9 * (fromLE16 lo hi).toNat → s.inq = byteTokens (p :: lo :: hi :: bytes) ++ rest →
    ∃ (sym : Byte) (acc : Count), exec .hdr s = .next { s with
      status := goodStatus true false false true, pad := p.setWidth 3, nent := fromLE16 lo hi,
      ft := readEntries (fromLE16 lo hi).toNat bytes emptyTable,
      hpos := BitVec.ofNat 20 (headerLength (fromLE16 lo hi)), hsym := sym, hacc := acc, inq := rest,
      sink := s.sink.rebase, op := .unit, work := .rest }

/-- 44 R134, 60 R174: HDR on a stream shorter than the header it declares ends with `TRUNC_HDR`; no valid flag is set,
`HPOS` counts the bytes read, `PAD` and `NENT` hold what was read of them. -/
def Obligations.HdrTruncated : Prop :=
  ∀ (s : State) (c : List Byte) (rest : List Token), Ready s → (∀ p ∈ c.head?, p.toNat ≤ 7) →
    (c.length < 3 ∨ c.length < headerLength (fromLE16 (c.getD 1 0) (c.getD 2 0))) →
    s.inq = byteTokens c ++ .eos :: rest →
    ∃ (ft : Table Count) (sym : Byte) (acc : Count), exec .hdr s = .next { s with
      status := failStatus .truncHdr false false false false false,
      pad := if c.length < 1 then s.pad else (c.getD 0 0).setWidth 3,
      nent := if c.length < 3 then s.nent else fromLE16 (c.getD 1 0) (c.getD 2 0),
      ft := ft, hpos := BitVec.ofNat 20 c.length, hsym := sym, hacc := acc, inq := rest,
      sink := s.sink.rebase, op := .unit, work := .rest }

/-- 44 R131, 60 R177: a padding byte above 7 ends HDR with `BAD_PAD` before any further token is pulled; `PAD` is not
written. -/
def Obligations.HdrBadPad : Prop :=
  ∀ (s : State) (p : Byte) (rest : List Token), Ready s → 7 < p.toNat → s.inq = .byte p :: rest →
    exec .hdr s = .next { s with
      status := failStatus .badPad false false false false false, ft := emptyTable, hpos := 1, inq := rest,
      sink := s.sink.rebase, op := .unit, work := .rest }

/-- 44 R135: HDR on a header as PACK writes it from a table recovers exactly that table, the number of its keys and
the padding count, and leaves the body on the channel. -/
def Obligations.HeaderRoundTrip : Prop :=
  ∀ (s : State) (ft : Table Count) (p : Byte) (rest : List Token), Ready s → p.toNat ≤ 7 →
    s.inq = byteTokens (p :: headerTail ft) ++ rest →
    ∃ t, exec .hdr s = .next t ∧ t.ft = ft ∧ t.nent.toNat = keyCount ft ∧ t.pad.toNat = p.toNat ∧ t.inq = rest ∧
      t.status = goodStatus true false false true

/-! ### UNPACK -/

/-- 44 R137 to R143, R145: UNPACK on a body whose walk ends at the root appends the symbols of the walk, in order, and
succeeds; also on the empty body. -/
def Obligations.UnpackResult : Prop :=
  ∀ (s : State) (t : HTree) (l : List Byte) (rest : List Token), Ready s → SinkGood s → s.status.treeV = true →
    s.status.hdrV = true → IsTree s.node s.root.toNat t → s.inq = byteTokens l ++ .eos :: rest →
    (walkView t t (examinedBits s.pad l)).2 = .atRoot →
    ∃ k : Sink, Wrote s.sink k (walkView t t (examinedBits s.pad l)).1 ∧
      exec .unpack s = .next { s with
        status := goodStatus s.status.ftV true s.status.ctV true, cur := s.root, hold := none, inq := rest,
        sink := k, op := .unit, work := .rest }

/-- 44 R143, 60 R176: a body that ends inside a code word sets `DANGLING`; with `STRICT_END = 1` it ends with
`DANGLING_END`, with `STRICT_END = 0` it succeeds; either way the symbols before the end are appended, and `CUR` keeps
the node reached. Under `STRICT_END = 1` the bytes are those the step view leaves (60 R184); as a result they are void
(60 R185), and the host observes free values there (log 10). -/
def Obligations.UnpackDangling : Prop :=
  ∀ (s : State) (t u : HTree) (l : List Byte) (rest : List Token), Ready s → SinkGood s → s.status.treeV = true →
    s.status.hdrV = true → IsTree s.node s.root.toNat t → s.inq = byteTokens l ++ .eos :: rest →
    (walkView t t (examinedBits s.pad l)).2 = .inside u →
    ∃ r, exec .unpack s = .next r ∧ IsTree r.node r.cur.toNat u ∧ r.cur ≠ r.root ∧ r.node = s.node ∧
      r.root = s.root ∧ r.inq = rest ∧ r.hold = none ∧ r.sink.output = (walkView t t (examinedBits s.pad l)).1 ∧
      r.status = if s.par.strictEnd then failStatus .danglingEnd s.status.ftV true s.status.ctV true true
        else { goodStatus s.status.ftV true s.status.ctV true with dangling := true }

/-- 44 R141, R151, 60 R175: where the root is a leaf, the first bit of a body ends UNPACK with `INVALID_BIT`, nothing
appended and the cursor at the root. -/
def Obligations.UnpackOneLeaf : Prop :=
  ∀ (s : State) (sym : Byte) (w : Count) (b : Byte) (l : List Byte) (rest : List Token), Ready s →
    s.status.treeV = true → s.status.hdrV = true → s.node[s.root.toNat]? = some (.leaf sym w) →
    s.inq = byteTokens (b :: l) ++ .eos :: rest →
    exec .unpack s = .next { s with
      status := failStatus .invalidBit s.status.ftV true s.status.ctV true false, cur := s.root, hold := some b,
      inq := (byteTokens l ++ .eos :: rest).tail, sink := s.sink.rebase, op := .unit, work := .rest }

/-- 44 R148: where the root is internal, UNPACK never ends with `INVALID_BIT`, whatever the channel brings. -/
def Obligations.InvalidBitUnreachable : Prop :=
  ∀ s t : State, Idle s → s.status.treeV = true → s.status.hdrV = true → IsInternal s.node s.root.toNat →
    exec .unpack s = .next t → t.status.cause ≠ .invalidBit

/-- 30 R69, 44 R139, R146: the padding bits of the last body byte have no effect on what UNPACK answers. -/
def Obligations.PaddingBitsIgnored : Prop :=
  ∀ (s t : State) (l : List Byte) (x y : Byte) (rest : List Token),
    (∀ j, j < 8 - s.pad.toNat → x.getLsbD j = y.getLsbD j) →
    exec .unpack { s with inq := byteTokens (l ++ [x]) ++ .eos :: rest } = .next t → Idle s →
    ∃ u, exec .unpack { s with inq := byteTokens (l ++ [y]) ++ .eos :: rest } = .next u ∧ u.status = t.status ∧
      u.sink = t.sink ∧ u.cur = t.cur

/-! ### ENC and DEC -/

/-- 45 R162, R169, 43 R120: ENC on two passes, the second of bytes that are keys of the first one's table, leaves a
container of the first pass's table and the second pass's data; two equal passes leave `encodeView`, a function of
`SENTINEL` and the input alone. Tables, `PAD` and `NENT` hold what was written; `HDR_V` is 0. The zeros of `HSYM` and
`HACC` are the model's choice (10 R33 leaves them unspecified: log 4). -/
def Obligations.EncResult : Prop :=
  ∀ (s : State) (l l' : List Byte) (rest : List Token), Ready s → SinkGood s →
    s.inq = byteTokens l ++ .eos :: (byteTokens l' ++ .eos :: rest) →
    (∀ b ∈ l', tableGet (freqView s.par.sentinel l) b ≠ none) →
    ∃ (k : Sink) (node : List Node) (t : HTree) (es : List (Byte × Count)),
      es = entriesOf (freqView s.par.sentinel l) ∧ BuiltTree es node t ∧
      Wrote s.sink k (packView (freqView s.par.sentinel l) (codeTable t) l') ∧
      (l' = l → Wrote s.sink k (encodeView s.par.sentinel l)) ∧
      exec .enc s = .next { s with
        status := goodStatus true true true false,
        pad := BitVec.ofNat 3 (padView (inputBits (codeTable t) l').length), nent := BitVec.ofNat 16 es.length,
        ft := freqView s.par.sentinel l, node := node, nleaf := BitVec.ofNat 9 es.length,
        live := BitVec.twoPow 511 (2 * es.length - 2), root := BitVec.ofNat 9 (2 * es.length - 2),
        ct := codeTable t, cur := 0, acc := 0, nb := 0, hold := none, hpos := 0, hsym := 0, hacc := 0, path := [],
        stk := [], op := .unit, work := .rest, inq := rest, sink := k }

/-- 45 R163 to R165, 44 R152, 60 R185: DEC answers what `decode` answers: the output and `DANGLING`, or the cause of
the failure, for every byte string, with the valid flags of the units that completed, and `PAD` and `NENT` as far as
the header was read; the block is then ready for the next command, and what neither HDR nor BUILD nor UNPACK writes is
at its reset value. -/
def Obligations.DecResult : Prop :=
  ∀ (s : State) (c : List Byte) (rest : List Token), Ready s → SinkGood s → s.inq = byteTokens c ++ .eos :: rest →
    ∃ t, exec .dec s = .next t ∧ t.status.busy = false ∧ t.status.done = true ∧ t.host = s.host ∧ t.par = s.par ∧
      t.pace = s.pace ∧ t.rdata = s.rdata ∧ t.inReset = false ∧ t.status.ctV = false ∧ t.ct = emptyTable ∧ t.acc = 0 ∧ t.nb = 0 ∧
      t.path = [] ∧ t.stk = [] ∧
      t.pad = (if 7 < (c.getD 0 0).toNat then 0 else (c.getD 0 0).setWidth 3) ∧
      t.nent = (if 7 < (c.getD 0 0).toNat ∨ c.length < 3 then 0 else fromLE16 (c.getD 1 0) (c.getD 2 0)) ∧
      match decodeView s.par.strictEnd c with
      | .done out d => Wrote s.sink t.sink out ∧ t.inq = rest ∧
          t.status = { goodStatus true true false true with dangling := d }
      | .fail cause =>
          t.status = (if cause = .invalidBit ∨ cause = .danglingEnd then
            failStatus cause true true false true (decide (cause = .danglingEnd))
          else if cause = .emptyTable then failStatus cause true false false true false
          else failStatus cause false false false false false) ∧
          (cause = .truncHdr ∨ cause = .badPad ∨ cause = .emptyTable ∨ cause = .invalidBit ∨ cause = .danglingEnd)

/-- 45 R168: for every input, DEC of the container that ENC left ends with `OK = 1` and `DANGLING = 0`; the output is
the input, unless that is a non-empty sequence of the sentinel byte alone, and then it is empty. Neither side's
`STRICT_END` matters, and the two sides need not share `SENTINEL`. -/
def Obligations.RoundTrip : Prop :=
  ∀ (s s' t : State) (l : List Byte) (rest rest' : List Token), Ready s → SinkGood s → Ready s' → SinkGood s' →
    s.inq = byteTokens l ++ .eos :: (byteTokens l ++ .eos :: rest) → exec .enc s = .next t →
    s'.inq = byteTokens t.sink.output ++ .eos :: rest' →
    ∃ u, exec .dec s' = .next u ∧ u.status.ok = true ∧ u.status.dangling = false ∧ u.inq = rest' ∧
      (¬(l ≠ [] ∧ ∀ b ∈ l, b = s.par.sentinel) → u.sink.output = l) ∧
      (l ≠ [] ∧ (∀ b ∈ l, b = s.par.sentinel) → u.sink.output = [])

/-- 44 R151, 43 R124: an input of one or more sentinel bytes gives a container of 12 bytes that declares one entry
with the number of bytes as its count; DEC of it succeeds with no output. -/
def Obligations.SentinelGap : Prop :=
  ∀ (s s' t : State) (n : Nat) (rest rest' : List Token), Ready s → SinkGood s → Ready s' → SinkGood s' → 1 ≤ n →
    s.inq = byteTokens (List.replicate n s.par.sentinel) ++ .eos ::
      (byteTokens (List.replicate n s.par.sentinel) ++ .eos :: rest) →
    exec .enc s = .next t → s'.inq = byteTokens t.sink.output ++ .eos :: rest' →
    t.sink.output = [0x00#8, 0x01#8, 0x00#8, s.par.sentinel] ++ le64 (BitVec.ofNat 64 n) ∧
      ∃ u, exec .dec s' = .next u ∧ u.status.ok = true ∧ u.status.dangling = false ∧ u.sink.output = []

/-- 45 R170, 40 R84: the container ENC leaves declares one entry for each byte value of the input, and one more
exactly when there are fewer than two and the sentinel is not among them; the entries ascend; the padding count is `(8
- B mod 8) mod 8`. -/
def Obligations.HeaderSelfDescription : Prop :=
  ∀ (sentinel : Byte) (l : List Byte),
    ∃ (t : HTree) (n : Nat), buildView (entriesOf (freqView sentinel l)) = some t ∧
      n = (if l.dedup.length < 2 ∧ sentinel ∉ l then l.dedup.length + 1 else l.dedup.length) ∧
      (encodeView sentinel l).length = 3 + 9 * n + ((inputBits (codeTable t) l).length + 7) / 8 ∧
      (encodeView sentinel l).take 3 =
        BitVec.ofNat 8 ((8 - (inputBits (codeTable t) l).length % 8) % 8) :: le16 (BitVec.ofNat 16 n) ∧
      ((entriesOf (freqView sentinel l)).map fun e => e.1.toNat).Pairwise (· < ·) ∧
      ((encodeView sentinel l).drop 3).take (9 * n) = (entriesOf (freqView sentinel l)).flatMap entryBytes

/-! ### The container's fields and the code bits -/

/-- 44 R131, 60 R177: the padding count goes into `PAD`; above 7 it is `BAD_PAD` and `PAD` keeps its value. -/
def Obligations.PaddingCountResult : Prop :=
  ∀ (s : State) (p lo : Byte), s.status.busy = true → s.work = .hdr lo → s.hpos = 0 →
    (p.toNat ≤ 7 → exec (.paddingCount p) s = .next { s with pad := p.setWidth 3, hpos := 1 }) ∧
    (7 < p.toNat → exec (.paddingCount p) s = .next (raiseCause .badPad { s with hpos := 1 }))

/-- 44 R132: the entry count goes into `NENT`, and HDR goes on to the first entry; with 0 entries it ends, and with it
the operation or, in DEC, BUILD begins, in the same step (the model's grouping: log 20). -/
def Obligations.EntryCountResult : Prop :=
  ∀ (s : State) (n : BitVec 16) (lo : Byte), s.status.busy = true → s.work = .hdr lo → s.hpos = 1 →
    (n ≠ 0 → exec (.entryCount n) s = .next { s with nent := n, hpos := 3, work := .hdr (n.extractLsb' 0 8) }) ∧
    (n = 0 → s.op = .unit → exec (.entryCount n) s = .next (endOk { s with
      nent := 0, hpos := 3, status := { s.status with ftV := true, hdrV := true } })) ∧
    (n = 0 → s.op = .dec → exec (.entryCount n) s = .next (startBuild { s with
      nent := 0, hpos := 3, status := { s.status with ftV := true, hdrV := true } }))

/-- 44 R133, R130: an entry's count is stored at `FT[byte value]`; after the last entry declared HDR ends, and with it
the operation or, in DEC, BUILD begins, with the step of the last byte (the model's grouping: log 20). -/
def Obligations.EntryResult : Prop :=
  ∀ (s : State) (sym lo : Byte) (count : Count) (i : Nat), s.status.busy = true → s.work = .hdr lo →
    s.hpos.toNat = 3 + 9 * i → i < s.nent.toNat →
    ∀ t : State, t = { s with
      hpos := BitVec.ofNat 20 (3 + 9 * (i + 1)), hsym := sym, hacc := count, ft := tableSet s.ft sym count } →
    (i + 1 < s.nent.toNat → exec (.entry sym count) s = .next t) ∧
    (i + 1 = s.nent.toNat → s.op = .unit → exec (.entry sym count) s =
      .next (endOk { t with status := { s.status with ftV := true, hdrV := true } })) ∧
    (i + 1 = s.nent.toNat → s.op = .dec → exec (.entry sym count) s =
      .next (startBuild { t with status := { s.status with ftV := true, hdrV := true } }))

/-- 44 R138, 10 R25: a body byte is held; its predecessor, if one was held, is walked whole first, all eight bit
positions, the symbols it completes appended. -/
def Obligations.BodyByteResult : Prop :=
  (∀ (s : State) (b : Byte), s.status.busy = true → s.work = .pull → s.hold = none →
    exec (.bodyByte b) s = .next { s with hold := some b }) ∧
  ∀ (s : State) (b x : Byte) (t c : HTree), SinkGood s → s.status.busy = true → s.work = .pull → s.hold = some x →
    WalkAt s.node s.root s.cur t c → (walkView t c (bitsOf x 8)).2 ≠ .offTree →
    ∃ (cur : Idx) (u : HTree), WalkAt s.node s.root cur t u ∧
      (walkView t c (bitsOf x 8)).2 = (if u = t then .atRoot else .inside u) ∧
      exec (.bodyByte b) s = .next { s with
        cur := cur, hold := some b, sink := appendAll s.sink (walkView t c (bitsOf x 8)).1, work := .pull }

/-- 44 R138 to R143: an examined bit moves the cursor to the left child on 0, to the right on 1; at a leaf the symbol
is appended and the cursor returns to the root; a bit examined on a leaf is `INVALID_BIT`. After the last bit of a
byte its successor is held; after the last bit of the body the operation ends, and the end dangles where the cursor is
not at the root. That these are one step with the last bit is the model's grouping (log 20). -/
def Obligations.CodeBitWalk : Prop :=
  ∀ (s : State) (v : Bool) (bits : List Bool) (next : Option Byte), s.status.busy = true →
    s.work = .walk bits next →
    (∀ w l r, s.node[s.cur.toNat]? = some (.internal w l r) →
      (∀ w' l' r', s.node[(if v then r else l).toNat]? = some (.internal w' l' r') →
        ∀ u : State, u = { s with cur := if v then r else l } →
        (bits ≠ [] → exec (.codeBit v) s = .next u) ∧
        (∀ b, bits = [] → next = some b → exec (.codeBit v) s = .next { u with hold := some b, work := .pull }) ∧
        (bits = [] → next = none → (if v then r else l) ≠ s.root → s.par.strictEnd = true →
          exec (.codeBit v) s = .next (raiseCause .danglingEnd { u with
            hold := none, status := { s.status with dangling := true } })) ∧
        (bits = [] → next = none → (if v then r else l) ≠ s.root → s.par.strictEnd = false →
          exec (.codeBit v) s = .next (endOk { u with
            hold := none, status := { s.status with dangling := true } }))) ∧
      (∀ sym w', s.node[(if v then r else l).toNat]? = some (.leaf sym w') → SinkGood s →
        ∀ u : State, u = { s with cur := s.root, sink := s.sink.store s.sink.olen sym } →
        (bits ≠ [] → exec (.codeBit v) s = .next u) ∧
        (∀ b, bits = [] → next = some b → exec (.codeBit v) s = .next { u with hold := some b, work := .pull }) ∧
        (bits = [] → next = none → exec (.codeBit v) s = .next (endOk { u with
          hold := none, status := { s.status with dangling := false } })))) ∧
    (∀ sym w, s.node[s.cur.toNat]? = some (.leaf sym w) →
      exec (.codeBit v) s = .next (raiseCause .invalidBit s))

/-- 43 R117, R118, 10 R24: an appended bit goes to bit position `NB` of `ACC`; the eighth completes the byte, which is
appended, and `ACC` and `NB` return to 0; after the last bit of a code word PACK goes on to the next token. That bit
and append are one step is the model's grouping (log 20). -/
def Obligations.CodeBitPack : Prop :=
  ∀ (s : State) (v : Bool) (bits : List Bool), s.status.busy = true → s.work = .packBits bits →
    ∃ acc : Byte, (∀ j, j < 8 → acc.getLsbD j = (s.acc.getLsbD j || (v && decide (j = s.nb.toNat)))) ∧
      (s.nb ≠ 7 → exec (.codeBit v) s = .next { s with
        acc := acc, nb := s.nb + 1, work := if bits = [] then .packPull else .packBits bits }) ∧
      (s.nb = 7 → SinkGood s → exec (.codeBit v) s = .next { s with
        acc := 0, nb := 0, sink := s.sink.store s.sink.olen acc,
        work := if bits = [] then .packPull else .packBits bits })

/-! ### Frames -/

/-- 40 R80, 44 R130, R52: FREQ and HDR, however they end, leave the tree, the code table and the other units'
registers as they were; FREQ also leaves `PAD`, `NENT` and HDR's registers. -/
def Obligations.FreqHdrFrame : Prop :=
  ∀ (s t : State) (i : Instr), i = .freq ∨ i = .hdr → exec i s = .next t →
    (t.node = s.node ∧ t.nleaf = s.nleaf ∧ t.live = s.live ∧ t.root = s.root ∧ t.ct = s.ct ∧ t.cur = s.cur ∧
      t.acc = s.acc ∧ t.nb = s.nb ∧ t.hold = s.hold ∧ t.path = s.path ∧ t.stk = s.stk) ∧
    (t.sink.mem = s.sink.mem ∧ t.par = s.par ∧ t.host = s.host ∧ t.pace = s.pace ∧ t.rdata = s.rdata ∧
      t.inReset = s.inReset) ∧
    (i = .freq → t.pad = s.pad ∧ t.nent = s.nent ∧ t.hpos = s.hpos ∧ t.hsym = s.hsym ∧ t.hacc = s.hacc)

/-- 41 R89, 42 R104: BUILD and ASSIGN, however they end, pull no token, write no byte, and leave `FT`, `FT_V`, `HDR_V`
and the other units' registers; BUILD leaves `CT` and ASSIGN's scratch, and the cursor unless it is no entry of the
tree it ends with (10 R19; log 21); ASSIGN leaves the tree, `TREE_V` and the cursor. -/
def Obligations.BuildAssignFrame : Prop :=
  ∀ (s t : State) (i : Instr), i = .build ∨ i = .assign → exec i s = .next t →
    (t.pad = s.pad ∧ t.nent = s.nent ∧ t.ft = s.ft ∧ t.acc = s.acc ∧ t.nb = s.nb ∧
      t.hold = s.hold ∧ t.hpos = s.hpos ∧ t.hsym = s.hsym ∧ t.hacc = s.hacc) ∧
    (t.inq = s.inq ∧ t.sink.mem = s.sink.mem ∧ t.par = s.par ∧ t.host = s.host ∧ t.pace = s.pace ∧
      t.rdata = s.rdata ∧ t.inReset = s.inReset ∧ t.status.ftV = s.status.ftV ∧ t.status.hdrV = s.status.hdrV) ∧
    (i = .build → t.ct = s.ct ∧ t.path = s.path ∧ t.stk = s.stk ∧
      (t.cur = s.cur ∨ (t.status.treeV = true ∧ t.nn ≤ s.cur.toNat ∧ t.cur.toNat < t.nn))) ∧
    (i = .assign → t.cur = s.cur ∧ t.node = s.node ∧ t.nleaf = s.nleaf ∧ t.live = s.live ∧ t.root = s.root ∧
      t.status.treeV = s.status.treeV)

/-- 43 R127, 44 R137, 20 R56: PACK and UNPACK, however they end, leave the tables, the tree and HDR's registers; PACK
leaves `CUR` and `HOLD`, UNPACK leaves `PAD`, `NENT`, `ACC`, `NB` and every valid flag. -/
def Obligations.PackUnpackFrame : Prop :=
  ∀ (s t : State) (i : Instr), i = .pack ∨ i = .unpack → exec i s = .next t →
    (t.ft = s.ft ∧ t.node = s.node ∧ t.nleaf = s.nleaf ∧ t.live = s.live ∧ t.root = s.root ∧ t.ct = s.ct ∧
      t.hpos = s.hpos ∧ t.hsym = s.hsym ∧ t.hacc = s.hacc ∧ t.path = s.path ∧ t.stk = s.stk) ∧
    (t.par = s.par ∧ t.host = s.host ∧ t.pace = s.pace ∧ t.rdata = s.rdata ∧ t.status.ftV = s.status.ftV ∧
      t.status.treeV = s.status.treeV ∧ t.status.ctV = s.status.ctV ∧ t.inReset = s.inReset) ∧
    (i = .pack → t.cur = s.cur ∧ t.hold = s.hold) ∧
    (i = .unpack → t.pad = s.pad ∧ t.nent = s.nent ∧ t.acc = s.acc ∧ t.nb = s.nb ∧
      t.status.hdrV = s.status.hdrV)

/-- 20 R43, R52: no instruction changes a byte of the sink outside what is appended: below where the next byte would
have gone, and at or above where it goes afterwards, every address reads as before; CLR, FREQ, BUILD, ASSIGN, HDR and
the header's fields change no byte at all. -/
def Obligations.MemoryFrame : Prop :=
  ∀ (s t : State) (i : Instr), exec i s = .next t →
    (∀ a, a < outputStart s ∨ outputStart t ≤ a → memRead t.sink.mem a = memRead s.sink.mem a) ∧
    ((i = .clr ∨ i = .freq ∨ i = .build ∨ i = .assign ∨ i = .hdr ∨ i.space = .padding ∨ i.space = .entryCount ∨
      i.space = .entry) → ∀ a, memRead t.sink.mem a = memRead s.sink.mem a)

/-- 44 R149, 60 R185: what a failed operation has appended reads, for the host, as a free value: a statement about it
holds for every value (the model's form of the rule: log 10). The first clause is of a failure in the turn of the
command itself, the second of one in any later step, whatever the host does in it, and of an operation the reset input
abandons (70 R196). -/
def Obligations.FailedOutputIsFree : Prop :=
  (∀ (s t : State) (i : Instr), Idle s → IsCommand i → exec i s = .next t → t.status.busy = false →
    t.status.ok = false →
    ∀ a, outputStart s ≤ a → a < outputStart t → t.sink.observe a = some (Config.voidByte s.freeCtr a)) ∧
  ∀ s t : State, Inv s → s.status.busy = true → step s = .next t → t.status.busy = false → t.status.ok = false →
    ∀ a, t.sink.base ≤ a → a < outputStart t → t.sink.observe a = some (Config.voidByte s.freeCtr a)

/-! ### The machine -/

/-- 60 R194, 20 R41, R58: with no host act pending the machine makes no step while the block is idle, while the unit
needs a token and none is there, and while a write is due and the sink is not ready: the model then answers the same
state (its choice: log 16). And there is no other stuck state: from a state with the invariant where the sequencer
does not wait so, it takes a step that changes the state, and the machine's step goes on from there, whatever the pace
(log 7). -/
def Obligations.WaitingIsNoStep : Prop :=
  (∀ s : State, s.host = [] → Waits s → step s = .next s) ∧
  ∀ s : State, Inv s → s.host = [] → ¬Waits s → ∃ (t : State) (n : Nat), tick s = .next t ∧ t ≠ s ∧ step s = drive n t

/-- 10 R18, 45 R162, R163: within an operation `PHASE` moves only along 1, 2, 3, 4, 5 in ENC and 6, 2, 7 in DEC, each
ending in 0, and a unit command's phase only to 0, but for PACK's, which moves from 4 to 5 first (43 R113). In which
step `PHASE` moves is the model's grouping (log 20). -/
def Obligations.PhaseOrder : Prop :=
  ∀ s t : State, Inv s → s.host = [] → s.pace = some 1 → s.status.busy = true → step s = .next t →
    t.status.phase = s.status.phase ∨ t.status.phase = .idle ∨
      (s.status.phase = .packHdr ∧ t.status.phase = .packBody) ∨
      (s.op = .enc ∧ ((s.status.phase = .freq ∧ t.status.phase = .build) ∨
        (s.status.phase = .build ∧ t.status.phase = .assign) ∨
        (s.status.phase = .assign ∧ t.status.phase = .packHdr))) ∨
      (s.op = .dec ∧ ((s.status.phase = .hdr ∧ t.status.phase = .build) ∨
        (s.status.phase = .build ∧ t.status.phase = .unpack)))

/-- 20 R54, 44 R153, 70 R210: how the host cuts a stream into bursts does not alter the result: two bursts and the one
burst of the same tokens lead to the same state, once the sequencer has no step. -/
def Obligations.ChunkIndependence : Prop :=
  ∀ (s t u v : State) (ts us : List Token), Unpaced s → s.host = [.feed ts, .feed us] →
    step s = .next t → step t = .next u → step { s with host := [.feed (ts ++ us)] } = .next v →
    tick u = .wait → tick v = .wait → u = v

/-- 10 R15, R18, R19, R21, R22, R24, 20 R43, 41 R95: the invariant holds after reset. -/
def Obligations.ResetInv : Prop := Inv State.reset

/-- 10 R15, R18, R19, R21, R22, R24, 20 R43, 41 R95: every step from a state with the invariant, whatever the host
does, leads to one: `DONE` and `OK` are 0 while `BUSY` is 1, `PHASE` names the running unit, children come before
their parents, `NN` is at most 511, the root and the cursor are entries in use while `TREE_V` is 1 (how the cursor
comes to be one after a BUILD of a smaller tree is the model's choice: log 21), the unfilled bits of `ACC` are 0 while
PACK packs, and the sink's memory keeps its canonical form and holds what the running operation has appended. -/
def Obligations.StepKeepsInv : Prop :=
  ∀ s t : State, Inv s → step s = .next t → Inv t

/-- 10 R31, 45 R163, R167: from a state with the invariant the machine always goes on: no field that holds no value is
read, and no instruction is refused. -/
def Obligations.MachineGoesOn : Prop :=
  ∀ s : State, Inv s → GoesOn (step s) ∧ ∀ i : Instr, GoesOn (exec i s)

end
end

