-- ==== Sys2Proof/Laws/Memory.lean ====
section
/-! SUPPORT. Laws of the sink's memory and of the sink: a byte read after a write, the canonical form kept, what one
write can come to, the output after an append. -/

namespace Sys2Proof.Machine

@[simp] theorem memRead_memWrite_same (m : List Host.Cell) (a : Nat) (b : Byte) :
    memRead (memWrite m a b) a = some b := by
  induction m with
  | nil => simp [memWrite, memRead]
  | cons c r ih =>
    obtain ⟨x, y⟩ := c
    unfold memWrite
    split
    · simp [memRead]
    · split
      · simp [memRead]
      · next h1 h2 => simp [memRead, ih, Ne.symm h2]

theorem memRead_memWrite_ne (m : List Host.Cell) {a a' : Nat} (b : Byte) (h : a ≠ a') :
    memRead (memWrite m a b) a' = memRead m a' := by
  induction m with
  | nil => simp [memWrite, memRead, h]
  | cons c r ih =>
    obtain ⟨x, y⟩ := c
    unfold memWrite
    split
    · simp [memRead, h]
    · split
      · next h1 h2 => subst h2; simp [memRead, h]
      · simp [memRead, ih]

theorem memRead_memWrite (m : List Host.Cell) (a a' : Nat) (b : Byte) :
    memRead (memWrite m a b) a' = if a = a' then some b else memRead m a' := by
  split
  · next h => subst h; simp
  · next h => exact memRead_memWrite_ne m b h

theorem memRising_memWrite (m : List Host.Cell) (lo a : Nat) (b : Byte) (hlo : lo < a)
    (h : memRising lo m = true) : memRising lo (memWrite m a b) = true := by
  induction m generalizing lo with
  | nil => simp [memWrite, memRising, hlo]
  | cons c r ih =>
    obtain ⟨x, y⟩ := c
    simp only [memRising, Bool.and_eq_true, decide_eq_true_eq] at h
    unfold memWrite
    split
    · next h1 => simp [memRising, hlo, h1, h.2]
    · split
      · next h1 h2 => subst h2; simp [memRising, hlo, h.2]
      · next h1 h2 => simp [memRising, h.1, ih x (by omega) h.2]

/-- A write keeps the canonical form. -/
theorem memWf_memWrite (m : List Host.Cell) (a : Nat) (b : Byte) (h : memWf m = true) :
    memWf (memWrite m a b) = true := by
  cases m with
  | nil => rfl
  | cons c r =>
    obtain ⟨x, y⟩ := c
    unfold memWrite
    split
    · next h1 => simpa [memWf, memRising, h1] using h
    · split
      · next h1 h2 => subst h2; exact h
      · next h1 h2 => exact memRising_memWrite r x a b (by omega) h

theorem mem_memWrite {m : List Host.Cell} {a : Nat} {b : Byte} {c : Host.Cell} (h : c ∈ memWrite m a b) :
    c = (a, b) ∨ c ∈ m := by
  induction m with
  | nil => simpa [memWrite] using h
  | cons d r ih =>
    obtain ⟨x, y⟩ := d
    unfold memWrite at h
    split at h
    · simpa using h
    · split at h
      · simp only [List.mem_cons] at h ⊢; tauto
      · simp only [List.mem_cons] at h ⊢
        rcases h with h | h
        · exact .inr (.inl h)
        · rcases ih h with h | h
          · exact .inl h
          · exact .inr (.inr h)

/-- Memories in canonical form that read alike are equal. -/
theorem memRead_of_rising {m : List Host.Cell} {lo a : Nat} (h : memRising lo m = true) (ha : a ≤ lo) :
    memRead m a = none := by
  induction m generalizing lo with
  | nil => rfl
  | cons c r ih =>
    obtain ⟨x, y⟩ := c
    simp only [memRising, Bool.and_eq_true, decide_eq_true_eq] at h
    have : x ≠ a := by omega
    simp [memRead, this, ih h.2 (by omega)]

theorem memRising_ext {m m' : List Host.Cell} {lo : Nat} (h : memRising lo m = true) (h' : memRising lo m' = true)
    (e : ∀ a, memRead m a = memRead m' a) : m = m' := by
  induction m generalizing lo m' with
  | nil =>
    cases m' with
    | nil => rfl
    | cons c r => obtain ⟨x, y⟩ := c; have := e x; simp [memRead] at this
  | cons c r ih =>
    obtain ⟨x, y⟩ := c
    cases m' with
    | nil => have := e x; simp [memRead] at this
    | cons c' r' =>
      obtain ⟨x', y'⟩ := c'
      simp only [memRising, Bool.and_eq_true, decide_eq_true_eq] at h h'
      have hx : x = x' := by
        by_contra hne
        rcases Nat.lt_or_gt_of_ne hne with hlt | hlt
        · have := e x
          simp [memRead, Ne.symm hne, memRead_of_rising h'.2 (Nat.le_of_lt hlt)] at this
        · have := e x'
          simp [memRead, hne, memRead_of_rising h.2 (Nat.le_of_lt hlt)] at this
      subst hx
      have hy : y = y' := by have := e x; simpa [memRead] using this
      subst hy
      have : r = r' := by
        refine ih h.2 h'.2 fun a => ?_
        by_cases hxa : x = a
        · subst hxa; rw [memRead_of_rising h.2 (Nat.le_refl _), memRead_of_rising h'.2 (Nat.le_refl _)]
        · have := e a; simpa [memRead, hxa] using this
      rw [this]

/-! ### The sink -/

@[simp] theorem Sink.store_base (k : Sink) (off : Nat) (b : Byte) : (k.store off b).base = k.base := rfl
@[simp] theorem Sink.store_mem (k : Sink) (off : Nat) (b : Byte) :
    (k.store off b).mem = memWrite k.mem (k.base + off) b := rfl
@[simp] theorem Sink.store_ready (k : Sink) (off : Nat) (b : Byte) : (k.store off b).ready = k.ready := rfl
@[simp] theorem Sink.store_fails (k : Sink) (off : Nat) (b : Byte) : (k.store off b).fails = k.fails := rfl
@[simp] theorem Sink.store_voids (k : Sink) (off : Nat) (b : Byte) : (k.store off b).voids = k.voids := rfl
@[simp] theorem Sink.store_olen (k : Sink) (off : Nat) (b : Byte) :
    (k.store off b).olen = if off = k.olen then k.olen + 1 else k.olen := rfl

/-- What one write to the sink comes to. -/
theorem Sink.put_cases (k : Sink) (off : Nat) (b : Byte) :
    (k.ready = false ∧ k.put off b = .wait) ∨
      (∃ r, k.ready = true ∧ k.fails = true :: r ∧ k.put off b = .failed { k with fails := r }) ∨
      (k.ready = true ∧ k.fails.head? ≠ some true ∧
        k.put off b = .done ({ k with fails := k.fails.tail }.store off b)) := by
  unfold Sink.put
  split
  · next h =>
    split
    · next r hr => exact .inr (.inl ⟨r, h, hr, rfl⟩)
    · next r hr => exact .inr (.inr ⟨h, by simp [hr], by simp [hr]⟩)
    · next hr => exact .inr (.inr ⟨h, by simp [hr], by obtain ⟨m, bs, o, r, f, v⟩ := k; cases hr; rfl⟩)
  · next h => exact .inl ⟨by simpa using h, rfl⟩

/-- A ready sink with no failure planned stores. -/
theorem Sink.put_good {k : Sink} (hr : k.ready = true) (hf : k.fails = []) (off : Nat) (b : Byte) :
    k.put off b = .done (k.store off b) := by
  simp [Sink.put, hr, hf]

theorem Sink.put_notReady {k : Sink} (hr : k.ready = false) (off : Nat) (b : Byte) : k.put off b = .wait := by
  simp [Sink.put, hr]

theorem Sink.put_fails {k : Sink} {r : List Bool} (hr : k.ready = true) (hf : k.fails = true :: r) (off : Nat)
    (b : Byte) : k.put off b = .failed { k with fails := r } := by
  simp [Sink.put, hr, hf]

/-- An append adds one byte at the end of the output. -/
theorem Sink.output_append (k : Sink) (b : Byte) : (k.store k.olen b).output = k.output ++ [b] := by
  have h : ∀ i ∈ List.range k.olen, memRead (memWrite k.mem (k.base + k.olen) b) (k.base + i) =
      memRead k.mem (k.base + i) := by
    intro i hi
    rw [List.mem_range] at hi
    exact memRead_memWrite_ne _ _ (by omega)
  simp only [Sink.output, Sink.store_olen, Sink.store_mem, Sink.store_base, ↓reduceIte, List.range_succ,
    List.filterMap_append, List.filterMap_cons, memRead_memWrite_same, List.filterMap_nil]
  rw [List.filterMap_congr h]

/-! ### Settling -/

theorem memRead_map (m : List Host.Cell) (f : Nat → Byte → Byte) (a : Nat) :
    memRead (m.map fun c => (c.1, f c.1 c.2)) a = (memRead m a).map (f a) := by
  induction m with
  | nil => rfl
  | cons c r ih =>
    obtain ⟨x, y⟩ := c
    simp only [List.map_cons, memRead]
    split
    · next h => subst h; rfl
    · exact ih

theorem memRising_map (m : List Host.Cell) (f : Nat → Byte → Byte) (lo : Nat) :
    memRising lo (m.map fun c => (c.1, f c.1 c.2)) = memRising lo m := by
  induction m generalizing lo with
  | nil => rfl
  | cons c r ih => simp only [List.map_cons, memRising, ih]

/-- Settling keeps the canonical form. -/
theorem memWf_settle (k : Sink) : memWf k.settle.mem = memWf k.mem := by
  obtain ⟨m, b, o, r, f, v⟩ := k
  cases m with
  | nil => rfl
  | cons c m =>
    exact memRising_map m (fun a y => match voidTag v a with
      | none => y
      | some tag => Config.voidByte tag a) c.1

/-- Settling changes nothing of what the host observes. -/
theorem observe_settle (k : Sink) (a : Nat) : k.settle.observe a = k.observe a := by
  have h := memRead_map k.mem (fun a y => match voidTag k.voids a with
    | none => y
    | some tag => Config.voidByte tag a) a
  have hs : memRead k.settle.mem a = _ := h
  unfold Sink.observe
  rw [hs]
  cases memRead k.mem a with
  | none => rfl
  | some y => cases voidTag k.voids a <;> simp [Sink.settle, voidTag]

/-! ### Appends, one after another -/

@[simp] theorem appendAll_nil (k : Sink) : appendAll k [] = k := rfl
@[simp] theorem appendAll_cons (k : Sink) (b : Byte) (bs : List Byte) :
    appendAll k (b :: bs) = appendAll (k.store k.olen b) bs := rfl
theorem appendAll_append (k : Sink) (as bs : List Byte) :
    appendAll k (as ++ bs) = appendAll (appendAll k as) bs := by simp [appendAll]

@[simp] theorem appendAll_base (k : Sink) (bs : List Byte) : (appendAll k bs).base = k.base := by
  induction bs generalizing k <;> simp_all
@[simp] theorem appendAll_ready (k : Sink) (bs : List Byte) : (appendAll k bs).ready = k.ready := by
  induction bs generalizing k <;> simp_all
@[simp] theorem appendAll_fails (k : Sink) (bs : List Byte) : (appendAll k bs).fails = k.fails := by
  induction bs generalizing k <;> simp_all
@[simp] theorem appendAll_voids (k : Sink) (bs : List Byte) : (appendAll k bs).voids = k.voids := by
  induction bs generalizing k <;> simp_all
@[simp] theorem appendAll_olen (k : Sink) (bs : List Byte) : (appendAll k bs).olen = k.olen + bs.length := by
  induction bs generalizing k with
  | nil => rfl
  | cons b bs ih => simp [ih]; omega

theorem output_appendAll (k : Sink) (bs : List Byte) : (appendAll k bs).output = k.output ++ bs := by
  induction bs generalizing k with
  | nil => simp
  | cons b bs ih => simp [ih, Sink.output_append]

/-- An append leaves every byte below it. -/
theorem memRead_appendAll (k : Sink) (bs : List Byte) {a : Nat}
    (h : a < k.base + k.olen ∨ k.base + k.olen + bs.length ≤ a) :
    memRead (appendAll k bs).mem a = memRead k.mem a := by
  induction bs generalizing k with
  | nil => rfl
  | cons b bs ih =>
    simp only [List.length_cons] at h
    rw [appendAll_cons, ih _ (by simp; omega)]
    exact memRead_memWrite_ne _ _ (by omega)

theorem output_rebase (k : Sink) : k.rebase.output = [] := by simp [Sink.output, Sink.rebase]

/-- The rewrite of offset 0 replaces the first byte of the output. -/
theorem Sink.output_rewrite (k : Sink) (b x : Byte) (r : List Byte) (h : k.output = x :: r)
    (hx : memRead k.mem k.base = some x) (hpos : 0 < k.olen) : (k.store 0 b).output = b :: r := by
  obtain ⟨n, hn⟩ : ∃ n, k.olen = n + 1 := ⟨k.olen - 1, by omega⟩
  have hc : ∀ i ∈ List.range n, memRead (memWrite k.mem (k.base + 0) b) (k.base + (i + 1)) =
      memRead k.mem (k.base + (i + 1)) := fun i _ => memRead_memWrite_ne _ _ (by omega)
  simp only [Sink.output, hn, List.range_succ_eq_map, List.filterMap_cons, Nat.add_zero, hx, List.filterMap_map,
    List.cons.injEq, true_and] at h
  have hs : (k.store 0 b).olen = n + 1 := by simp [hn]
  rw [Sink.output, hs, List.range_succ_eq_map]
  simp only [Sink.store_mem, Sink.store_base, List.filterMap_cons, List.filterMap_map]
  rw [show k.base + 0 = k.base from rfl, memRead_memWrite_same]
  simp only [List.cons.injEq, true_and]
  rw [← h]
  exact List.filterMap_congr fun i hi => by simpa using hc i hi

end Sys2Proof.Machine
end

