-- ==== Sys2Proof/Laws/State.lean ====
section
/-! SUPPORT. One lemma per field per update of the state: what each named operation writes, and what it leaves. -/

namespace Sys2Proof.Machine

/-! ### startOp -/

@[simp] theorem startOp_par (s : State) (o : Op) : (startOp s o).par = s.par := rfl
@[simp] theorem startOp_status (s : State) (o : Op) : (startOp s o).status = s.status.start := rfl
@[simp] theorem startOp_pad (s : State) (o : Op) : (startOp s o).pad = s.pad := rfl
@[simp] theorem startOp_nent (s : State) (o : Op) : (startOp s o).nent = s.nent := rfl
@[simp] theorem startOp_ft (s : State) (o : Op) : (startOp s o).ft = s.ft := rfl
@[simp] theorem startOp_node (s : State) (o : Op) : (startOp s o).node = s.node := rfl
@[simp] theorem startOp_nleaf (s : State) (o : Op) : (startOp s o).nleaf = s.nleaf := rfl
@[simp] theorem startOp_live (s : State) (o : Op) : (startOp s o).live = s.live := rfl
@[simp] theorem startOp_root (s : State) (o : Op) : (startOp s o).root = s.root := rfl
@[simp] theorem startOp_ct (s : State) (o : Op) : (startOp s o).ct = s.ct := rfl
@[simp] theorem startOp_cur (s : State) (o : Op) : (startOp s o).cur = s.cur := rfl
@[simp] theorem startOp_acc (s : State) (o : Op) : (startOp s o).acc = s.acc := rfl
@[simp] theorem startOp_nb (s : State) (o : Op) : (startOp s o).nb = s.nb := rfl
@[simp] theorem startOp_hold (s : State) (o : Op) : (startOp s o).hold = s.hold := rfl
@[simp] theorem startOp_hpos (s : State) (o : Op) : (startOp s o).hpos = s.hpos := rfl
@[simp] theorem startOp_hsym (s : State) (o : Op) : (startOp s o).hsym = s.hsym := rfl
@[simp] theorem startOp_hacc (s : State) (o : Op) : (startOp s o).hacc = s.hacc := rfl
@[simp] theorem startOp_path (s : State) (o : Op) : (startOp s o).path = s.path := rfl
@[simp] theorem startOp_stk (s : State) (o : Op) : (startOp s o).stk = s.stk := rfl
@[simp] theorem startOp_op (s : State) (o : Op) : (startOp s o).op = o := rfl
@[simp] theorem startOp_work (s : State) (o : Op) : (startOp s o).work = s.work := rfl
@[simp] theorem startOp_inReset (s : State) (o : Op) : (startOp s o).inReset = s.inReset := rfl
@[simp] theorem startOp_inq (s : State) (o : Op) : (startOp s o).inq = s.inq := rfl
@[simp] theorem startOp_sink (s : State) (o : Op) : (startOp s o).sink = s.sink.rebase := rfl
@[simp] theorem startOp_host (s : State) (o : Op) : (startOp s o).host = s.host := rfl
@[simp] theorem startOp_pace (s : State) (o : Op) : (startOp s o).pace = s.pace := rfl
@[simp] theorem startOp_rdata (s : State) (o : Op) : (startOp s o).rdata = s.rdata := rfl
@[simp] theorem startOp_freeCtr (s : State) (o : Op) : (startOp s o).freeCtr = s.freeCtr := rfl

/-! ### endOk -/

@[simp] theorem endOk_par (s : State) : (endOk s).par = s.par := rfl
@[simp] theorem endOk_status (s : State) : (endOk s).status = s.status.succeed := rfl
@[simp] theorem endOk_pad (s : State) : (endOk s).pad = s.pad := rfl
@[simp] theorem endOk_nent (s : State) : (endOk s).nent = s.nent := rfl
@[simp] theorem endOk_ft (s : State) : (endOk s).ft = s.ft := rfl
@[simp] theorem endOk_node (s : State) : (endOk s).node = s.node := rfl
@[simp] theorem endOk_nleaf (s : State) : (endOk s).nleaf = s.nleaf := rfl
@[simp] theorem endOk_live (s : State) : (endOk s).live = s.live := rfl
@[simp] theorem endOk_root (s : State) : (endOk s).root = s.root := rfl
@[simp] theorem endOk_ct (s : State) : (endOk s).ct = s.ct := rfl
@[simp] theorem endOk_cur (s : State) : (endOk s).cur = s.cur := rfl
@[simp] theorem endOk_acc (s : State) : (endOk s).acc = s.acc := rfl
@[simp] theorem endOk_nb (s : State) : (endOk s).nb = s.nb := rfl
@[simp] theorem endOk_hold (s : State) : (endOk s).hold = s.hold := rfl
@[simp] theorem endOk_hpos (s : State) : (endOk s).hpos = s.hpos := rfl
@[simp] theorem endOk_hsym (s : State) : (endOk s).hsym = s.hsym := rfl
@[simp] theorem endOk_hacc (s : State) : (endOk s).hacc = s.hacc := rfl
@[simp] theorem endOk_path (s : State) : (endOk s).path = s.path := rfl
@[simp] theorem endOk_stk (s : State) : (endOk s).stk = s.stk := rfl
@[simp] theorem endOk_op (s : State) : (endOk s).op = .unit := rfl
@[simp] theorem endOk_work (s : State) : (endOk s).work = .rest := rfl
@[simp] theorem endOk_inReset (s : State) : (endOk s).inReset = s.inReset := rfl
@[simp] theorem endOk_inq (s : State) : (endOk s).inq = s.inq := rfl
@[simp] theorem endOk_sink (s : State) : (endOk s).sink = s.sink := rfl
@[simp] theorem endOk_host (s : State) : (endOk s).host = s.host := rfl
@[simp] theorem endOk_pace (s : State) : (endOk s).pace = s.pace := rfl
@[simp] theorem endOk_rdata (s : State) : (endOk s).rdata = s.rdata := rfl
@[simp] theorem endOk_freeCtr (s : State) : (endOk s).freeCtr = s.freeCtr := rfl

/-! ### voidSink -/

@[simp] theorem voidSink_par (s : State) : (voidSink s).par = s.par := rfl
@[simp] theorem voidSink_status (s : State) : (voidSink s).status = s.status := rfl
@[simp] theorem voidSink_pad (s : State) : (voidSink s).pad = s.pad := rfl
@[simp] theorem voidSink_nent (s : State) : (voidSink s).nent = s.nent := rfl
@[simp] theorem voidSink_ft (s : State) : (voidSink s).ft = s.ft := rfl
@[simp] theorem voidSink_node (s : State) : (voidSink s).node = s.node := rfl
@[simp] theorem voidSink_nleaf (s : State) : (voidSink s).nleaf = s.nleaf := rfl
@[simp] theorem voidSink_live (s : State) : (voidSink s).live = s.live := rfl
@[simp] theorem voidSink_root (s : State) : (voidSink s).root = s.root := rfl
@[simp] theorem voidSink_ct (s : State) : (voidSink s).ct = s.ct := rfl
@[simp] theorem voidSink_cur (s : State) : (voidSink s).cur = s.cur := rfl
@[simp] theorem voidSink_acc (s : State) : (voidSink s).acc = s.acc := rfl
@[simp] theorem voidSink_nb (s : State) : (voidSink s).nb = s.nb := rfl
@[simp] theorem voidSink_hold (s : State) : (voidSink s).hold = s.hold := rfl
@[simp] theorem voidSink_hpos (s : State) : (voidSink s).hpos = s.hpos := rfl
@[simp] theorem voidSink_hsym (s : State) : (voidSink s).hsym = s.hsym := rfl
@[simp] theorem voidSink_hacc (s : State) : (voidSink s).hacc = s.hacc := rfl
@[simp] theorem voidSink_path (s : State) : (voidSink s).path = s.path := rfl
@[simp] theorem voidSink_stk (s : State) : (voidSink s).stk = s.stk := rfl
@[simp] theorem voidSink_op (s : State) : (voidSink s).op = s.op := rfl
@[simp] theorem voidSink_work (s : State) : (voidSink s).work = s.work := rfl
@[simp] theorem voidSink_inReset (s : State) : (voidSink s).inReset = s.inReset := rfl
@[simp] theorem voidSink_inq (s : State) : (voidSink s).inq = s.inq := rfl
@[simp] theorem voidSink_sink (s : State) : (voidSink s).sink = s.sink.voidOutput s.freeCtr := rfl
@[simp] theorem voidSink_host (s : State) : (voidSink s).host = s.host := rfl
@[simp] theorem voidSink_pace (s : State) : (voidSink s).pace = s.pace := rfl
@[simp] theorem voidSink_rdata (s : State) : (voidSink s).rdata = s.rdata := rfl
@[simp] theorem voidSink_freeCtr (s : State) : (voidSink s).freeCtr = if s.sink.olen = 0 then s.freeCtr else s.freeCtr + 1 := rfl

/-! ### raiseCause -/

@[simp] theorem raiseCause_par (c : Cause) (s : State) : (raiseCause c s).par = s.par := rfl
@[simp] theorem raiseCause_status (c : Cause) (s : State) : (raiseCause c s).status = s.status.fail c := rfl
@[simp] theorem raiseCause_pad (c : Cause) (s : State) : (raiseCause c s).pad = s.pad := rfl
@[simp] theorem raiseCause_nent (c : Cause) (s : State) : (raiseCause c s).nent = s.nent := rfl
@[simp] theorem raiseCause_ft (c : Cause) (s : State) : (raiseCause c s).ft = s.ft := rfl
@[simp] theorem raiseCause_node (c : Cause) (s : State) : (raiseCause c s).node = s.node := rfl
@[simp] theorem raiseCause_nleaf (c : Cause) (s : State) : (raiseCause c s).nleaf = s.nleaf := rfl
@[simp] theorem raiseCause_live (c : Cause) (s : State) : (raiseCause c s).live = s.live := rfl
@[simp] theorem raiseCause_root (c : Cause) (s : State) : (raiseCause c s).root = s.root := rfl
@[simp] theorem raiseCause_ct (c : Cause) (s : State) : (raiseCause c s).ct = s.ct := rfl
@[simp] theorem raiseCause_cur (c : Cause) (s : State) : (raiseCause c s).cur = s.cur := rfl
@[simp] theorem raiseCause_acc (c : Cause) (s : State) : (raiseCause c s).acc = s.acc := rfl
@[simp] theorem raiseCause_nb (c : Cause) (s : State) : (raiseCause c s).nb = s.nb := rfl
@[simp] theorem raiseCause_hold (c : Cause) (s : State) : (raiseCause c s).hold = s.hold := rfl
@[simp] theorem raiseCause_hpos (c : Cause) (s : State) : (raiseCause c s).hpos = s.hpos := rfl
@[simp] theorem raiseCause_hsym (c : Cause) (s : State) : (raiseCause c s).hsym = s.hsym := rfl
@[simp] theorem raiseCause_hacc (c : Cause) (s : State) : (raiseCause c s).hacc = s.hacc := rfl
@[simp] theorem raiseCause_path (c : Cause) (s : State) : (raiseCause c s).path = s.path := rfl
@[simp] theorem raiseCause_stk (c : Cause) (s : State) : (raiseCause c s).stk = s.stk := rfl
@[simp] theorem raiseCause_op (c : Cause) (s : State) : (raiseCause c s).op = .unit := rfl
@[simp] theorem raiseCause_work (c : Cause) (s : State) : (raiseCause c s).work = .rest := rfl
@[simp] theorem raiseCause_inReset (c : Cause) (s : State) : (raiseCause c s).inReset = s.inReset := rfl
@[simp] theorem raiseCause_inq (c : Cause) (s : State) : (raiseCause c s).inq = s.inq := rfl
@[simp] theorem raiseCause_sink (c : Cause) (s : State) : (raiseCause c s).sink = s.sink.voidOutput s.freeCtr := rfl
@[simp] theorem raiseCause_host (c : Cause) (s : State) : (raiseCause c s).host = s.host := rfl
@[simp] theorem raiseCause_pace (c : Cause) (s : State) : (raiseCause c s).pace = s.pace := rfl
@[simp] theorem raiseCause_rdata (c : Cause) (s : State) : (raiseCause c s).rdata = s.rdata := rfl
@[simp] theorem raiseCause_freeCtr (c : Cause) (s : State) : (raiseCause c s).freeCtr = if s.sink.olen = 0 then s.freeCtr else s.freeCtr + 1 := rfl

/-! ### clearBlock -/

@[simp] theorem clearBlock_par (s : State) : (clearBlock s).par = s.par := rfl
@[simp] theorem clearBlock_status (s : State) : (clearBlock s).status = s.status.clearForOp := rfl
@[simp] theorem clearBlock_pad (s : State) : (clearBlock s).pad = 0 := rfl
@[simp] theorem clearBlock_nent (s : State) : (clearBlock s).nent = 0 := rfl
@[simp] theorem clearBlock_ft (s : State) : (clearBlock s).ft = emptyTable := rfl
@[simp] theorem clearBlock_node (s : State) : (clearBlock s).node = [] := rfl
@[simp] theorem clearBlock_nleaf (s : State) : (clearBlock s).nleaf = 0 := rfl
@[simp] theorem clearBlock_live (s : State) : (clearBlock s).live = 0 := rfl
@[simp] theorem clearBlock_root (s : State) : (clearBlock s).root = 0 := rfl
@[simp] theorem clearBlock_ct (s : State) : (clearBlock s).ct = emptyTable := rfl
@[simp] theorem clearBlock_cur (s : State) : (clearBlock s).cur = 0 := rfl
@[simp] theorem clearBlock_acc (s : State) : (clearBlock s).acc = 0 := rfl
@[simp] theorem clearBlock_nb (s : State) : (clearBlock s).nb = 0 := rfl
@[simp] theorem clearBlock_hold (s : State) : (clearBlock s).hold = none := rfl
@[simp] theorem clearBlock_hpos (s : State) : (clearBlock s).hpos = 0 := rfl
@[simp] theorem clearBlock_hsym (s : State) : (clearBlock s).hsym = 0 := rfl
@[simp] theorem clearBlock_hacc (s : State) : (clearBlock s).hacc = 0 := rfl
@[simp] theorem clearBlock_path (s : State) : (clearBlock s).path = [] := rfl
@[simp] theorem clearBlock_stk (s : State) : (clearBlock s).stk = [] := rfl
@[simp] theorem clearBlock_op (s : State) : (clearBlock s).op = s.op := rfl
@[simp] theorem clearBlock_work (s : State) : (clearBlock s).work = .rest := rfl
@[simp] theorem clearBlock_inReset (s : State) : (clearBlock s).inReset = s.inReset := rfl
@[simp] theorem clearBlock_inq (s : State) : (clearBlock s).inq = s.inq := rfl
@[simp] theorem clearBlock_sink (s : State) : (clearBlock s).sink = s.sink := rfl
@[simp] theorem clearBlock_host (s : State) : (clearBlock s).host = s.host := rfl
@[simp] theorem clearBlock_pace (s : State) : (clearBlock s).pace = s.pace := rfl
@[simp] theorem clearBlock_rdata (s : State) : (clearBlock s).rdata = s.rdata := rfl
@[simp] theorem clearBlock_freeCtr (s : State) : (clearBlock s).freeCtr = s.freeCtr := rfl

/-! ### startFreq -/

@[simp] theorem startFreq_par (s : State) : (startFreq s).par = s.par := rfl
@[simp] theorem startFreq_status (s : State) : (startFreq s).status = { s.status.clearAll with phase := .freq } := rfl
@[simp] theorem startFreq_pad (s : State) : (startFreq s).pad = s.pad := rfl
@[simp] theorem startFreq_nent (s : State) : (startFreq s).nent = s.nent := rfl
@[simp] theorem startFreq_ft (s : State) : (startFreq s).ft = emptyTable := rfl
@[simp] theorem startFreq_node (s : State) : (startFreq s).node = s.node := rfl
@[simp] theorem startFreq_nleaf (s : State) : (startFreq s).nleaf = s.nleaf := rfl
@[simp] theorem startFreq_live (s : State) : (startFreq s).live = s.live := rfl
@[simp] theorem startFreq_root (s : State) : (startFreq s).root = s.root := rfl
@[simp] theorem startFreq_ct (s : State) : (startFreq s).ct = s.ct := rfl
@[simp] theorem startFreq_cur (s : State) : (startFreq s).cur = s.cur := rfl
@[simp] theorem startFreq_acc (s : State) : (startFreq s).acc = s.acc := rfl
@[simp] theorem startFreq_nb (s : State) : (startFreq s).nb = s.nb := rfl
@[simp] theorem startFreq_hold (s : State) : (startFreq s).hold = s.hold := rfl
@[simp] theorem startFreq_hpos (s : State) : (startFreq s).hpos = s.hpos := rfl
@[simp] theorem startFreq_hsym (s : State) : (startFreq s).hsym = s.hsym := rfl
@[simp] theorem startFreq_hacc (s : State) : (startFreq s).hacc = s.hacc := rfl
@[simp] theorem startFreq_path (s : State) : (startFreq s).path = s.path := rfl
@[simp] theorem startFreq_stk (s : State) : (startFreq s).stk = s.stk := rfl
@[simp] theorem startFreq_op (s : State) : (startFreq s).op = s.op := rfl
@[simp] theorem startFreq_work (s : State) : (startFreq s).work = .freq := rfl
@[simp] theorem startFreq_inReset (s : State) : (startFreq s).inReset = s.inReset := rfl
@[simp] theorem startFreq_inq (s : State) : (startFreq s).inq = s.inq := rfl
@[simp] theorem startFreq_sink (s : State) : (startFreq s).sink = s.sink := rfl
@[simp] theorem startFreq_host (s : State) : (startFreq s).host = s.host := rfl
@[simp] theorem startFreq_pace (s : State) : (startFreq s).pace = s.pace := rfl
@[simp] theorem startFreq_rdata (s : State) : (startFreq s).rdata = s.rdata := rfl
@[simp] theorem startFreq_freeCtr (s : State) : (startFreq s).freeCtr = s.freeCtr := rfl

/-! ### startBuild -/

@[simp] theorem startBuild_par (s : State) : (startBuild s).par = s.par := rfl
@[simp] theorem startBuild_status (s : State) : (startBuild s).status = { s.status.clearTree with phase := .build } := rfl
@[simp] theorem startBuild_pad (s : State) : (startBuild s).pad = s.pad := rfl
@[simp] theorem startBuild_nent (s : State) : (startBuild s).nent = s.nent := rfl
@[simp] theorem startBuild_ft (s : State) : (startBuild s).ft = s.ft := rfl
@[simp] theorem startBuild_node (s : State) : (startBuild s).node = [] := rfl
@[simp] theorem startBuild_nleaf (s : State) : (startBuild s).nleaf = s.nleaf := rfl
@[simp] theorem startBuild_live (s : State) : (startBuild s).live = 0 := rfl
@[simp] theorem startBuild_root (s : State) : (startBuild s).root = s.root := rfl
@[simp] theorem startBuild_ct (s : State) : (startBuild s).ct = s.ct := rfl
@[simp] theorem startBuild_cur (s : State) : (startBuild s).cur = s.cur := rfl
@[simp] theorem startBuild_acc (s : State) : (startBuild s).acc = s.acc := rfl
@[simp] theorem startBuild_nb (s : State) : (startBuild s).nb = s.nb := rfl
@[simp] theorem startBuild_hold (s : State) : (startBuild s).hold = s.hold := rfl
@[simp] theorem startBuild_hpos (s : State) : (startBuild s).hpos = s.hpos := rfl
@[simp] theorem startBuild_hsym (s : State) : (startBuild s).hsym = s.hsym := rfl
@[simp] theorem startBuild_hacc (s : State) : (startBuild s).hacc = s.hacc := rfl
@[simp] theorem startBuild_path (s : State) : (startBuild s).path = s.path := rfl
@[simp] theorem startBuild_stk (s : State) : (startBuild s).stk = s.stk := rfl
@[simp] theorem startBuild_op (s : State) : (startBuild s).op = s.op := rfl
@[simp] theorem startBuild_work (s : State) : (startBuild s).work = .leaves (entriesOf s.ft) := rfl
@[simp] theorem startBuild_inReset (s : State) : (startBuild s).inReset = s.inReset := rfl
@[simp] theorem startBuild_inq (s : State) : (startBuild s).inq = s.inq := rfl
@[simp] theorem startBuild_sink (s : State) : (startBuild s).sink = s.sink := rfl
@[simp] theorem startBuild_host (s : State) : (startBuild s).host = s.host := rfl
@[simp] theorem startBuild_pace (s : State) : (startBuild s).pace = s.pace := rfl
@[simp] theorem startBuild_rdata (s : State) : (startBuild s).rdata = s.rdata := rfl
@[simp] theorem startBuild_freeCtr (s : State) : (startBuild s).freeCtr = s.freeCtr := rfl

/-! ### startAssign -/

@[simp] theorem startAssign_par (s : State) : (startAssign s).par = s.par := rfl
@[simp] theorem startAssign_status (s : State) : (startAssign s).status = { s.status.clearCode with phase := .assign } := rfl
@[simp] theorem startAssign_pad (s : State) : (startAssign s).pad = s.pad := rfl
@[simp] theorem startAssign_nent (s : State) : (startAssign s).nent = s.nent := rfl
@[simp] theorem startAssign_ft (s : State) : (startAssign s).ft = s.ft := rfl
@[simp] theorem startAssign_node (s : State) : (startAssign s).node = s.node := rfl
@[simp] theorem startAssign_nleaf (s : State) : (startAssign s).nleaf = s.nleaf := rfl
@[simp] theorem startAssign_live (s : State) : (startAssign s).live = s.live := rfl
@[simp] theorem startAssign_root (s : State) : (startAssign s).root = s.root := rfl
@[simp] theorem startAssign_ct (s : State) : (startAssign s).ct = emptyTable := rfl
@[simp] theorem startAssign_cur (s : State) : (startAssign s).cur = s.cur := rfl
@[simp] theorem startAssign_acc (s : State) : (startAssign s).acc = s.acc := rfl
@[simp] theorem startAssign_nb (s : State) : (startAssign s).nb = s.nb := rfl
@[simp] theorem startAssign_hold (s : State) : (startAssign s).hold = s.hold := rfl
@[simp] theorem startAssign_hpos (s : State) : (startAssign s).hpos = s.hpos := rfl
@[simp] theorem startAssign_hsym (s : State) : (startAssign s).hsym = s.hsym := rfl
@[simp] theorem startAssign_hacc (s : State) : (startAssign s).hacc = s.hacc := rfl
@[simp] theorem startAssign_path (s : State) : (startAssign s).path = [] := rfl
@[simp] theorem startAssign_stk (s : State) : (startAssign s).stk = [(s.root, true)] := rfl
@[simp] theorem startAssign_op (s : State) : (startAssign s).op = s.op := rfl
@[simp] theorem startAssign_work (s : State) : (startAssign s).work = .visit := rfl
@[simp] theorem startAssign_inReset (s : State) : (startAssign s).inReset = s.inReset := rfl
@[simp] theorem startAssign_inq (s : State) : (startAssign s).inq = s.inq := rfl
@[simp] theorem startAssign_sink (s : State) : (startAssign s).sink = s.sink := rfl
@[simp] theorem startAssign_host (s : State) : (startAssign s).host = s.host := rfl
@[simp] theorem startAssign_pace (s : State) : (startAssign s).pace = s.pace := rfl
@[simp] theorem startAssign_rdata (s : State) : (startAssign s).rdata = s.rdata := rfl
@[simp] theorem startAssign_freeCtr (s : State) : (startAssign s).freeCtr = s.freeCtr := rfl

/-! ### startPack -/

@[simp] theorem startPack_par (s : State) : (startPack s).par = s.par := rfl
@[simp] theorem startPack_status (s : State) : (startPack s).status = { s.status.clearHdr with phase := .packHdr } := rfl
@[simp] theorem startPack_pad (s : State) : (startPack s).pad = s.pad := rfl
@[simp] theorem startPack_nent (s : State) : (startPack s).nent = s.nent := rfl
@[simp] theorem startPack_ft (s : State) : (startPack s).ft = s.ft := rfl
@[simp] theorem startPack_node (s : State) : (startPack s).node = s.node := rfl
@[simp] theorem startPack_nleaf (s : State) : (startPack s).nleaf = s.nleaf := rfl
@[simp] theorem startPack_live (s : State) : (startPack s).live = s.live := rfl
@[simp] theorem startPack_root (s : State) : (startPack s).root = s.root := rfl
@[simp] theorem startPack_ct (s : State) : (startPack s).ct = s.ct := rfl
@[simp] theorem startPack_cur (s : State) : (startPack s).cur = s.cur := rfl
@[simp] theorem startPack_acc (s : State) : (startPack s).acc = s.acc := rfl
@[simp] theorem startPack_nb (s : State) : (startPack s).nb = s.nb := rfl
@[simp] theorem startPack_hold (s : State) : (startPack s).hold = s.hold := rfl
@[simp] theorem startPack_hpos (s : State) : (startPack s).hpos = s.hpos := rfl
@[simp] theorem startPack_hsym (s : State) : (startPack s).hsym = s.hsym := rfl
@[simp] theorem startPack_hacc (s : State) : (startPack s).hacc = s.hacc := rfl
@[simp] theorem startPack_path (s : State) : (startPack s).path = s.path := rfl
@[simp] theorem startPack_stk (s : State) : (startPack s).stk = s.stk := rfl
@[simp] theorem startPack_op (s : State) : (startPack s).op = s.op := rfl
@[simp] theorem startPack_work (s : State) : (startPack s).work = .packStart := rfl
@[simp] theorem startPack_inReset (s : State) : (startPack s).inReset = s.inReset := rfl
@[simp] theorem startPack_inq (s : State) : (startPack s).inq = s.inq := rfl
@[simp] theorem startPack_sink (s : State) : (startPack s).sink = s.sink := rfl
@[simp] theorem startPack_host (s : State) : (startPack s).host = s.host := rfl
@[simp] theorem startPack_pace (s : State) : (startPack s).pace = s.pace := rfl
@[simp] theorem startPack_rdata (s : State) : (startPack s).rdata = s.rdata := rfl
@[simp] theorem startPack_freeCtr (s : State) : (startPack s).freeCtr = s.freeCtr := rfl

/-! ### startHdr -/

@[simp] theorem startHdr_par (s : State) : (startHdr s).par = s.par := rfl
@[simp] theorem startHdr_status (s : State) : (startHdr s).status = { s.status.clearAll with phase := .hdr } := rfl
@[simp] theorem startHdr_pad (s : State) : (startHdr s).pad = s.pad := rfl
@[simp] theorem startHdr_nent (s : State) : (startHdr s).nent = s.nent := rfl
@[simp] theorem startHdr_ft (s : State) : (startHdr s).ft = emptyTable := rfl
@[simp] theorem startHdr_node (s : State) : (startHdr s).node = s.node := rfl
@[simp] theorem startHdr_nleaf (s : State) : (startHdr s).nleaf = s.nleaf := rfl
@[simp] theorem startHdr_live (s : State) : (startHdr s).live = s.live := rfl
@[simp] theorem startHdr_root (s : State) : (startHdr s).root = s.root := rfl
@[simp] theorem startHdr_ct (s : State) : (startHdr s).ct = s.ct := rfl
@[simp] theorem startHdr_cur (s : State) : (startHdr s).cur = s.cur := rfl
@[simp] theorem startHdr_acc (s : State) : (startHdr s).acc = s.acc := rfl
@[simp] theorem startHdr_nb (s : State) : (startHdr s).nb = s.nb := rfl
@[simp] theorem startHdr_hold (s : State) : (startHdr s).hold = s.hold := rfl
@[simp] theorem startHdr_hpos (s : State) : (startHdr s).hpos = 0 := rfl
@[simp] theorem startHdr_hsym (s : State) : (startHdr s).hsym = s.hsym := rfl
@[simp] theorem startHdr_hacc (s : State) : (startHdr s).hacc = s.hacc := rfl
@[simp] theorem startHdr_path (s : State) : (startHdr s).path = s.path := rfl
@[simp] theorem startHdr_stk (s : State) : (startHdr s).stk = s.stk := rfl
@[simp] theorem startHdr_op (s : State) : (startHdr s).op = s.op := rfl
@[simp] theorem startHdr_work (s : State) : (startHdr s).work = .hdr 0 := rfl
@[simp] theorem startHdr_inReset (s : State) : (startHdr s).inReset = s.inReset := rfl
@[simp] theorem startHdr_inq (s : State) : (startHdr s).inq = s.inq := rfl
@[simp] theorem startHdr_sink (s : State) : (startHdr s).sink = s.sink := rfl
@[simp] theorem startHdr_host (s : State) : (startHdr s).host = s.host := rfl
@[simp] theorem startHdr_pace (s : State) : (startHdr s).pace = s.pace := rfl
@[simp] theorem startHdr_rdata (s : State) : (startHdr s).rdata = s.rdata := rfl
@[simp] theorem startHdr_freeCtr (s : State) : (startHdr s).freeCtr = s.freeCtr := rfl

/-! ### startUnpack -/

@[simp] theorem startUnpack_par (s : State) : (startUnpack s).par = s.par := rfl
@[simp] theorem startUnpack_status (s : State) : (startUnpack s).status = { s.status with phase := .unpack } := rfl
@[simp] theorem startUnpack_pad (s : State) : (startUnpack s).pad = s.pad := rfl
@[simp] theorem startUnpack_nent (s : State) : (startUnpack s).nent = s.nent := rfl
@[simp] theorem startUnpack_ft (s : State) : (startUnpack s).ft = s.ft := rfl
@[simp] theorem startUnpack_node (s : State) : (startUnpack s).node = s.node := rfl
@[simp] theorem startUnpack_nleaf (s : State) : (startUnpack s).nleaf = s.nleaf := rfl
@[simp] theorem startUnpack_live (s : State) : (startUnpack s).live = s.live := rfl
@[simp] theorem startUnpack_root (s : State) : (startUnpack s).root = s.root := rfl
@[simp] theorem startUnpack_ct (s : State) : (startUnpack s).ct = s.ct := rfl
@[simp] theorem startUnpack_cur (s : State) : (startUnpack s).cur = s.root := rfl
@[simp] theorem startUnpack_acc (s : State) : (startUnpack s).acc = s.acc := rfl
@[simp] theorem startUnpack_nb (s : State) : (startUnpack s).nb = s.nb := rfl
@[simp] theorem startUnpack_hold (s : State) : (startUnpack s).hold = none := rfl
@[simp] theorem startUnpack_hpos (s : State) : (startUnpack s).hpos = s.hpos := rfl
@[simp] theorem startUnpack_hsym (s : State) : (startUnpack s).hsym = s.hsym := rfl
@[simp] theorem startUnpack_hacc (s : State) : (startUnpack s).hacc = s.hacc := rfl
@[simp] theorem startUnpack_path (s : State) : (startUnpack s).path = s.path := rfl
@[simp] theorem startUnpack_stk (s : State) : (startUnpack s).stk = s.stk := rfl
@[simp] theorem startUnpack_op (s : State) : (startUnpack s).op = s.op := rfl
@[simp] theorem startUnpack_work (s : State) : (startUnpack s).work = .pull := rfl
@[simp] theorem startUnpack_inReset (s : State) : (startUnpack s).inReset = s.inReset := rfl
@[simp] theorem startUnpack_inq (s : State) : (startUnpack s).inq = s.inq := rfl
@[simp] theorem startUnpack_sink (s : State) : (startUnpack s).sink = s.sink := rfl
@[simp] theorem startUnpack_host (s : State) : (startUnpack s).host = s.host := rfl
@[simp] theorem startUnpack_pace (s : State) : (startUnpack s).pace = s.pace := rfl
@[simp] theorem startUnpack_rdata (s : State) : (startUnpack s).rdata = s.rdata := rfl
@[simp] theorem startUnpack_freeCtr (s : State) : (startUnpack s).freeCtr = s.freeCtr := rfl

/-! ### startBody -/

@[simp] theorem startBody_par (s : State) : (startBody s).par = s.par := rfl
@[simp] theorem startBody_status (s : State) : (startBody s).status = { s.status with phase := .packBody } := rfl
@[simp] theorem startBody_pad (s : State) : (startBody s).pad = s.pad := rfl
@[simp] theorem startBody_nent (s : State) : (startBody s).nent = s.nent := rfl
@[simp] theorem startBody_ft (s : State) : (startBody s).ft = s.ft := rfl
@[simp] theorem startBody_node (s : State) : (startBody s).node = s.node := rfl
@[simp] theorem startBody_nleaf (s : State) : (startBody s).nleaf = s.nleaf := rfl
@[simp] theorem startBody_live (s : State) : (startBody s).live = s.live := rfl
@[simp] theorem startBody_root (s : State) : (startBody s).root = s.root := rfl
@[simp] theorem startBody_ct (s : State) : (startBody s).ct = s.ct := rfl
@[simp] theorem startBody_cur (s : State) : (startBody s).cur = s.cur := rfl
@[simp] theorem startBody_acc (s : State) : (startBody s).acc = 0 := rfl
@[simp] theorem startBody_nb (s : State) : (startBody s).nb = 0 := rfl
@[simp] theorem startBody_hold (s : State) : (startBody s).hold = s.hold := rfl
@[simp] theorem startBody_hpos (s : State) : (startBody s).hpos = s.hpos := rfl
@[simp] theorem startBody_hsym (s : State) : (startBody s).hsym = s.hsym := rfl
@[simp] theorem startBody_hacc (s : State) : (startBody s).hacc = s.hacc := rfl
@[simp] theorem startBody_path (s : State) : (startBody s).path = s.path := rfl
@[simp] theorem startBody_stk (s : State) : (startBody s).stk = s.stk := rfl
@[simp] theorem startBody_op (s : State) : (startBody s).op = s.op := rfl
@[simp] theorem startBody_work (s : State) : (startBody s).work = .packPull := rfl
@[simp] theorem startBody_inReset (s : State) : (startBody s).inReset = s.inReset := rfl
@[simp] theorem startBody_inq (s : State) : (startBody s).inq = s.inq := rfl
@[simp] theorem startBody_sink (s : State) : (startBody s).sink = s.sink := rfl
@[simp] theorem startBody_host (s : State) : (startBody s).host = s.host := rfl
@[simp] theorem startBody_pace (s : State) : (startBody s).pace = s.pace := rfl
@[simp] theorem startBody_rdata (s : State) : (startBody s).rdata = s.rdata := rfl
@[simp] theorem startBody_freeCtr (s : State) : (startBody s).freeCtr = s.freeCtr := rfl

/-! ### addNode -/

@[simp] theorem addNode_par (n : Node) (s : State) : (addNode n s).par = s.par := rfl
@[simp] theorem addNode_status (n : Node) (s : State) : (addNode n s).status = s.status := rfl
@[simp] theorem addNode_pad (n : Node) (s : State) : (addNode n s).pad = s.pad := rfl
@[simp] theorem addNode_nent (n : Node) (s : State) : (addNode n s).nent = s.nent := rfl
@[simp] theorem addNode_ft (n : Node) (s : State) : (addNode n s).ft = s.ft := rfl
@[simp] theorem addNode_node (n : Node) (s : State) : (addNode n s).node = s.node ++ [n] := rfl
@[simp] theorem addNode_nleaf (n : Node) (s : State) : (addNode n s).nleaf = s.nleaf := rfl
@[simp] theorem addNode_live (n : Node) (s : State) : (addNode n s).live = setLive s.live s.node.length := rfl
@[simp] theorem addNode_root (n : Node) (s : State) : (addNode n s).root = s.root := rfl
@[simp] theorem addNode_ct (n : Node) (s : State) : (addNode n s).ct = s.ct := rfl
@[simp] theorem addNode_cur (n : Node) (s : State) : (addNode n s).cur = s.cur := rfl
@[simp] theorem addNode_acc (n : Node) (s : State) : (addNode n s).acc = s.acc := rfl
@[simp] theorem addNode_nb (n : Node) (s : State) : (addNode n s).nb = s.nb := rfl
@[simp] theorem addNode_hold (n : Node) (s : State) : (addNode n s).hold = s.hold := rfl
@[simp] theorem addNode_hpos (n : Node) (s : State) : (addNode n s).hpos = s.hpos := rfl
@[simp] theorem addNode_hsym (n : Node) (s : State) : (addNode n s).hsym = s.hsym := rfl
@[simp] theorem addNode_hacc (n : Node) (s : State) : (addNode n s).hacc = s.hacc := rfl
@[simp] theorem addNode_path (n : Node) (s : State) : (addNode n s).path = s.path := rfl
@[simp] theorem addNode_stk (n : Node) (s : State) : (addNode n s).stk = s.stk := rfl
@[simp] theorem addNode_op (n : Node) (s : State) : (addNode n s).op = s.op := rfl
@[simp] theorem addNode_work (n : Node) (s : State) : (addNode n s).work = s.work := rfl
@[simp] theorem addNode_inReset (n : Node) (s : State) : (addNode n s).inReset = s.inReset := rfl
@[simp] theorem addNode_inq (n : Node) (s : State) : (addNode n s).inq = s.inq := rfl
@[simp] theorem addNode_sink (n : Node) (s : State) : (addNode n s).sink = s.sink := rfl
@[simp] theorem addNode_host (n : Node) (s : State) : (addNode n s).host = s.host := rfl
@[simp] theorem addNode_pace (n : Node) (s : State) : (addNode n s).pace = s.pace := rfl
@[simp] theorem addNode_rdata (n : Node) (s : State) : (addNode n s).rdata = s.rdata := rfl
@[simp] theorem addNode_freeCtr (n : Node) (s : State) : (addNode n s).freeCtr = s.freeCtr := rfl

/-! ### The sink's updates -/

@[simp] theorem Sink.rebase_mem (k : Sink) : k.rebase.mem = k.mem := rfl
@[simp] theorem Sink.rebase_base (k : Sink) : k.rebase.base = k.base + k.olen := rfl
@[simp] theorem Sink.rebase_olen (k : Sink) : k.rebase.olen = 0 := rfl
@[simp] theorem Sink.rebase_ready (k : Sink) : k.rebase.ready = k.ready := rfl
@[simp] theorem Sink.rebase_fails (k : Sink) : k.rebase.fails = k.fails := rfl
@[simp] theorem Sink.rebase_voids (k : Sink) : k.rebase.voids = k.voids := rfl

theorem Sink.voidOutput_of_olen_zero (k : Sink) (n : Nat) (h : k.olen = 0) : k.voidOutput n = k := by
  simp [Sink.voidOutput, h]
@[simp] theorem Sink.voidOutput_mem (k : Sink) (n : Nat) : (k.voidOutput n).mem = k.mem := by
  unfold Sink.voidOutput; split <;> rfl
@[simp] theorem Sink.voidOutput_base (k : Sink) (n : Nat) : (k.voidOutput n).base = k.base := by
  unfold Sink.voidOutput; split <;> rfl
@[simp] theorem Sink.voidOutput_olen (k : Sink) (n : Nat) : (k.voidOutput n).olen = k.olen := by
  unfold Sink.voidOutput; split <;> rfl
@[simp] theorem Sink.voidOutput_ready (k : Sink) (n : Nat) : (k.voidOutput n).ready = k.ready := by
  unfold Sink.voidOutput; split <;> rfl
@[simp] theorem Sink.voidOutput_fails (k : Sink) (n : Nat) : (k.voidOutput n).fails = k.fails := by
  unfold Sink.voidOutput; split <;> rfl

end Sys2Proof.Machine
end

