-- ==== Sys2Proof/Laws/Run.lean ====
section
/-! SUPPORT. Laws of the sequencer's runs: several steps one after another, a property every step keeps, what a command
comes to. -/

namespace Sys2Proof.Machine

/-- `n` steps of the sequencer lead from one state to another. -/
inductive Run : Nat → State → State → Prop where
  | refl (s : State) : Run 0 s s
  | cons {n : Nat} {s t u : State} (h : tick s = .next t) (r : Run n t u) : Run (n + 1) s u

theorem Run.one {s t : State} (h : tick s = .next t) : Run 1 s t := .cons h (.refl t)

theorem Run.trans {m n : Nat} {s t u : State} (a : Run m s t) (b : Run n t u) : Run (m + n) s u := by
  induction a with
  | refl => simpa using b
  | cons h _ ih => rw [Nat.add_right_comm]; exact .cons h (ih b)

theorem Run.snoc {n : Nat} {s t u : State} (a : Run n s t) (h : tick t = .next u) : Run (n + 1) s u :=
  a.trans (.one h)

theorem drive_succ {n : Nat} {s t : State} (h : tick s = .next t) : drive (n + 1) s = drive n t := by
  simp [drive, h]

theorem drive_wait {s : State} (h : tick s = .wait) (n : Nat) : drive n s = .next s := by
  cases n <;> simp [drive, h]

theorem drive_of_run {k : Nat} {s t : State} (r : Run k s t) (n : Nat) : drive (k + n) s = drive n t := by
  induction r with
  | refl => simp
  | cons h _ ih => rw [Nat.add_right_comm, drive_succ h, ih]

/-- A run that ends where the sequencer has no step is the whole turn, if the turn is long enough. -/
theorem drive_of_run_wait {k n : Nat} {s t : State} (r : Run k s t) (h : tick t = .wait) (hk : k ≤ n) :
    drive n s = .next t := by
  obtain ⟨m, rfl⟩ := Nat.exists_eq_add_of_le hk
  rw [drive_of_run r, drive_wait h]

theorem tick_idle {s : State} (h : s.status.busy = false) : tick s = .wait := by simp [tick, h]

theorem turn_of_run {k : Nat} {s t : State} (hp : s.pace = none) (r : Run k s t) (h : t.status.busy = false)
    (hk : k ≤ stepBound s) : turn s = .next t := by
  unfold turn budget
  rw [hp]
  exact drive_of_run_wait r (tick_idle h) hk

/-- A property every step keeps is kept by a turn. -/
theorem drive_keeps {P : State → Prop} (hP : ∀ s t, P s → tick s = .next t → P t) {n : Nat} {s t : State}
    (hs : P s) (h : drive n s = .next t) : P t := by
  induction n generalizing s with
  | zero => simp only [drive, Host.Outcome.next.injEq] at h; exact h ▸ hs
  | succ n ih =>
    cases ht : tick s with
    | wait => simp only [drive, ht, Host.Outcome.next.injEq] at h; exact h ▸ hs
    | next u => rw [drive_succ ht] at h; exact ih (hP s u hs ht) h
    | fault f => simp [drive, ht] at h

theorem turn_keeps {P : State → Prop} (hP : ∀ s t, P s → tick s = .next t → P t) {s t : State} (hs : P s)
    (h : turn s = .next t) : P t := drive_keeps hP hs h

/-- A turn goes on if no step it takes meets a fault. -/
theorem drive_goes_on {P : State → Prop} (hP : ∀ s t, P s → tick s = .next t → P t)
    (hF : ∀ s f, P s → tick s ≠ .fault f) (n : Nat) {s : State} (hs : P s) : ∃ t, drive n s = .next t := by
  induction n generalizing s with
  | zero => exact ⟨s, rfl⟩
  | succ n ih =>
    cases ht : tick s with
    | wait => exact ⟨s, by simp [drive, ht]⟩
    | next u => rw [drive_succ ht]; exact ih (hP s u hs ht)
    | fault f => exact absurd ht (hF s f hs)

theorem takesCommand_iff {s : State} : takesCommand s = true ↔ s.status.busy = false ∧ s.inReset = false := by
  simp [takesCommand]

/-- What a command comes to: discarded, refused for its precondition, or the operation's turn. -/
theorem issue_cases (op : Op) (ready : Status → Bool) (start : State → State) (s : State) :
    (takesCommand s = false ∧ issue op ready start s = .next s) ∨
      (takesCommand s = true ∧ ready s.status.start = false ∧
        issue op ready start s = .next (raiseCause .precond (startOp s op))) ∨
      (takesCommand s = true ∧ ready s.status.start = true ∧
        issue op ready start s = turn (start (startOp s op))) := by
  unfold issue
  cases hb : takesCommand s
  · simp
  · cases hr : ready s.status.start <;> simp [hr]

theorem issue_run {op : Op} {ready : Status → Bool} {start : State → State} {s : State}
    (hb : s.status.busy = false ∧ s.inReset = false) (hr : ready s.status.start = true) :
    issue op ready start s = turn (start (startOp s op)) := by
  simp [issue, takesCommand_iff.2 hb, hr]

/-- What a step that writes to the sink comes to. -/
theorem writeStep_cases (s : State) (off : Nat) (b : Byte) (good bad : State) :
    (s.sink.ready = false ∧ writeStep s off b good bad = .wait) ∨
      (∃ r, s.sink.fails = true :: r ∧ writeStep s off b good bad =
        .next (raiseCause .sinkErr { bad with sink := { s.sink with fails := r } })) ∨
      (s.sink.ready = true ∧ writeStep s off b good bad =
        .next { good with sink := { s.sink with fails := s.sink.fails.tail }.store off b }) := by
  rcases s.sink.put_cases off b with ⟨h, e⟩ | ⟨r, _, h2, e⟩ | ⟨h, _, e⟩
  · exact .inl ⟨h, by simp [writeStep, e]⟩
  · exact .inr (.inl ⟨r, h2, by simp [writeStep, e]⟩)
  · exact .inr (.inr ⟨h, by simp [writeStep, e]⟩)

theorem writeStep_good {s : State} (hr : s.sink.ready = true) (hf : s.sink.fails = []) (off : Nat) (b : Byte)
    (good bad : State) : writeStep s off b good bad = .next { good with sink := s.sink.store off b } := by
  simp [writeStep, Sink.put_good hr hf]

end Sys2Proof.Machine
end

