-- ==== Sys2Proof/Laws/Table.lean ====
section
/-! SUPPORT. Laws of tables indexed by symbol: an entry after a write, the entries in ascending order. -/

namespace Sys2Proof.Machine

@[simp] theorem tableGet_emptyTable {α : Type} (s : Byte) : tableGet (emptyTable : Table α) s = none := by
  simp [tableGet, emptyTable]

@[simp] theorem tableGet_tableSet_same {α : Type} (t : Table α) (s : Byte) (x : α) :
    tableGet (tableSet t s x) s = some x := by
  simp [tableGet, tableSet]

theorem tableGet_tableSet_ne {α : Type} (t : Table α) {s u : Byte} (x : α) (h : s ≠ u) :
    tableGet (tableSet t s x) u = tableGet t u := by
  have : s.toNat ≠ u.toNat := fun e => h (BitVec.eq_of_toNat_eq e)
  simp [tableGet, tableSet, this]

theorem tableGet_tableSet {α : Type} (t : Table α) (s u : Byte) (x : α) :
    tableGet (tableSet t s x) u = if s = u then some x else tableGet t u := by
  split
  · next h => subst h; simp
  · next h => exact tableGet_tableSet_ne t x h

@[simp] theorem tableGet_tableOf {α : Type} (f : Byte → Option α) (s : Byte) : tableGet (tableOf f) s = f s := by
  simp [tableGet, tableOf]

/-- Two tables with the same entries are the same table. -/
theorem table_ext {α : Type} {t u : Table α} (h : ∀ s, tableGet t s = tableGet u s) : t = u := by
  apply Vector.ext
  intro i hi
  have := h (BitVec.ofNat 8 i)
  simpa [tableGet, Nat.mod_eq_of_lt hi] using this

theorem tableSet_tableSet_same {α : Type} (t : Table α) (s : Byte) (x y : α) :
    tableSet (tableSet t s x) s y = tableSet t s y := by
  apply table_ext
  intro u
  simp only [tableGet_tableSet]
  split <;> rfl

@[simp] theorem length_allBytes : allBytes.length = 256 := by simp [allBytes]

@[simp] theorem mem_allBytes (s : Byte) : s ∈ allBytes := by
  simp only [allBytes, List.mem_map, List.mem_range]
  exact ⟨s.toNat, s.isLt, by simp⟩

theorem nodup_allBytes : allBytes.Nodup := by
  unfold allBytes
  refine List.Nodup.map_on ?_ List.nodup_range
  intro a ha b hb h
  have := congrArg BitVec.toNat h
  simp only [List.mem_range] at ha hb
  simpa [Nat.mod_eq_of_lt ha, Nat.mod_eq_of_lt hb] using this

/-- The entries read through `tableGet`. -/
theorem entriesOf_eq {α : Type} (t : Table α) :
    entriesOf t = allBytes.filterMap fun s => (tableGet t s).map fun x => (s, x) := by
  have h : allBytes.zip t.toList = allBytes.map fun s => (s, tableGet t s) := by
    apply List.ext_getElem
    · simp
    · intro i h1 h2
      simp only [List.length_zip, length_allBytes, Vector.length_toList, Nat.min_self] at h1
      simp [allBytes, tableGet, Nat.mod_eq_of_lt h1]
  unfold entriesOf
  rw [h, List.filterMap_map]
  rfl

theorem mem_entriesOf {α : Type} {t : Table α} {p : Byte × α} : p ∈ entriesOf t ↔ tableGet t p.1 = some p.2 := by
  rw [entriesOf_eq]
  simp only [List.mem_filterMap, mem_allBytes, true_and, Option.map_eq_some_iff]
  constructor
  · rintro ⟨s, x, hx, rfl⟩; exact hx
  · intro h; exact ⟨p.1, p.2, h, rfl⟩

/-- The keys of the entries, in ascending order. -/
theorem keys_entriesOf {α : Type} (t : Table α) :
    (entriesOf t).map Prod.fst = allBytes.filter fun s => (tableGet t s).isSome := by
  rw [entriesOf_eq]
  generalize allBytes = l
  induction l with
  | nil => rfl
  | cons a l ih => cases h : tableGet t a <;> simp [h, ih]

theorem nodup_keys {α : Type} (t : Table α) : ((entriesOf t).map Prod.fst).Nodup := by
  rw [keys_entriesOf]
  exact nodup_allBytes.filter _

theorem nodup_entriesOf {α : Type} (t : Table α) : (entriesOf t).Nodup := (nodup_keys t).of_map _

theorem length_entriesOf_le {α : Type} (t : Table α) : (entriesOf t).length ≤ 256 := by
  have h : ((entriesOf t).map Prod.fst).length ≤ allBytes.length := by
    rw [keys_entriesOf]; exact List.length_filter_le _ _
  simpa using h

theorem keyCount_le {α : Type} (t : Table α) : keyCount t ≤ 256 := length_entriesOf_le t

@[simp] theorem entriesOf_emptyTable {α : Type} : entriesOf (emptyTable : Table α) = [] := by
  simp [entriesOf_eq]

/-- The entries determine the table. -/
theorem entriesOf_injective {α : Type} {t u : Table α} (h : entriesOf t = entriesOf u) : t = u := by
  apply table_ext
  intro s
  cases ht : tableGet t s with
  | some x =>
    have : (s, x) ∈ entriesOf u := h ▸ mem_entriesOf.2 ht
    exact (mem_entriesOf.1 this).symm
  | none =>
    cases hu : tableGet u s with
    | none => rfl
    | some x =>
      have : (s, x) ∈ entriesOf t := h ▸ mem_entriesOf.2 hu
      rw [mem_entriesOf.1 this] at ht
      cases ht

end Sys2Proof.Machine
end

