-- ==== Sys2Proof/Laws/Build.lean ====
section
/-! SUPPORT. BUILD: the live nodes under a removal and an addition, the least of them, the arena as a forest in the
order of a stable insertion-order multiset (spec/41_tree_builder.md R91), and the run over a whole table. -/

namespace Sys2Proof.Machine

/-! ### Live nodes -/

@[simp] theorem getLsbD_setLive (live : BitVec 511) {i : Nat} (hi : i < 511) (j : Nat) :
    (setLive live i).getLsbD j = (live.getLsbD j || decide (i = j)) := by
  simp [setLive, BitVec.getLsbD_twoPow, hi]

theorem getLsbD_clearLive (live : BitVec 511) {j : Nat} (i : Nat) (hj : j < 511) :
    (clearLive live i).getLsbD j = (live.getLsbD j && !decide (i = j)) := by
  by_cases hij : i = j
  · subst hij; simp [clearLive, hj]
  · simp [clearLive, hj, hij, Ne.symm hij]

theorem getLsbD_clearLive_of_ge (live : BitVec 511) {j : Nat} (i : Nat) (h : live.getLsbD j = false) :
    (clearLive live i).getLsbD j = false := by
  simp [clearLive, h]

theorem mem_liveNodes {ns : List Node} {live : BitVec 511} {i : Nat} :
    i ∈ liveNodes ns live ↔ i < ns.length ∧ live.getLsbD i = true := by
  simp [liveNodes]

theorem nodup_liveNodes (ns : List Node) (live : BitVec 511) : (liveNodes ns live).Nodup :=
  List.nodup_range.filter _

theorem length_liveNodes_le (ns : List Node) (live : BitVec 511) : (liveNodes ns live).length ≤ ns.length := by
  simpa [liveNodes] using List.length_filter_le (fun i => live.getLsbD i) (List.range ns.length)

/-- A removed node is no longer live; the others stay. -/
theorem liveNodes_clearLive {ns : List Node} (h : ns.length ≤ 511) (live : BitVec 511) (a : Nat) :
    liveNodes ns (clearLive live a) = (liveNodes ns live).filter fun i => decide (i ≠ a) := by
  unfold liveNodes
  rw [List.filter_filter]
  apply List.filter_congr
  intro i hi
  rw [List.mem_range] at hi
  rw [getLsbD_clearLive live a (by omega)]
  by_cases hia : a = i
  · subst hia; simp
  · simp [hia, Ne.symm hia]

theorem liveNodes_clearLive_perm {ns : List Node} (h : ns.length ≤ 511) {live : BitVec 511} {a : Nat} {q : List Nat}
    (p : (liveNodes ns live).Perm (a :: q)) : (liveNodes ns (clearLive live a)).Perm q := by
  have hn : (a :: q).Nodup := p.nodup_iff.1 (nodup_liveNodes ns live)
  rw [liveNodes_clearLive h]
  refine (p.filter _).trans ?_
  rw [List.filter_cons_of_neg (by simp)]
  rw [List.filter_eq_self.2]
  intro x hx
  have : x ≠ a := fun e => (List.nodup_cons.1 hn).1 (e ▸ hx)
  simpa using this

/-- A new node is live, behind the others. -/
theorem liveNodes_add {ns : List Node} (h : ns.length < 511) (live : BitVec 511) (n : Node) :
    liveNodes (ns ++ [n]) (setLive live ns.length) = liveNodes ns live ++ [ns.length] := by
  unfold liveNodes
  rw [List.length_append, List.length_singleton, List.range_succ, List.filter_append]
  congr 1
  · apply List.filter_congr
    intro i hi
    rw [List.mem_range] at hi
    rw [getLsbD_setLive live h]
    have : ns.length ≠ i := by omega
    simp [this]
  · rw [List.filter_cons_of_pos, List.filter_nil]
    rw [getLsbD_setLive live h]
    simp

/-! ### The order of the multiset -/

theorem lighter_iff (ns : List Node) (i j : Nat) :
    lighter ns i j = true ↔ (weightAt ns i).toNat < (weightAt ns j).toNat ∨
      ((weightAt ns i).toNat = (weightAt ns j).toNat ∧ i < j) := by
  simp [lighter]

theorem lighter_trans {ns : List Node} {i j k : Nat} (h1 : lighter ns i j = true) (h2 : lighter ns j k = true) :
    lighter ns i k = true := by
  rw [lighter_iff] at *; omega

theorem lighter_asymm {ns : List Node} {i j : Nat} (h : lighter ns i j = true) : lighter ns j i = false := by
  rw [Bool.eq_false_iff]; intro h'; rw [lighter_iff] at *; omega

theorem lighter_total {ns : List Node} {i j : Nat} (h : i ≠ j) : lighter ns i j = true ∨ lighter ns j i = true := by
  simp only [lighter_iff]; omega

/-- `argmin` answers a least element. -/
theorem argmin_spec (ns : List Node) {l : List Nat} (h : l ≠ []) :
    ∃ a, argmin ns l = some a ∧ a ∈ l ∧ ∀ b ∈ l, lighter ns b a = false := by
  induction l with
  | nil => exact absurd rfl h
  | cons i r ih =>
    by_cases hr : r = []
    · subst hr
      refine ⟨i, rfl, by simp, ?_⟩
      intro b hb
      rw [List.mem_singleton] at hb
      subst hb
      rw [Bool.eq_false_iff]; intro hl; rw [lighter_iff] at hl; omega
    · obtain ⟨j, hj, hm, hmin⟩ := ih hr
      by_cases hl : lighter ns i j = true
      · refine ⟨i, by simp [argmin, hj, hl], by simp, ?_⟩
        intro b hb
        rcases List.mem_cons.1 hb with rfl | hb
        · rw [Bool.eq_false_iff]; intro hl'; rw [lighter_iff] at hl'; omega
        · have := hmin b hb
          rw [Bool.eq_false_iff] at this ⊢
          intro hbi
          exact this (lighter_trans hbi hl)
      · refine ⟨j, by simp [argmin, hj, hl], by simp [hm], ?_⟩
        intro b hb
        rcases List.mem_cons.1 hb with rfl | hb
        · simpa using hl
        · exact hmin b hb

/-- The least of a list is the head of any sorted rearrangement of it. -/
theorem argmin_sorted {ns : List Node} {l q : List Nat} {a : Nat} (p : l.Perm (a :: q))
    (hs : (a :: q).Pairwise fun i j => lighter ns i j = true) : argmin ns l = some a := by
  have hne : l ≠ [] := by rintro rfl; exact absurd p.length_eq (by simp)
  obtain ⟨b, hb, hm, hmin⟩ := argmin_spec ns hne
  rw [hb]
  have hbq : b ∈ a :: q := p.mem_iff.1 hm
  rcases List.mem_cons.1 hbq with rfl | hbq
  · rfl
  · have h1 := (List.pairwise_cons.1 hs).1 b hbq
    have h2 := hmin a (p.mem_iff.2 (by simp))
    rw [h1] at h2
    cases h2

/-! ### The arena only grows -/

theorem IsTree.mono {ns : List Node} {i : Nat} {t : HTree} (h : IsTree ns i t) (n : Node) :
    IsTree (ns ++ [n]) i t := by
  have key : ∀ {j : Nat} {x : Node}, ns[j]? = some x → (ns ++ [n])[j]? = some x := by
    intro j x hj
    have hlt : j < ns.length := by
      by_contra hge
      rw [List.getElem?_eq_none (by omega)] at hj
      cases hj
    rw [List.getElem?_append_left hlt, hj]
  induction h with
  | leaf h => exact .leaf (key h)
  | node h _ _ ihl ihr => exact .node (key h) ihl ihr

theorem IsTree.lt {ns : List Node} {i : Nat} {t : HTree} (h : IsTree ns i t) : i < ns.length := by
  by_contra hge
  cases h with
  | leaf h => rw [List.getElem?_eq_none (by omega)] at h; cases h
  | node h _ _ => rw [List.getElem?_eq_none (by omega)] at h; cases h

theorem IsTree.weightAt {ns : List Node} {i : Nat} {t : HTree} (h : IsTree ns i t) : weightAt ns i = t.weight := by
  cases h with
  | leaf h => simp [Machine.weightAt, h, Node.weight, HTree.weight]
  | node h _ _ => simp [Machine.weightAt, h, Node.weight, HTree.weight]

/-- A node is the root of at most one tree. -/
theorem IsTree.unique {ns : List Node} {i : Nat} {t u : HTree} (h : IsTree ns i t) (h' : IsTree ns i u) : t = u := by
  induction h generalizing u with
  | leaf h =>
    cases h' with
    | leaf h2 => rw [h] at h2; cases h2; rfl
    | node h2 _ _ => rw [h] at h2; cases h2
  | node h _ _ ihl ihr =>
    cases h' with
    | leaf h2 => rw [h] at h2; cases h2
    | node h2 hl hr => rw [h] at h2; cases h2; rw [ihl hl, ihr hr]

theorem weightAt_append {ns : List Node} {i : Nat} (h : i < ns.length) (n : Node) :
    weightAt (ns ++ [n]) i = weightAt ns i := by
  simp [weightAt, List.getElem?_append_left h]

theorem lighter_append {ns : List Node} {i j : Nat} (hi : i < ns.length) (hj : j < ns.length) (n : Node) :
    lighter (ns ++ [n]) i j = lighter ns i j := by
  simp [lighter, weightAt_append hi, weightAt_append hj]

/-! ### The arena as a forest -/

/-- The live nodes, in the order of the multiset, are the roots of the trees of a forest. -/
structure Forest (ns : List Node) (live : BitVec 511) (q : List Nat) (f : List HTree) : Prop where
  perm : (liveNodes ns live).Perm q
  sorted : q.Pairwise fun i j => lighter ns i j = true
  trees : List.Forall₂ (IsTree ns) q f
  high : ∀ i, ns.length ≤ i → live.getLsbD i = false

theorem Forest.lt {ns : List Node} {live : BitVec 511} {q : List Nat} {f : List HTree} (h : Forest ns live q f)
    {i : Nat} (hi : i ∈ q) : i < ns.length := (mem_liveNodes.1 (h.perm.mem_iff.2 hi)).1

theorem Forest.length_eq {ns : List Node} {live : BitVec 511} {q : List Nat} {f : List HTree}
    (h : Forest ns live q f) : q.length = f.length := h.trees.length_eq

/-- Insertion of the newest index in the order of the multiset. -/
def insertIdx (ns : List Node) (i : Nat) : List Nat → List Nat
  | [] => [i]
  | j :: r => if (weightAt ns i).toNat < (weightAt ns j).toNat then i :: j :: r else j :: insertIdx ns i r

theorem insertIdx_perm (ns : List Node) (i : Nat) (q : List Nat) : (insertIdx ns i q).Perm (i :: q) := by
  induction q with
  | nil => exact .refl _
  | cons j r ih =>
    unfold insertIdx
    split
    · exact .refl _
    · exact (ih.cons j).trans (.swap i j r)

theorem insertIdx_sorted {ns : List Node} {i : Nat} {q : List Nat}
    (hs : q.Pairwise fun a b => lighter ns a b = true) (hlt : ∀ j ∈ q, j < i) :
    (insertIdx ns i q).Pairwise fun a b => lighter ns a b = true := by
  induction q with
  | nil => simp [insertIdx]
  | cons j r ih =>
    obtain ⟨h1, h2⟩ := List.pairwise_cons.1 hs
    unfold insertIdx
    split
    · next hw =>
      have hij : lighter ns i j = true := (lighter_iff ns i j).2 (.inl hw)
      refine List.pairwise_cons.2 ⟨?_, hs⟩
      intro b hb
      rcases List.mem_cons.1 hb with rfl | hb
      · exact hij
      · exact lighter_trans hij (h1 b hb)
    · next hw =>
      refine List.pairwise_cons.2 ⟨?_, ih h2 fun k hk => hlt k (by simp [hk])⟩
      intro b hb
      rcases List.mem_cons.1 ((insertIdx_perm ns i r).mem_iff.1 hb) with rfl | hb
      · have := hlt j (by simp)
        rw [lighter_iff]; omega
      · exact h1 b hb

theorem insertIdx_trees {ns : List Node} {i : Nat} {t : HTree} {q : List Nat} {f : List HTree} (ht : IsTree ns i t)
    (h : List.Forall₂ (IsTree ns) q f) : List.Forall₂ (IsTree ns) (insertIdx ns i q) (insertTree t f) := by
  induction h with
  | nil => exact .cons ht .nil
  | cons hj hr ih =>
    unfold insertIdx insertTree
    rw [ht.weightAt, hj.weightAt]
    split
    · exact .cons ht (.cons hj hr)
    · exact .cons hj ih

/-- A new node becomes a tree of the forest, inserted behind those of the same weight. -/
theorem Forest.add {ns : List Node} {live : BitVec 511} {q : List Nat} {f : List HTree} (h : Forest ns live q f)
    (hlen : ns.length < 511) {n : Node} {t : HTree} (ht : IsTree (ns ++ [n]) ns.length t) :
    Forest (ns ++ [n]) (setLive live ns.length) (insertIdx (ns ++ [n]) ns.length q) (insertTree t f) := by
  refine ⟨?_, ?_, ?_, ?_⟩
  · rw [liveNodes_add hlen]
    refine (List.perm_append_comm).trans ?_
    exact (h.perm.cons _).trans (insertIdx_perm _ _ _).symm
  · refine insertIdx_sorted ?_ fun j hj => h.lt hj
    refine h.sorted.imp_of_mem ?_
    intro a b ha hb hab
    rw [lighter_append (h.lt ha) (h.lt hb), hab]
  · exact insertIdx_trees ht (h.trees.imp fun _ _ hx => hx.mono n)
  · intro i hi
    rw [List.length_append, List.length_singleton] at hi
    rw [getLsbD_setLive live hlen, h.high i (by omega)]
    have : ns.length ≠ i := by omega
    simp [this]

/-! ### The children -/

/-- Every node of the arena but the live ones is the child of exactly one node, and children come first (41 R95,
R99). -/
structure Parents (ns : List Node) (q : List Nat) : Prop where
  once : (childList ns ++ q).Perm (List.range ns.length)
  order : ∀ (i : Nat) (w : Count) (l r : Idx), ns[i]? = some (.internal w l r) → l.toNat < i ∧ r.toNat < i

theorem childList_append (ns : List Node) (n : Node) : childList (ns ++ [n]) = childList ns ++ n.children := by
  simp [childList]

/-- A node added whose children were live. -/
theorem Parents.add {ns : List Node} {q q' : List Nat} {n : Node} (h : Parents ns (n.children ++ q))
    (hn : ∀ c ∈ n.children, c < ns.length) (hq : q'.Perm (ns.length :: q)) : Parents (ns ++ [n]) q' := by
  refine ⟨?_, ?_⟩
  · rw [childList_append, List.length_append, List.length_singleton, List.range_succ, List.append_assoc]
    have h1 : (childList ns ++ (n.children ++ q')).Perm (childList ns ++ (n.children ++ (ns.length :: q))) :=
      List.Perm.append_left _ (List.Perm.append_left _ hq)
    refine h1.trans ?_
    have h2 : (childList ns ++ (n.children ++ (ns.length :: q))).Perm
        (ns.length :: (childList ns ++ (n.children ++ q))) := by
      rw [← List.append_assoc, ← List.append_assoc]
      exact List.perm_middle
    refine h2.trans ?_
    refine (h.once.cons _).trans ?_
    exact (List.perm_append_comm (l₁ := [ns.length]) (l₂ := List.range ns.length))
  · intro i w l r hi
    by_cases hlt : i < ns.length
    · rw [List.getElem?_append_left hlt] at hi
      exact h.order i w l r hi
    · rw [List.getElem?_append_right (by omega)] at hi
      have h0 : i - ns.length = 0 := by
        by_contra hne
        rw [List.getElem?_eq_none (by simp only [List.length_singleton]; omega)] at hi
        cases hi
      rw [h0] at hi
      simp only [List.getElem?_cons_zero, Option.some.injEq] at hi
      subst hi
      have hl := hn l.toNat (by simp [Node.children])
      have hr := hn r.toNat (by simp [Node.children])
      omega

theorem Parents.perm {ns : List Node} {q q' : List Nat} (h : Parents ns q) (hq : q'.Perm q) : Parents ns q' :=
  ⟨(List.Perm.append_left _ hq).trans h.once, h.order⟩

/-! ### The leaf loop -/

/-- The leaf nodes of some entries. -/
def leafNodes (es : List (Byte × Count)) : List Node := es.map fun e => .leaf e.1 e.2

/-- The leaf loop's run: one node per key, in ascending order (41 R90), and the forest of the leaves. -/
theorem run_leaves {s : State} {es : List (Byte × Count)} {q : List Nat} {f : List HTree}
    (hb : s.status.busy = true) (hw : s.work = .leaves es) (hF : Forest s.node s.live q f) (hP : Parents s.node q)
    (hlen : s.node.length + es.length ≤ 511) :
    ∃ live q', Run es.length s { s with node := s.node ++ leafNodes es, live := live, work := .leaves [] } ∧
      Forest (s.node ++ leafNodes es) live q' (es.foldl (fun f e => insertTree (.leaf e.1 e.2) f) f) ∧
      Parents (s.node ++ leafNodes es) q' := by
  induction es generalizing s q f with
  | nil =>
    refine ⟨s.live, q, ?_, by simpa [leafNodes] using hF, by simpa [leafNodes] using hP⟩
    have : s = { s with node := s.node ++ leafNodes [], live := s.live, work := .leaves [] } := by
      obtain ⟨⟩ := s; simp only at hw; subst hw; simp [leafNodes]
    rw [← this]
    exact .refl s
  | cons e es ih =>
    simp only [List.length_cons] at hlen
    have htree : IsTree (s.node ++ [Node.leaf e.1 e.2]) s.node.length (.leaf e.1 e.2) :=
      .leaf (by simp)
    obtain ⟨live, q', hr, hF', hP'⟩ := ih (s := addNode (.leaf e.1 e.2) { s with work := .leaves es }) hb rfl
      (hF.add (by omega) htree) (Parents.add (n := .leaf e.1 e.2) hP (by simp [Node.children]) (insertIdx_perm _ _ _))
      (by simp only [addNode_node, List.length_append, List.length_singleton]; omega)
    refine ⟨live, q', ?_, ?_, by simpa [leafNodes] using hP'⟩
    · have ht : tick s = .next (addNode (.leaf e.1 e.2) { s with work := .leaves es }) := by
        simp [tick, hb, hw, leavesTick]
      have := Run.cons ht hr
      simpa [leafNodes, addNode] using this
    · simpa [leafNodes] using hF'

/-! ### The merge loop -/

theorem length_insertTree (t : HTree) (f : List HTree) : (insertTree t f).length = f.length + 1 := by
  induction f with
  | nil => rfl
  | cons u r ih => unfold insertTree; split <;> simp [ih]

/-- One merge: the two first trees of the forest become one (41 R92). -/
theorem tick_merge {s : State} {a b : Nat} {q : List Nat} {ta tb : HTree} {f : List HTree}
    (hb : s.status.busy = true) (hw : s.work = .merge) (hF : Forest s.node s.live (a :: b :: q) (ta :: tb :: f))
    (hP : Parents s.node (a :: b :: q)) (hlen : s.node.length < 511) :
    ∃ live, tick s = .next { s with node := s.node ++ [mergeNode s.node a b], live := live } ∧
      Forest (s.node ++ [mergeNode s.node a b]) live
        (insertIdx (s.node ++ [mergeNode s.node a b]) s.node.length q)
        (insertTree (.node (ta.weight + tb.weight) ta tb) f) ∧
      Parents (s.node ++ [mergeNode s.node a b])
        (insertIdx (s.node ++ [mergeNode s.node a b]) s.node.length q) := by
  have hle : s.node.length ≤ 511 := by omega
  have ha : argminLive s.node s.live = some a := argmin_sorted hF.perm hF.sorted
  have hp1 := liveNodes_clearLive_perm hle hF.perm
  have hs1 := (List.pairwise_cons.1 hF.sorted).2
  have hbm : argminLive s.node (clearLive s.live a) = some b := argmin_sorted hp1 hs1
  have hp2 := liveNodes_clearLive_perm hle hp1
  have hlist : ∃ x y r, liveNodes s.node s.live = x :: y :: r := by
    have hl := hF.perm.length_eq
    match h : liveNodes s.node s.live with
    | [] => simp [h] at hl
    | [_] => simp [h] at hl
    | x :: y :: r => exact ⟨x, y, r, rfl⟩
  obtain ⟨x, y, r, hxy⟩ := hlist
  have hta : IsTree s.node a ta := by cases hF.trees; assumption
  have htb : IsTree s.node b tb := by
    cases hF.trees with
    | cons _ h => cases h; assumption
  have hrest : List.Forall₂ (IsTree s.node) q f := by
    cases hF.trees with
    | cons _ h => cases h; assumption
  have hF2 : Forest s.node (clearLive (clearLive s.live a) b) q f :=
    ⟨hp2, (List.pairwise_cons.1 hs1).2, hrest,
      fun i hi => getLsbD_clearLive_of_ge _ _ (getLsbD_clearLive_of_ge _ _ (hF.high i hi))⟩
  have hna : (BitVec.ofNat 9 a).toNat = a := by
    have := hta.lt
    simp; omega
  have hnb : (BitVec.ofNat 9 b).toNat = b := by
    have := htb.lt
    simp; omega
  have htree : IsTree (s.node ++ [mergeNode s.node a b]) s.node.length
      (.node (ta.weight + tb.weight) ta tb) := by
    have hget : (s.node ++ [mergeNode s.node a b])[s.node.length]? =
        some (.internal (ta.weight + tb.weight) (BitVec.ofNat 9 a) (BitVec.ofNat 9 b)) := by
      simp [mergeNode, hta.weightAt, htb.weightAt]
    refine .node hget ?_ ?_
    · rw [hna]; exact hta.mono _
    · rw [hnb]; exact htb.mono _
  refine ⟨_, ?_, hF2.add hlen htree, ?_⟩
  · simp [tick, hb, hw, mergeTick, hxy, ha, hbm, addNode]
  · have hch : (mergeNode s.node a b).children = [a, b] := by simp only [mergeNode, Node.children, hna, hnb]
    refine Parents.add (q := q) (by rw [hch]; exact hP) ?_ (insertIdx_perm _ _ _)
    rw [hch]
    intro c hc
    simp only [List.mem_cons, List.not_mem_nil, or_false] at hc
    rcases hc with rfl | rfl
    · exact hta.lt
    · exact htb.lt

/-- The merge loop's run: it ends with one live node, the newest, the root of the merged tree (41 R92, R95). -/
theorem run_merge {n : Nat} {s : State} {q : List Nat} {f : List HTree} (hb : s.status.busy = true)
    (hw : s.work = .merge) (hF : Forest s.node s.live q f) (hP : Parents s.node q) (hq : q.length = n + 1)
    (hlen : s.node.length + n ≤ 511) :
    ∃ node live r t, Run n s { s with node := node, live := live } ∧ Forest node live [r] [t] ∧
      (∀ m, n ≤ m → mergeForest m f = [t]) ∧ node.length = s.node.length + n ∧
      (∃ new, node = s.node ++ new ∧ ∀ x ∈ new, ∃ w l r, x = Node.internal w l r) ∧
      (n ≠ 0 → r + 1 = node.length) ∧ Parents node [r] := by
  induction n generalizing s q f with
  | zero =>
    obtain ⟨r, rfl⟩ : ∃ r, q = [r] := List.length_eq_one_iff.1 hq
    obtain ⟨t, rfl⟩ : ∃ t, f = [t] := List.length_eq_one_iff.1 (hF.length_eq.symm.trans hq)
    refine ⟨s.node, s.live, r, t, .refl s, hF, ?_, rfl, ⟨[], by simp, by simp⟩, fun h => absurd rfl h, hP⟩
    intro m _
    cases m <;> rfl
  | succ n ih =>
    match q, hq, f, hF.length_eq, hF with
    | a :: b :: q, hq, ta :: tb :: f, _, hF =>
      obtain ⟨live, htick, hF', hP'⟩ := tick_merge hb hw hF hP (by omega)
      have hq' : (insertIdx (s.node ++ [mergeNode s.node a b]) s.node.length q).length = n + 1 := by
        rw [(insertIdx_perm _ _ _).length_eq]; simpa using hq
      obtain ⟨node, live', r, t, hr, hFt, hm, hl, ⟨new, hnew, hint⟩, hroot, hPt⟩ :=
        ih (s := { s with node := s.node ++ [mergeNode s.node a b], live := live }) hb hw hF' hP' hq'
          (by simp only [List.length_append, List.length_singleton]; omega)
      refine ⟨node, live', r, t, .cons htick hr, hFt, ?_, ?_, ?_, ?_, hPt⟩
      · intro m hnm
        obtain ⟨m, rfl⟩ : ∃ k, m = k + 1 := ⟨m - 1, by omega⟩
        exact hm m (by omega)
      · rw [hl]; simp only [List.length_append, List.length_singleton]; omega
      · refine ⟨mergeNode s.node a b :: new, by simp [hnew], ?_⟩
        intro x hx
        rcases List.mem_cons.1 hx with rfl | hx
        · exact ⟨_, _, _, rfl⟩
        · exact hint x hx
      · intro _
        by_cases hn : n = 0
        · subst hn
          -- the only node left is the one just made
          have h1 : (insertIdx (s.node ++ [mergeNode s.node a b]) s.node.length q) = [s.node.length] := by
            have : q = [] := by simpa using hq
            subst this; rfl
          have hl0 : node.length = s.node.length + 1 := by rw [hl]; simp
          cases hr
          have hp := hFt.perm.symm.trans (hF'.perm.trans (.of_eq h1))
          have : r = s.node.length := by simpa using hp.mem_iff.1 (List.mem_singleton.2 rfl)
          omega
        · exact hroot hn

/-- The cursor of a valid tree is an entry of it (10 R19). -/
theorem boundCursor_lt {nn : Nat} (h : 0 < nn) (cur : Idx) : (boundCursor nn cur).toNat < nn := by
  unfold boundCursor
  split
  · assumption
  · rw [BitVec.toNat_ofNat]
    exact lt_of_le_of_lt (Nat.mod_le _ _) (Nat.mod_lt _ h)

/-- A cursor that is an entry stays. -/
theorem boundCursor_of_lt {nn : Nat} {cur : Idx} (h : cur.toNat < nn) : boundCursor nn cur = cur := if_pos h

/-- With one live node the root is named (41 R95). -/
theorem tick_mergeEnd {s : State} {r : Nat} {t : HTree} (hb : s.status.busy = true) (hw : s.work = .merge)
    (hF : Forest s.node s.live [r] [t]) :
    tick s = .next (afterBuild { s with
      root := BitVec.ofNat 9 r, cur := boundCursor s.nn s.cur, status := { s.status with treeV := true } }) := by
  have : liveNodes s.node s.live = [r] := List.perm_singleton.1 hF.perm
  simp [tick, hb, hw, mergeTick, this]

/-! ### The tree of a table -/

theorem mergeForest_leaves_perm (n : Nat) (f : List HTree) :
    ((mergeForest n f).flatMap HTree.symbols).Perm (f.flatMap HTree.symbols) := by
  have hins : ∀ (t : HTree) (f : List HTree), ((insertTree t f).flatMap HTree.symbols).Perm
      (t.symbols ++ f.flatMap HTree.symbols) := by
    intro t f
    induction f with
    | nil => simp [insertTree]
    | cons u r ih =>
      unfold insertTree
      split
      · simp
      · simp only [List.flatMap_cons]
        refine (List.Perm.append_left _ ih).trans ?_
        rw [← List.append_assoc, ← List.append_assoc]
        exact List.Perm.append_right _ List.perm_append_comm
  induction n generalizing f with
  | zero => exact .refl _
  | succ n ih =>
    match f with
    | [] => exact .refl _
    | [_] => exact .refl _
    | a :: b :: rest =>
      refine (ih _).trans ((hins _ _).trans ?_)
      simp [HTree.symbols]

theorem leafForest_perm (es : List (Byte × Count)) :
    ((leafForest es).flatMap HTree.symbols).Perm (es.map Prod.fst) := by
  have hins : ∀ (e : Byte × Count) (f : List HTree), ((insertTree (.leaf e.1 e.2) f).flatMap HTree.symbols).Perm
      (e.1 :: f.flatMap HTree.symbols) := by
    intro e f
    induction f with
    | nil => simp [insertTree, HTree.symbols]
    | cons u r ih =>
      unfold insertTree
      split
      · simp [HTree.symbols]
      · simp only [List.flatMap_cons]
        refine (List.Perm.append_left _ ih).trans ?_
        exact List.perm_middle
  have gen : ∀ (es : List (Byte × Count)) (f : List HTree),
      ((es.foldl (fun f e => insertTree (.leaf e.1 e.2) f) f).flatMap HTree.symbols).Perm
        (es.map Prod.fst ++ f.flatMap HTree.symbols) := by
    intro es
    induction es with
    | nil => intro f; simp
    | cons e es ih =>
      intro f
      rw [List.foldl_cons, List.map_cons, List.cons_append]
      refine (ih _).trans ((List.Perm.append_left _ (hins e f)).trans ?_)
      exact List.perm_middle
  simpa [leafForest] using gen es []

theorem length_leafForest (es : List (Byte × Count)) : (leafForest es).length = es.length := by
  have gen : ∀ (es : List (Byte × Count)) (f : List HTree),
      (es.foldl (fun f e => insertTree (.leaf e.1 e.2) f) f).length = es.length + f.length := by
    intro es
    induction es with
    | nil => intro f; simp
    | cons e es ih => intro f; rw [List.foldl_cons, ih, length_insertTree, List.length_cons]; omega
  simpa [leafForest] using gen es []

theorem length_mergeForest (n : Nat) (f : List HTree) (hf : f ≠ []) (hn : f.length ≤ n + 1) :
    (mergeForest n f).length = 1 := by
  induction n generalizing f with
  | zero =>
    have : f.length ≠ 0 := fun h => hf (List.length_eq_zero_iff.1 h)
    simp only [mergeForest]; omega
  | succ n ih =>
    match f, hf, hn with
    | [], hf, _ => exact absurd rfl hf
    | [_], _, _ => rfl
    | a :: b :: rest, _, hn =>
      refine ih _ ?_ ?_
      · intro h; have := congrArg List.length h; rw [length_insertTree] at this; simp at this
      · rw [length_insertTree]; simp only [List.length_cons] at hn; omega

/-- A table with a key has a tree. -/
theorem buildView_isSome {es : List (Byte × Count)} (h : es ≠ []) :
    ∃ t, buildView es = some t ∧ mergeForest es.length (leafForest es) = [t] := by
  have hf : leafForest es ≠ [] := by
    intro e
    have := length_leafForest es
    rw [e] at this
    exact h (List.length_eq_zero_iff.1 this.symm)
  have hl := length_mergeForest es.length (leafForest es) hf (by rw [length_leafForest]; omega)
  obtain ⟨t, ht⟩ := List.length_eq_one_iff.1 hl
  exact ⟨t, by simp [buildView, ht], ht⟩

@[simp] theorem buildView_nil : buildView [] = none := rfl

/-- The leaves' symbols are the keys (41 R99 (d)). -/
theorem buildView_symbols {es : List (Byte × Count)} {t : HTree} (h : buildView es = some t) :
    t.symbols.Perm (es.map Prod.fst) := by
  have hne : es ≠ [] := by rintro rfl; simp at h
  obtain ⟨u, hu, hm⟩ := buildView_isSome hne
  rw [h] at hu
  cases hu
  have h1 := mergeForest_leaves_perm es.length (leafForest es)
  rw [hm] at h1
  simpa using h1.trans (leafForest_perm es)

theorem HTree.length_symbols (t : HTree) : t.symbols.length = t.leaves := by
  induction t with
  | leaf _ _ => rfl
  | node _ l r ihl ihr => simp [HTree.symbols, HTree.leaves, ihl, ihr]

theorem buildView_leaves {es : List (Byte × Count)} {t : HTree} (h : buildView es = some t) :
    t.leaves = es.length := by
  rw [← t.length_symbols, (buildView_symbols h).length_eq, List.length_map]

/-- The forest of an empty arena. -/
theorem Forest.empty : Forest [] 0 [] [] := ⟨by simp [liveNodes], .nil, .nil, by simp⟩

/-- One live bit: the root's (10 R22). -/
theorem live_of_single {ns : List Node} {live : BitVec 511} {r : Nat} {t : HTree} (h : Forest ns live [r] [t]) :
    live = BitVec.twoPow 511 r := by
  have hl : liveNodes ns live = [r] := List.perm_singleton.1 h.perm
  apply BitVec.eq_of_getLsbD_eq
  intro i hi
  rw [BitVec.getLsbD_twoPow]
  by_cases hri : r = i
  · subst hri
    have : r ∈ liveNodes ns live := by rw [hl]; simp
    simp [(mem_liveNodes.1 this).2, hi]
  · have : i ∉ liveNodes ns live := by rw [hl]; simpa using Ne.symm hri
    rw [mem_liveNodes] at this
    by_cases hin : i < ns.length
    · have : live.getLsbD i = false := by simpa [hin] using this
      simp [this, hri]
    · simp [h.high i (by omega), hri]

/-- BUILD's run over a table with a key: the tree of the table stands in the arena, with its root the last entry. -/
theorem run_build {s : State} {es : List (Byte × Count)} (hb : s.status.busy = true) (hw : s.work = .leaves es)
    (hn : s.node = []) (hl : s.live = 0) (hne : es ≠ []) (hlen : es.length ≤ 256) :
    ∃ node t, BuiltTree es node t ∧
      Run (2 * es.length + 1) s (afterBuild
        { s with node := node, nleaf := BitVec.ofNat 9 es.length,
                 live := BitVec.twoPow 511 (2 * es.length - 2), root := BitVec.ofNat 9 (2 * es.length - 2),
                 cur := boundCursor (2 * es.length - 1) s.cur, status := { s.status with treeV := true }, work := .merge }) := by
  have hpos : 0 < es.length := List.length_pos_iff.2 hne
  obtain ⟨live, q, hr1, hF1, hP1⟩ := run_leaves hb hw (by rw [hn, hl]; exact Forest.empty)
    (by rw [hn]; exact ⟨by simp [childList], by simp⟩) (by rw [hn]; simp only [List.length_nil]; omega)
  rw [hn, List.nil_append] at hr1 hF1 hP1
  change Forest (leafNodes es) live q (leafForest es) at hF1
  have hlen1 : (leafNodes es).length = es.length := by simp [leafNodes]
  let s2 : State := { s with node := leafNodes es, live := live, nleaf := BitVec.ofNat 9 es.length, work := .merge }
  have ht2 : tick { s with node := leafNodes es, live := live, work := .leaves [] } = .next s2 := by
    have : leafNodes es ≠ [] := by intro e; rw [e] at hlen1; simp at hlen1; omega
    simp [tick, hb, leavesTick, this, s2, hlen1]
  have hq : q.length = (es.length - 1) + 1 := by
    have h1 := hF1.length_eq
    rw [length_leafForest] at h1; omega
  obtain ⟨node, live3, r, t, hr3, hF3, hm, hl3, ⟨new, hnew, hint⟩, hroot, hP3⟩ :=
    run_merge (s := s2) hb rfl hF1 hP1 hq (by show (leafNodes es).length + _ ≤ 511; omega)
  have hl3' : node.length = 2 * es.length - 1 := by
    rw [hl3]; show (leafNodes es).length + _ = _; omega
  have hr : r = 2 * es.length - 2 := by
    by_cases h1 : es.length - 1 = 0
    · have := hF3.lt (i := r) (by simp)
      omega
    · have := hroot h1; omega
  obtain ⟨u, hu, hmu⟩ := buildView_isSome hne
  have htu : t = u := by
    have := hm es.length (by omega)
    rw [hmu] at this
    simpa using this.symm
  subst htu
  refine ⟨node, t, ⟨hu, ?_, hl3', ?_, ?_, hP3.order, ?_⟩, ?_⟩
  · rw [← hr]
    cases hF3.trees; assumption
  · intro i hi
    rw [hnew]
    show (leafNodes es ++ new)[i]? = _
    rw [List.getElem?_append_left (by omega)]
    simp [leafNodes, hi]
  · intro i hi1 hi2
    have hin : i < node.length := by omega
    have hmem : node[i] ∈ new := by
      have hnew' : node = leafNodes es ++ new := hnew
      have hge : (leafNodes es).length ≤ i := by omega
      have : node[i] = (leafNodes es ++ new)[i]'(by rw [← hnew']; exact hin) := by simp only [hnew']
      rw [this, List.getElem_append_right hge]
      exact List.getElem_mem _
    obtain ⟨w, l, r', he⟩ := hint _ hmem
    exact ⟨w, l, r', by rw [List.getElem?_eq_getElem hin, he]⟩
  · have := hP3.once
    rw [hl3', hr] at this
    exact this
  · have hlive : live3 = BitVec.twoPow 511 (2 * es.length - 2) := by rw [live_of_single hF3, hr]
    have hend := tick_mergeEnd (s := { s2 with node := node, live := live3 }) hb rfl hF3
    rw [hr, hlive, show State.nn { s2 with node := node, live := BitVec.twoPow 511 (2 * es.length - 2) } =
      2 * es.length - 1 from hl3'] at hend
    rw [hlive] at hr3
    have := ((hr1.snoc ht2).trans hr3).snoc hend
    have hc : es.length + 1 + (es.length - 1) + 1 = 2 * es.length + 1 := by omega
    rw [hc] at this
    exact this

end Sys2Proof.Machine
end

