-- ==== Sys2Proof/Laws/Assign.lean ====
section
/-! SUPPORT. ASSIGN: the run over a tree records every leaf's path (spec/42_code_assigner.md R105, R106); the code
table of a tree; the prefix property (R109). -/

namespace Sys2Proof.Machine

/-- Record a list of code words below a path. -/
def recordCodes (p : List Bool) (cs : List (Byte × Code)) (ct : Table Code) : Table Code :=
  cs.foldl (fun ct q => tableSet ct q.1 (p ++ q.2)) ct

theorem recordCodes_append (p : List Bool) (as bs : List (Byte × Code)) (ct : Table Code) :
    recordCodes p (as ++ bs) ct = recordCodes p bs (recordCodes p as ct) := by simp [recordCodes]

theorem recordCodes_map (p : List Bool) (v : Bool) (cs : List (Byte × Code)) (ct : Table Code) :
    recordCodes p (cs.map fun q => (q.1, v :: q.2)) ct = recordCodes (p ++ [v]) cs ct := by
  simp [recordCodes, List.foldl_map]

/-- The steps ASSIGN takes in a tree with this many leaves. -/
def assignSteps (leaves : Nat) : Nat := 4 * leaves - 3

theorem HTree.leaves_pos (t : HTree) : 0 < t.leaves := by
  induction t with
  | leaf _ _ => exact Nat.one_pos
  | node _ l r ihl _ => simp only [HTree.leaves]; omega

/-- Arriving at a tree and returning from it: its code words are recorded below the path, which is as before
(42 R105). -/
theorem run_visit {ns : List Node} {i : Nat} {t : HTree} (ht : IsTree ns i t) {s : State} {j : Idx} {m : Bool}
    {below : List (Idx × Bool)} (hb : s.status.busy = true) (hw : s.work = .visit) (hn : s.node = ns)
    (hj : j.toNat = i) (hs : s.stk = (j, m) :: below) :
    Run (assignSteps t.leaves) s
      { s with ct := recordCodes s.path t.codes s.ct, stk := below, work := .unwind } := by
  induction ht generalizing s j m below with
  | leaf h =>
    subst hj
    refine .one ?_
    simp [tick, hb, hw, visitTick, hs, hn, h, recordCodes, HTree.codes]
  | @node i w l r tl tr h hl hr ihl ihr =>
    subst hj
    have h1 : tick s = .next { s with path := s.path ++ [false], stk := (l, true) :: (j, true) :: below } := by
      simp [tick, hb, hw, visitTick, hs, hn, h]
    have r1 := ihl (s := { s with path := s.path ++ [false], stk := (l, true) :: (j, true) :: below })
      (j := l) (m := true) (below := (j, true) :: below) hb hw hn rfl rfl
    have h2 : tick { s with path := s.path ++ [false], ct := recordCodes (s.path ++ [false]) tl.codes s.ct,
                            stk := (j, true) :: below, work := .unwind } =
        .next { s with path := s.path ++ [true], ct := recordCodes (s.path ++ [false]) tl.codes s.ct,
                       stk := (r, true) :: (j, false) :: below, work := .visit } := by
      simp [tick, hb, unwindTick, hn, h]
    have r2 := ihr (s := { s with path := s.path ++ [true], ct := recordCodes (s.path ++ [false]) tl.codes s.ct,
                                  stk := (r, true) :: (j, false) :: below, work := .visit })
      (j := r) (m := true) (below := (j, false) :: below) hb rfl hn rfl rfl
    have h3 : tick { s with
          path := s.path ++ [true],
          ct := recordCodes (s.path ++ [true]) tr.codes (recordCodes (s.path ++ [false]) tl.codes s.ct),
          stk := (j, false) :: below, work := .unwind } =
        .next { s with
          ct := recordCodes (s.path ++ [true]) tr.codes (recordCodes (s.path ++ [false]) tl.codes s.ct),
          stk := below, work := .unwind } := by
      simp [tick, hb, unwindTick]
    have := (((Run.cons h1 r1).snoc h2).trans r2).snoc h3
    have hk : assignSteps tl.leaves + 1 + 1 + assignSteps tr.leaves + 1 = assignSteps (HTree.node w tl tr).leaves := by
      have := tl.leaves_pos
      have := tr.leaves_pos
      simp only [assignSteps, HTree.leaves]; omega
    rw [hk] at this
    rw [HTree.codes, recordCodes_append, recordCodes_map, recordCodes_map]
    exact this

/-- ASSIGN's run over the whole tree. -/
theorem run_assign {s : State} {t : HTree} (ht : IsTree s.node s.root.toNat t) (hb : s.status.busy = true)
    (hw : s.work = .visit) (hp : s.path = []) (hs : s.stk = [(s.root, true)]) (hc : s.ct = emptyTable) :
    Run (assignSteps t.leaves + 1) s
      (afterAssign { s with ct := codeTable t, stk := [], work := .unwind, status := { s.status with ctV := true } }) := by
  have r := run_visit ht (s := s) (j := s.root) (m := true) (below := []) hb hw rfl rfl hs
  refine r.snoc ?_
  simp [tick, hb, unwindTick, codeTable, recordCodes, hp, hc]

/-! ### The code table of a tree -/

theorem HTree.codes_fst (t : HTree) : t.codes.map Prod.fst = t.symbols := by
  induction t with
  | leaf _ _ => rfl
  | node _ l r ihl ihr => simp [HTree.codes, HTree.symbols, ← ihl, ← ihr, Function.comp_def]

theorem tableGet_foldl_of_not_mem {cs : List (Byte × Code)} {ct : Table Code} {b : Byte}
    (h : b ∉ cs.map Prod.fst) :
    tableGet (cs.foldl (fun ct p => tableSet ct p.1 p.2) ct) b = tableGet ct b := by
  induction cs generalizing ct with
  | nil => rfl
  | cons c cs ih =>
    simp only [List.map_cons, List.mem_cons, not_or] at h
    rw [List.foldl_cons, ih h.2, tableGet_tableSet_ne _ _ (Ne.symm h.1)]

theorem tableGet_foldl_of_mem {cs : List (Byte × Code)} {ct : Table Code} {b : Byte} {c : Code}
    (hn : (cs.map Prod.fst).Nodup) (h : (b, c) ∈ cs) :
    tableGet (cs.foldl (fun ct p => tableSet ct p.1 p.2) ct) b = some c := by
  induction cs generalizing ct with
  | nil => cases h
  | cons d cs ih =>
    simp only [List.map_cons, List.nodup_cons] at hn
    rw [List.foldl_cons]
    rcases List.mem_cons.1 h with rfl | h
    · rw [tableGet_foldl_of_not_mem hn.1, tableGet_tableSet_same]
    · exact ih hn.2 h

/-- In a tree whose symbols are distinct, each leaf's symbol has its path as code word (42 R106). -/
theorem codeTable_of_mem {t : HTree} (hn : t.symbols.Nodup) {b : Byte} {c : Code} (h : (b, c) ∈ t.codes) :
    tableGet (codeTable t) b = some c :=
  tableGet_foldl_of_mem (by rw [t.codes_fst]; exact hn) h

/-- A symbol without a leaf has no code word (42 R106). -/
theorem codeTable_of_not_mem {t : HTree} {b : Byte} (h : b ∉ t.symbols) : tableGet (codeTable t) b = none := by
  rw [codeTable, tableGet_foldl_of_not_mem (by rwa [t.codes_fst]), tableGet_emptyTable]

/-- A symbol of the tree has a code word. -/
theorem exists_code {t : HTree} {b : Byte} (h : b ∈ t.symbols) : ∃ c, (b, c) ∈ t.codes := by
  rw [← t.codes_fst, List.mem_map] at h
  obtain ⟨⟨_, c⟩, hm, rfl⟩ := h
  exact ⟨c, hm⟩

end Sys2Proof.Machine
end

