-- ==== Sys2Proof/Laws/Channel.lean ====
section
/-! SUPPORT. The channel and the host's list under the sequencer: a step with tokens waiting is the same step with more
tokens behind them (spec/20_memory.md R41, R54; spec/44_bit_unpacker.md R153), and no step reads the host's coming acts. -/

namespace Sys2Proof.Machine

/-- The state with tokens added to the channel and another list of coming acts. -/
def State.behind (s : State) (us : List Token) (h : List HostAct) : State :=
  { s with inq := s.inq ++ us, host := h }

/-- A step's answer carried to such a state. -/
def Tick.behind (t : Tick) (us : List Token) (h : List HostAct) : Tick :=
  match t with
  | .wait => .wait
  | .next s => .next (s.behind us h)
  | .fault f => .fault f

theorem behind_fail (c : Cause) (s : State) (us : List Token) (h : List HostAct) :
    raiseCause c (s.behind us h) = (raiseCause c s).behind us h := rfl

theorem behind_finish (s : State) (us : List Token) (h : List HostAct) :
    endOk (s.behind us h) = (endOk s).behind us h := rfl

theorem behind_afterFreq (s : State) (us : List Token) (h : List HostAct) :
    afterFreq (s.behind us h) = (afterFreq s).behind us h := by
  unfold afterFreq; simp only [State.behind]; split <;> rfl

theorem behind_afterBuild (s : State) (us : List Token) (h : List HostAct) :
    afterBuild (s.behind us h) = (afterBuild s).behind us h := by
  unfold afterBuild; simp only [State.behind]; split <;> rfl

theorem behind_afterAssign (s : State) (us : List Token) (h : List HostAct) :
    afterAssign (s.behind us h) = (afterAssign s).behind us h := by
  unfold afterAssign; simp only [State.behind]; split <;> rfl

theorem behind_afterHdr (s : State) (us : List Token) (h : List HostAct) :
    afterHdr (s.behind us h) = (afterHdr s).behind us h := by
  unfold afterHdr; simp only [State.behind]; split <;> rfl

theorem behind_writeStep (s : State) (off : Nat) (b : Byte) (good bad : State) (us : List Token)
    (h : List HostAct) :
    writeStep (s.behind us h) off b (good.behind us h) (bad.behind us h) =
      (writeStep s off b good bad).behind us h := by
  unfold writeStep
  simp only [State.behind]
  split <;> rfl

theorem behind_hdrCheckEnd (s : State) (us : List Token) (h : List HostAct) :
    hdrCheckEnd (s.behind us h) = (hdrCheckEnd s).behind us h := by
  by_cases hc : s.hpos.toNat = headerLength s.nent
  · rw [hdrCheckEnd, hdrCheckEnd, if_pos hc, if_pos (show (s.behind us h).hpos.toNat = headerLength (s.behind us h).nent from hc)]
    exact behind_afterHdr { s with status := { s.status with ftV := true, hdrV := true } } us h
  · rw [hdrCheckEnd, hdrCheckEnd, if_neg hc, if_neg (show ¬ (s.behind us h).hpos.toNat = headerLength (s.behind us h).nent from hc)]

theorem behind_hdrByte (lo b : Byte) (s : State) (us : List Token) (h : List HostAct) :
    hdrByte lo b (s.behind us h) = (hdrByte lo b s).behind us h := by
  unfold hdrByte
  rw [show (s.behind us h).hpos = s.hpos from rfl]
  cases headerPlace s.hpos.toNat with
  | padding => simp only [hdrPadding]; cases decodePadding b <;> rfl
  | countLo => rfl
  | countHi => exact behind_hdrCheckEnd { s with hpos := s.hpos + 1, nent := fromLE16 lo b } us h
  | symbol => rfl
  | count j =>
    simp only [hdrCount]
    by_cases hj : j = 7
    · rw [if_pos hj, if_pos hj]
      exact behind_hdrCheckEnd { s with hpos := s.hpos + 1, hacc := addCountByte s.hacc b j,
                                        ft := tableSet s.ft s.hsym (addCountByte s.hacc b j) } us h
    · rw [if_neg hj, if_neg hj]; rfl

theorem behind_unpackEnd (s : State) (us : List Token) (h : List HostAct) :
    unpackEnd (s.behind us h) = (unpackEnd s).behind us h := by
  by_cases hc : (decide (s.cur ≠ s.root) && s.par.strictEnd) = true
  · rw [unpackEnd, unpackEnd]
    simp only
    rw [if_pos hc, if_pos (show (decide ((s.behind us h).cur ≠ (s.behind us h).root) &&
      (s.behind us h).par.strictEnd) = true from hc)]
    rfl
  · rw [unpackEnd, unpackEnd]
    simp only
    rw [if_neg hc, if_neg (show ¬ (decide ((s.behind us h).cur ≠ (s.behind us h).root) &&
      (s.behind us h).par.strictEnd) = true from hc)]
    rfl

theorem behind_walkFrom (bits : List Bool) (next : Option Byte) (s : State) (us : List Token) (h : List HostAct) :
    walkFrom bits next (s.behind us h) = (walkFrom bits next s).behind us h := by
  by_cases hb : bits = []
  · rw [walkFrom, walkFrom, if_pos hb, if_pos hb]
    cases next with
    | none => exact behind_unpackEnd { s with hold := none } us h
    | some b => rfl
  · rw [walkFrom, walkFrom, if_neg hb, if_neg hb]; rfl

theorem behind_unpackToken (t : Token) (s : State) (us : List Token) (h : List HostAct) :
    unpackToken t (s.behind us h) = (unpackToken t s).behind us h := by
  unfold unpackToken
  rw [show (s.behind us h).hold = s.hold from rfl]
  cases t with
  | byte b => cases s.hold with
    | none => rfl
    | some x => exact behind_walkFrom _ _ s us h
  | eos => cases s.hold with
    | none => exact behind_unpackEnd s us h
    | some x => exact behind_walkFrom _ _ s us h

theorem behind_walkBit (v : Bool) (rest : List Bool) (next : Option Byte) (s : State) (us : List Token)
    (h : List HostAct) : walkBit v rest next (s.behind us h) = (walkBit v rest next s).behind us h := by
  unfold walkBit
  rw [show (s.behind us h).node = s.node from rfl, show (s.behind us h).cur = s.cur from rfl,
    show (s.behind us h).sink = s.sink from rfl]
  cases s.node[s.cur.toNat]? with
  | none => rfl
  | some n => cases n with
    | leaf _ _ => rfl
    | internal w l r =>
      simp only
      generalize (if v = true then r else l) = c
      cases s.node[c.toNat]? with
      | none => rfl
      | some m => cases m with
        | internal _ _ _ => exact congrArg Tick.next (behind_walkFrom rest next { s with cur := c } us h)
        | leaf sym _ =>
          simp only
          cases s.sink.put s.sink.olen sym with
          | wait => rfl
          | failed k => rfl
          | done k => exact congrArg Tick.next (behind_walkFrom rest next { s with cur := s.root, sink := k } us h)

theorem behind_packToken (t : Token) (s : State) (us : List Token) (h : List HostAct) :
    packToken t (s.behind us h) = (packToken t s).behind us h := by
  cases t with
  | byte b =>
    simp only [packToken]
    rw [show (s.behind us h).ct = s.ct from rfl]
    cases tableGet s.ct b <;> rfl
  | eos => rfl

theorem behind_packBit (v : Bool) (rest : List Bool) (s : State) (us : List Token) (h : List HostAct) :
    packBit v rest (s.behind us h) = (packBit v rest s).behind us h := by
  unfold packBit
  simp only
  by_cases h7 : s.nb = 7
  · rw [if_pos h7, if_pos (show (s.behind us h).nb = 7 from h7)]
    exact behind_writeStep s s.sink.olen (placeBit s.acc s.nb v) { s with acc := 0, nb := 0, work := packWork rest }
      { s with acc := placeBit s.acc s.nb v, nb := 0 } us h
  · rw [if_neg h7, if_neg (show ¬ (s.behind us h).nb = 7 from h7)]; rfl

/-- A step with its tokens there is the same step with more tokens behind them (20 R54). -/
theorem tick_behind {s t : State} (ht : tick s = .next t) (us : List Token) (h : List HostAct) :
    tick (s.behind us h) = .next (t.behind us h) := by
  unfold tick at ht ⊢
  rw [show (s.behind us h).status = s.status from rfl, show (s.behind us h).work = s.work from rfl]
  cases hb : s.status.busy with
  | false => rw [hb] at ht; cases ht
  | true =>
    rw [hb] at ht
    simp only [↓reduceIte] at ht ⊢
    cases hw : s.work with
    | rest => rw [hw] at ht; cases ht
    | freq =>
      rw [hw] at ht
      simp only [freqTick] at ht ⊢
      cases hq : s.inq with
      | nil => rw [hq] at ht; cases ht
      | cons tok rest =>
        rw [hq] at ht
        rw [show (s.behind us h).inq = tok :: (rest ++ us) by simp [State.behind, hq]]
        cases ht
        cases tok with
        | byte b => rfl
        | eos => exact congrArg Tick.next (behind_afterFreq { s with
            inq := rest, ft := seedSentinel s.par.sentinel s.ft, status := { s.status with ftV := true } } us h)
    | leaves keys =>
      rw [hw] at ht
      simp only [leavesTick] at ht ⊢
      rw [show (s.behind us h).node = s.node from rfl]
      cases keys with
      | cons k r => cases ht; rfl
      | nil =>
        simp only at ht ⊢
        by_cases hn : s.node = []
        · rw [if_pos hn] at ht ⊢; cases ht; rfl
        · rw [if_neg hn] at ht ⊢; cases ht; rfl
    | merge =>
      rw [hw] at ht
      simp only [mergeTick] at ht ⊢
      rw [show (s.behind us h).node = s.node from rfl, show (s.behind us h).live = s.live from rfl]
      generalize liveNodes s.node s.live = z at ht ⊢
      rcases z with _ | ⟨x, _ | ⟨y, r⟩⟩
      · cases ht
      · cases ht
        exact congrArg Tick.next (behind_afterBuild { s with
          root := BitVec.ofNat 9 x, cur := boundCursor s.nn s.cur, status := { s.status with treeV := true } } us h)
      · simp only at ht ⊢
        generalize argminLive s.node s.live = z at ht ⊢
        rcases z with _ | a
        · cases ht
        · simp only at ht ⊢
          generalize argminLive s.node (clearLive s.live a) = z at ht ⊢
          rcases z with _ | b
          · cases ht
          · cases ht; rfl
    | visit =>
      rw [hw] at ht
      simp only [visitTick] at ht ⊢
      rw [show (s.behind us h).node = s.node from rfl, show (s.behind us h).stk = s.stk from rfl]
      generalize s.stk = z at ht ⊢
      rcases z with _ | ⟨⟨i, m⟩, below⟩
      · cases ht
      · simp only at ht ⊢
        generalize s.node[i.toNat]? = z at ht ⊢
        rcases z with _ | _ | _ <;> cases ht <;> rfl
    | unwind =>
      rw [hw] at ht
      simp only [unwindTick] at ht ⊢
      rw [show (s.behind us h).node = s.node from rfl, show (s.behind us h).stk = s.stk from rfl]
      generalize s.stk = z at ht ⊢
      rcases z with _ | ⟨⟨i, _ | _⟩, below⟩
      · cases ht
        exact congrArg Tick.next (behind_afterAssign { s with stk := [], status := { s.status with ctV := true } } us h)
      · cases ht; rfl
      · simp only at ht ⊢
        generalize s.node[i.toNat]? = z at ht ⊢
        rcases z with _ | _ | _ <;> cases ht <;> rfl
    | packStart =>
      rw [hw] at ht
      simp only [packStartTick] at ht ⊢
      have := behind_writeStep s s.sink.olen 0x00#8
        { s with nent := BitVec.ofNat 16 (keyCount s.ft), work := .packHdr (headerTail s.ft) } s us h
      rw [ht] at this
      exact this
    | packHdr bytes =>
      rw [hw] at ht
      simp only [packHdrTick] at ht ⊢
      rcases bytes with _ | ⟨b, _ | ⟨c, r⟩⟩
      · cases ht; rfl
      · have := behind_writeStep s s.sink.olen b (startBody s) s us h
        simp only at ht
        rw [ht] at this
        exact this
      · have := behind_writeStep s s.sink.olen b { s with work := .packHdr (c :: r) } s us h
        simp only at ht
        rw [ht] at this
        exact this
    | packPull =>
      rw [hw] at ht
      simp only [packPullTick] at ht ⊢
      cases hq : s.inq with
      | nil => rw [hq] at ht; cases ht
      | cons tok rest =>
        rw [hq] at ht
        rw [show (s.behind us h).inq = tok :: (rest ++ us) by simp [State.behind, hq]]
        cases ht
        exact congrArg Tick.next (behind_packToken tok { s with inq := rest } us h)
    | packBits bits =>
      rw [hw] at ht
      simp only [packBitsTick] at ht ⊢
      rcases bits with _ | ⟨v, r⟩
      · cases ht; rfl
      · have := behind_packBit v r s us h
        simp only at ht
        rw [ht] at this
        exact this
    | packTail =>
      rw [hw] at ht
      simp only [packTailTick] at ht ⊢
      have := behind_writeStep s s.sink.olen s.acc { s with acc := 0, nb := 0, work := .packRewrite } s us h
      rw [ht] at this
      exact this
    | packRewrite =>
      rw [hw] at ht
      simp only [packRewriteTick] at ht ⊢
      have := behind_writeStep s 0 (s.pad.setWidth 8) (endOk s) s us h
      rw [ht] at this
      exact this
    | hdr lo =>
      rw [hw] at ht
      simp only [hdrTick] at ht ⊢
      cases hq : s.inq with
      | nil => rw [hq] at ht; cases ht
      | cons tok rest =>
        rw [hq] at ht
        rw [show (s.behind us h).inq = tok :: (rest ++ us) by simp [State.behind, hq]]
        cases tok with
        | eos => cases ht; rfl
        | byte b => cases ht; exact congrArg Tick.next (behind_hdrByte lo b { s with inq := rest } us h)
    | pull =>
      rw [hw] at ht
      simp only [pullTick] at ht ⊢
      cases hq : s.inq with
      | nil => rw [hq] at ht; cases ht
      | cons tok rest =>
        rw [hq] at ht
        rw [show (s.behind us h).inq = tok :: (rest ++ us) by simp [State.behind, hq]]
        cases ht
        exact congrArg Tick.next (behind_unpackToken tok { s with inq := rest } us h)
    | walk bits next =>
      rw [hw] at ht
      simp only [walkTick] at ht ⊢
      rcases bits with _ | ⟨v, r⟩
      · cases ht
        exact congrArg Tick.next (by
          cases next with
          | none => exact behind_unpackEnd { s with hold := none } us h
          | some b => rfl)
      · have := behind_walkBit v r next s us h
        simp only at ht
        rw [ht] at this
        exact this

/-- A run with more tokens behind. -/
theorem Run.behind {n : Nat} {s t : State} (r : Run n s t) (us : List Token) (h : List HostAct) :
    Run n (s.behind us h) (t.behind us h) := by
  induction r with
  | refl => exact .refl _
  | cons ht _ ih => exact .cons (tick_behind ht us h) ih

/-- What `drive` answers is reached by a run. -/
theorem run_of_drive {n : Nat} {s t : State} (h : drive n s = .next t) : ∃ k ≤ n, Run k s t := by
  induction n generalizing s with
  | zero => simp only [drive, Host.Outcome.next.injEq] at h; exact ⟨0, by omega, h ▸ .refl s⟩
  | succ n ih =>
    cases ht : tick s with
    | wait => simp only [drive, ht, Host.Outcome.next.injEq] at h; exact ⟨0, by omega, h ▸ .refl s⟩
    | next u =>
      rw [drive_succ ht] at h
      obtain ⟨k, hk, r⟩ := ih h
      exact ⟨k + 1, by omega, .cons ht r⟩
    | fault f => simp [drive, ht] at h

/-- Two runs from one state to where the sequencer has no step end in the same state. -/
theorem Run.unique {m n : Nat} {s t u : State} (a : Run m s t) (b : Run n s u) (ht : tick t = .wait)
    (hu : tick u = .wait) : t = u := by
  induction a generalizing n with
  | refl s => cases b with
    | refl => rfl
    | cons h _ => rw [ht] at h; cases h
  | cons h _ ih => cases b with
    | refl => rw [hu] at h; cases h
    | cons h' r => rw [h] at h'; cases h'; exact ih r ht

end Sys2Proof.Machine
end

