-- ==== Sys2Proof/Laws/Freq.lean ====
section
/-! SUPPORT. FREQ: the scan as a count of occurrences, the sentinel rule, the run over a stream. -/

namespace Sys2Proof.Machine

theorem tableGet_countByte (t : Table Count) (b c : Byte) :
    tableGet (countByte t b) c =
      if b = c then some (((tableGet t b).getD 0) + 1) else tableGet t c := by
  unfold countByte
  split <;> rename_i h <;> simp [tableGet_tableSet, h]

/-- The scan, entry by entry: what the table held, and one for every occurrence. -/
theorem tableGet_scan (l : List Byte) (t : Table Count) (b : Byte) :
    tableGet (l.foldl countByte t) b =
      if b ∈ l then some ((tableGet t b).getD 0 + BitVec.ofNat 64 (l.count b)) else tableGet t b := by
  induction l generalizing t with
  | nil => simp
  | cons a l ih =>
    rw [List.foldl_cons, ih, tableGet_countByte]
    by_cases hab : a = b
    · subst hab
      by_cases ha : a ∈ l
      · simp only [List.mem_cons, true_or, ↓reduceIte, ha, Option.getD_some, List.count_cons_self, BitVec.ofNat_add]
        congr 1
        rw [show (BitVec.ofNat 64 1 : Count) = 1 from rfl]
        ac_rfl
      · simp [ha, List.count_eq_zero_of_not_mem ha]
    · have hba : ¬ b = a := fun h => hab h.symm
      simp [hab, hba]

theorem tableGet_scan_empty (l : List Byte) (b : Byte) :
    tableGet (l.foldl countByte emptyTable) b = if b ∈ l then some (BitVec.ofNat 64 (l.count b)) else none := by
  simp [tableGet_scan]

/-- The scan has a key for every byte value that occurs. -/
theorem keyCount_scan (l : List Byte) : keyCount (l.foldl countByte emptyTable) = l.dedup.length := by
  have h : (entriesOf (l.foldl countByte emptyTable)).map Prod.fst = allBytes.filter fun s => decide (s ∈ l) := by
    rw [keys_entriesOf]
    apply List.filter_congr
    intro s _
    rw [tableGet_scan_empty]
    by_cases hs : s ∈ l <;> simp [hs]
  have hp : (allBytes.filter fun s => decide (s ∈ l)).Perm l.dedup := by
    rw [List.perm_ext_iff_of_nodup (nodup_allBytes.filter _) (List.nodup_dedup l)]
    intro s
    simp
  rw [keyCount, ← List.length_map (f := Prod.fst), h, hp.length_eq]

/-- Scan and sentinel rule together are `freq(S)`. -/
theorem seedSentinel_scan (sentinel : Byte) (l : List Byte) :
    seedSentinel sentinel (l.foldl countByte emptyTable) = freqView sentinel l := by
  apply table_ext
  intro b
  unfold seedSentinel freqView
  rw [tableGet_tableOf, keyCount_scan, tableGet_scan_empty]
  by_cases hlt : l.dedup.length < 2
  · by_cases hs : sentinel ∈ l
    · by_cases hb : b ∈ l
      · simp [hs, hb, tableGet_scan_empty]
      · have hbs : ¬ b = sentinel := fun e => hb (e ▸ hs)
        simp [hs, hb, hbs, tableGet_scan_empty]
    · by_cases hb : b ∈ l
      · have hbs : ¬ sentinel = b := fun e => hs (e ▸ hb)
        simp [hs, hlt, hb, hbs, tableGet_tableSet, tableGet_scan_empty]
      · by_cases hbs : sentinel = b
        · subst hbs; simp [hs, hlt]
        · have hbs' : ¬ b = sentinel := fun e => hbs e.symm
          simp [hs, hlt, hb, hbs, hbs', tableGet_tableSet, tableGet_scan_empty]
  · simp [hlt, tableGet_scan_empty]

/-- One step of FREQ. -/
theorem tick_freq {s : State} {t : Token} {rest : List Token} (hb : s.status.busy = true) (hw : s.work = .freq)
    (hi : s.inq = t :: rest) : tick s = .next (freqToken t { s with inq := rest }) := by
  simp [tick, hb, hw, freqTick, hi]

/-- The scan of the bytes of a stream. -/
theorem run_scan {s : State} {l : List Byte} {rest : List Token} (hb : s.status.busy = true) (hw : s.work = .freq)
    (hi : s.inq = byteTokens l ++ rest) :
    Run l.length s { s with inq := rest, ft := l.foldl countByte s.ft } := by
  induction l generalizing s with
  | nil =>
    have : s = { s with inq := rest, ft := s.ft } := by
      obtain ⟨⟩ := s; simp only [byteTokens, List.map_nil, List.nil_append] at hi; subst hi; rfl
    rw [List.foldl_nil, ← this]
    exact .refl s
  | cons a l ih =>
    refine .cons (tick_freq hb hw (t := .byte a) (rest := byteTokens l ++ rest) (by simpa [byteTokens] using hi)) ?_
    exact ih (s := freqToken (.byte a) { s with inq := byteTokens l ++ rest }) hb hw rfl

/-- FREQ's run over a whole stream, up to what follows it. -/
theorem run_freq {s : State} {l : List Byte} {rest : List Token} (hb : s.status.busy = true) (hw : s.work = .freq)
    (hf : s.ft = emptyTable) (hi : s.inq = byteTokens l ++ .eos :: rest) :
    Run (l.length + 1) s (afterFreq { s with inq := rest, ft := freqView s.par.sentinel l,
                                             status := { s.status with ftV := true } }) := by
  refine (run_scan hb hw hi).snoc ?_
  rw [tick_freq (t := .eos) (rest := rest) (by exact hb) (by exact hw) rfl]
  simp only [freqToken, hf, seedSentinel_scan]

end Sys2Proof.Machine
end

