-- ==== Sys2Proof/Laws/Hdr.lean ====
section
/-! SUPPORT. HDR: the little-endian assembly of a count (spec/30_encoding.md R66, R78), one header byte at each place,
the run over an entry and over a whole header (spec/44_bit_unpacker.md R130 to R134). -/

namespace Sys2Proof.Machine

/-! ### Little-endian numbers -/

theorem toNat_append8 {w : Nat} (x : BitVec w) (y : Byte) : (x ++ y).toNat = x.toNat * 256 + y.toNat := by
  rw [BitVec.toNat_append, ← Nat.shiftLeft_add_eq_or_of_lt y.isLt, Nat.shiftLeft_eq]

theorem toNat_fromLE16 (lo hi : Byte) : (fromLE16 lo hi).toNat = lo.toNat + 256 * hi.toNat := by
  rw [fromLE16, toNat_append8]; omega

theorem toNat_addCountByte {acc : Count} {b : Byte} {j : Nat} (hj : j < 8) (h : acc.toNat < 2 ^ (8 * j)) :
    (addCountByte acc b j).toNat = acc.toNat + b.toNat * 2 ^ (8 * j) := by
  have hb := b.isLt
  have hp : 2 ^ (8 * j) * 2 ^ 8 ≤ 2 ^ 64 := by
    rw [← Nat.pow_add]; exact Nat.pow_le_pow_right (by omega) (by omega)
  have hm : b.toNat * 2 ^ (8 * j) ≤ 255 * 2 ^ (8 * j) := Nat.mul_le_mul_right _ (by omega)
  unfold addCountByte
  rw [BitVec.toNat_add, BitVec.toNat_shiftLeft, BitVec.toNat_setWidth, Nat.shiftLeft_eq,
    Nat.mod_eq_of_lt (show b.toNat < 2 ^ 64 by omega), Nat.mod_eq_of_lt (by omega), Nat.mod_eq_of_lt (by omega)]

/-- The eight count bytes, added one after another, are the count (44 R130). -/
theorem addCountByte_all (a b c d e f g h : Byte) :
    addCountByte (addCountByte (addCountByte (addCountByte (addCountByte (addCountByte (addCountByte
      (addCountByte 0 a 0) b 1) c 2) d 3) e 4) f 5) g 6) h 7 = fromLE64 a b c d e f g h := by
  have ha := a.isLt
  have hb := b.isLt
  have hc := c.isLt
  have hd := d.isLt
  have he := e.isLt
  have hf := f.isLt
  have hg := g.isLt
  have h0 := toNat_addCountByte (acc := 0) (b := a) (j := 0) (by omega) (by decide)
  have h1 := toNat_addCountByte (acc := addCountByte 0 a 0) (b := b) (j := 1) (by omega)
    (by rw [h0]; simp; omega)
  have h2 := toNat_addCountByte (acc := addCountByte (addCountByte 0 a 0) b 1) (b := c) (j := 2) (by omega)
    (by rw [h1, h0]; simp; omega)
  have h3 := toNat_addCountByte (b := d) (j := 3) (by omega)
    (show (addCountByte (addCountByte (addCountByte 0 a 0) b 1) c 2).toNat < _ by
      rw [h2, h1, h0]; simp; omega)
  have h4 := toNat_addCountByte (b := e) (j := 4) (by omega)
    (show (addCountByte (addCountByte (addCountByte (addCountByte 0 a 0) b 1) c 2) d 3).toNat < _ by
      rw [h3, h2, h1, h0]; simp; omega)
  have h5 := toNat_addCountByte (b := f) (j := 5) (by omega)
    (show (addCountByte (addCountByte (addCountByte (addCountByte (addCountByte 0 a 0) b 1) c 2) d 3) e 4).toNat < _ by
      rw [h4, h3, h2, h1, h0]; simp; omega)
  have h6 := toNat_addCountByte (b := g) (j := 6) (by omega)
    (show (addCountByte (addCountByte (addCountByte (addCountByte (addCountByte (addCountByte 0 a 0) b 1) c 2) d 3)
      e 4) f 5).toNat < _ by rw [h5, h4, h3, h2, h1, h0]; simp; omega)
  have h7 := toNat_addCountByte (b := h) (j := 7) (by omega)
    (show (addCountByte (addCountByte (addCountByte (addCountByte (addCountByte (addCountByte (addCountByte 0 a 0) b 1)
      c 2) d 3) e 4) f 5) g 6).toNat < _ by rw [h6, h5, h4, h3, h2, h1, h0]; simp; omega)
  apply BitVec.eq_of_toNat_eq
  rw [h7, h6, h5, h4, h3, h2, h1, h0, fromLE64]
  rw [toNat_append8 (h ++ g ++ f ++ e ++ d ++ c ++ b), toNat_append8 (h ++ g ++ f ++ e ++ d ++ c),
    toNat_append8 (h ++ g ++ f ++ e ++ d), toNat_append8 (h ++ g ++ f ++ e), toNat_append8 (h ++ g ++ f),
    toNat_append8 (h ++ g), toNat_append8 h]
  simp
  omega

/-! ### The place of a header byte -/

@[simp] theorem headerPlace_symbol (i : Nat) : headerPlace (3 + 9 * i) = .symbol := by
  rw [Nat.add_comm]
  simp [headerPlace]

theorem headerPlace_count (i j : Nat) (hj : j < 8) : headerPlace (3 + 9 * i + 1 + j) = .count j := by
  have : 3 + 9 * i + 1 + j = (9 * i + (j + 1)) + 3 := by omega
  rw [this]
  have h : (9 * i + (j + 1)) % 9 = j + 1 := by omega
  simp only [headerPlace, h]

theorem toNat_hpos_succ {p : BitVec 20} (h : p.toNat + 1 < 2 ^ 20) : (p + 1).toNat = p.toNat + 1 := by
  rw [BitVec.toNat_add]
  simpa using h

/-! ### One byte -/

theorem hdrByte_symbol {s : State} {lo b : Byte} (h : headerPlace s.hpos.toNat = .symbol) :
    hdrByte lo b s = { s with hpos := s.hpos + 1, hsym := b, hacc := 0 } := by
  simp [hdrByte, h]

theorem hdrByte_count {s : State} {lo b : Byte} {j : Nat} (h : headerPlace s.hpos.toNat = .count j) (hj : j ≠ 7) :
    hdrByte lo b s = { s with hpos := s.hpos + 1, hacc := addCountByte s.hacc b j } := by
  simp [hdrByte, h, hdrCount, hj]

theorem hdrByte_last {s : State} {lo b : Byte} (h : headerPlace s.hpos.toNat = .count 7) :
    hdrByte lo b s = hdrCheckEnd { s with hpos := s.hpos + 1, hacc := addCountByte s.hacc b 7,
                                          ft := tableSet s.ft s.hsym (addCountByte s.hacc b 7) } := by
  simp [hdrByte, h, hdrCount]

theorem tick_hdr {s : State} {lo b : Byte} {rest : List Token} (hb : s.status.busy = true) (hw : s.work = .hdr lo)
    (hi : s.inq = .byte b :: rest) : tick s = .next (hdrByte lo b { s with inq := rest }) := by
  simp [tick, hb, hw, hdrTick, hi]

/-! ### One entry -/

/-- The eight count bytes of one entry, by bytes already taken: the state after `m` of them. -/
theorem run_entry {s : State} {lo sym a b c d e f g h : Byte} {rest : List Token} {i : Nat}
    (hb : s.status.busy = true) (hw : s.work = .hdr lo) (hp : s.hpos.toNat = 3 + 9 * i) (hi : i < 65535)
    (hq : s.inq = byteTokens [sym, a, b, c, d, e, f, g, h] ++ rest) :
    Run 9 s (hdrCheckEnd { s with
      inq := rest, hpos := BitVec.ofNat 20 (3 + 9 * (i + 1)), hsym := sym, hacc := fromLE64 a b c d e f g h,
      ft := tableSet s.ft sym (fromLE64 a b c d e f g h) }) := by
  have pos : ∀ k, k ≤ 9 → (s.hpos + BitVec.ofNat 20 k).toNat = 3 + 9 * i + k := by
    intro k hk
    rw [BitVec.toNat_add, hp, BitVec.toNat_ofNat, Nat.mod_eq_of_lt (show k < 2 ^ 20 by omega),
      Nat.mod_eq_of_lt (by omega)]
  have posS : ∀ k, s.hpos + BitVec.ofNat 20 k + 1 = s.hpos + BitVec.ofNat 20 (k + 1) := by
    intro k
    rw [BitVec.add_assoc, BitVec.ofNat_add]; rfl
  have place : ∀ j, j < 8 → headerPlace (s.hpos + BitVec.ofNat 20 (j + 1)).toNat = .count j := by
    intro j hj
    rw [pos (j + 1) (by omega), show 3 + 9 * i + (j + 1) = 3 + 9 * i + 1 + j by omega, headerPlace_count i j hj]
  have h0 : tick s = .next { s with inq := byteTokens [a, b, c, d, e, f, g, h] ++ rest,
                                    hpos := s.hpos + BitVec.ofNat 20 1, hsym := sym, hacc := 0 } := by
    rw [tick_hdr hb hw (b := sym) (rest := byteTokens [a, b, c, d, e, f, g, h] ++ rest) hq,
      hdrByte_symbol (by simp [hp])]
    rfl
  have step : ∀ (x : Byte) (l : List Byte) (acc : Count) (j : Nat), j < 7 →
      tick { s with inq := byteTokens (x :: l) ++ rest, hpos := s.hpos + BitVec.ofNat 20 (j + 1), hsym := sym,
                    hacc := acc } =
        .next { s with inq := byteTokens l ++ rest, hpos := s.hpos + BitVec.ofNat 20 (j + 2), hsym := sym,
                       hacc := addCountByte acc x j } := by
    intro x l acc j hj
    rw [tick_hdr (s := { s with inq := byteTokens (x :: l) ++ rest, hpos := s.hpos + BitVec.ofNat 20 (j + 1),
                                hsym := sym, hacc := acc }) hb hw (b := x) (rest := byteTokens l ++ rest) rfl,
      hdrByte_count (j := j) (place j (by omega)) (by omega)]
    simp only [posS]
  have last : ∀ (acc : Count),
      tick { s with inq := byteTokens [h] ++ rest, hpos := s.hpos + BitVec.ofNat 20 8, hsym := sym, hacc := acc } =
        .next (hdrCheckEnd { s with
          inq := rest, hpos := s.hpos + BitVec.ofNat 20 9, hsym := sym, hacc := addCountByte acc h 7,
          ft := tableSet s.ft sym (addCountByte acc h 7) }) := by
    intro acc
    rw [tick_hdr (s := { s with inq := byteTokens [h] ++ rest, hpos := s.hpos + BitVec.ofNat 20 8, hsym := sym,
                                hacc := acc }) hb hw (b := h) (rest := rest) rfl,
      hdrByte_last (place 7 (by omega))]
    simp only [posS]
  have fin : s.hpos + BitVec.ofNat 20 9 = BitVec.ofNat 20 (3 + 9 * (i + 1)) := by
    apply BitVec.eq_of_toNat_eq
    rw [pos 9 (by omega), BitVec.toNat_ofNat, Nat.mod_eq_of_lt (by omega)]
    omega
  rw [← addCountByte_all, ← fin]
  exact .cons h0 (.cons (step a _ _ 0 (by omega)) (.cons (step b _ _ 1 (by omega)) (.cons (step c _ _ 2 (by omega))
    (.cons (step d _ _ 3 (by omega)) (.cons (step e _ _ 4 (by omega)) (.cons (step f _ _ 5 (by omega))
    (.cons (step g _ _ 6 (by omega)) (.one (last _)))))))))

/-! ### A whole header -/

theorem hdrCheckEnd_more {s : State} (h : s.hpos.toNat ≠ headerLength s.nent) : hdrCheckEnd s = s := by
  simp [hdrCheckEnd, h]

theorem hdrCheckEnd_end {s : State} (h : s.hpos.toNat = headerLength s.nent) :
    hdrCheckEnd s = afterHdr { s with status := { s.status with ftV := true, hdrV := true } } := by
  simp [hdrCheckEnd, h]

theorem toNat_ofNat20 {k : Nat} (h : k ≤ 589818) : (BitVec.ofNat 20 k).toNat = k := by
  rw [BitVec.toNat_ofNat, Nat.mod_eq_of_lt (by omega)]

/-- Nine bytes off the front of a longer list. -/
theorem split_nine {l : List Byte} {n : Nat} (h : 9 * (n + 1) ≤ l.length) :
    ∃ s a b c d e f g i r, l = [s, a, b, c, d, e, f, g, i] ++ r ∧ 9 * n ≤ r.length ∧
      r.length + 9 = l.length := by
  match l, h with
  | s :: a :: b :: c :: d :: e :: f :: g :: i :: r, h =>
    refine ⟨s, a, b, c, d, e, f, g, i, r, rfl, ?_, rfl⟩
    simp only [List.length_cons] at h
    omega
  | [], h | [_], h | [_, _], h | [_, _, _], h | [_, _, _, _], h | [_, _, _, _, _], h | [_, _, _, _, _, _], h
  | [_, _, _, _, _, _, _], h | [_, _, _, _, _, _, _, _], h =>
    simp only [List.length_cons, List.length_nil] at h; omega

/-- The run over the entries a header declares, up to what follows HDR (44 R133). -/
theorem run_entries {n : Nat} {s : State} {lo : Byte} {bytes : List Byte} {rest : List Token} {i : Nat}
    (hb : s.status.busy = true) (hw : s.work = .hdr lo) (hp : s.hpos.toNat = 3 + 9 * i)
    (hn : s.nent.toNat = i + (n + 1)) (hl : bytes.length = 9 * (n + 1)) (hq : s.inq = byteTokens bytes ++ rest) :
    ∃ sym acc, Run (9 * (n + 1)) s (afterHdr { s with
      inq := rest, hpos := BitVec.ofNat 20 (headerLength s.nent), hsym := sym, hacc := acc,
      ft := readEntries (n + 1) bytes s.ft, status := { s.status with ftV := true, hdrV := true } }) := by
  have hlt : s.nent.toNat < 65536 := s.nent.isLt
  induction n generalizing s bytes i with
  | zero =>
    obtain ⟨sym, a, b, c, d, e, f, g, h, r, rfl, _, hr⟩ := split_nine (n := 0) (le_of_eq hl.symm)
    obtain rfl : r = [] := by apply List.length_eq_zero_iff.1; omega
    refine ⟨sym, fromLE64 a b c d e f g h, ?_⟩
    have := run_entry hb hw hp (by omega) (by simpa using hq)
    rw [hdrCheckEnd_end (by
      show (BitVec.ofNat 20 (3 + 9 * (i + 1))).toNat = headerLength s.nent
      rw [toNat_ofNat20 (by omega), headerLength, hn])] at this
    simpa [readEntries, headerLength, hn] using this
  | succ n ih =>
    obtain ⟨sym, a, b, c, d, e, f, g, h, r, rfl, _, hr⟩ := split_nine (n := n + 1) (le_of_eq hl.symm)
    have h1 := run_entry (rest := byteTokens r ++ rest) hb hw hp (by omega) (by simpa [byteTokens] using hq)
    rw [hdrCheckEnd_more (by
      show (BitVec.ofNat 20 (3 + 9 * (i + 1))).toNat ≠ headerLength s.nent
      rw [toNat_ofNat20 (by omega), headerLength, hn]; omega)] at h1
    obtain ⟨sym', acc', h2⟩ := ih (s := { s with
        inq := byteTokens r ++ rest, hpos := BitVec.ofNat 20 (3 + 9 * (i + 1)), hsym := sym,
        hacc := fromLE64 a b c d e f g h, ft := tableSet s.ft sym (fromLE64 a b c d e f g h) })
      (bytes := r) (i := i + 1) hb hw (toNat_ofNat20 (by omega)) (by show s.nent.toNat = _; omega) (by omega) rfl hlt
    refine ⟨sym', acc', ?_⟩
    have := h1.trans h2
    rw [show 9 * (n + 1 + 1) = 9 + 9 * (n + 1) by omega]
    simpa [readEntries] using this

theorem decodePadding_ok {p : Byte} (h : p.toNat ≤ 7) : decodePadding p = .ok (.paddingCount p) := by
  simp [decodePadding, h]

theorem decodePadding_bad {p : Byte} (h : 7 < p.toNat) : decodePadding p = .error (.badPad p) := by
  simp [decodePadding, h]

/-- The first three header bytes (44 R131, R132). -/
theorem run_headerStart {s : State} {p lo hi : Byte} {rest : List Token} (hb : s.status.busy = true)
    (hw : s.work = .hdr 0) (hp : s.hpos = 0) (hpad : p.toNat ≤ 7) (hq : s.inq = byteTokens [p, lo, hi] ++ rest) :
    Run 3 s (hdrCheckEnd { s with inq := rest, hpos := 3, pad := p.setWidth 3, nent := fromLE16 lo hi,
                                  work := .hdr lo }) := by
  have h1 : tick s = .next { s with inq := byteTokens [lo, hi] ++ rest, hpos := 1, pad := p.setWidth 3 } := by
    rw [tick_hdr hb hw (b := p) (rest := byteTokens [lo, hi] ++ rest) hq]
    simp [hdrByte, hp, headerPlace, hdrPadding, decodePadding_ok hpad]
  have h2 : tick { s with inq := byteTokens [lo, hi] ++ rest, hpos := 1, pad := p.setWidth 3 } =
      .next { s with inq := byteTokens [hi] ++ rest, hpos := 2, pad := p.setWidth 3, work := .hdr lo } := by
    rw [tick_hdr (lo := 0) (b := lo) (rest := byteTokens [hi] ++ rest) (by exact hb) (by exact hw) rfl]
    rfl
  have h3 : tick { s with inq := byteTokens [hi] ++ rest, hpos := 2, pad := p.setWidth 3, work := .hdr lo } =
      .next (hdrCheckEnd { s with inq := rest, hpos := 3, pad := p.setWidth 3, nent := fromLE16 lo hi,
                                  work := .hdr lo }) := by
    rw [tick_hdr (lo := lo) (b := hi) (rest := rest) (by exact hb) rfl rfl]
    rfl
  exact .cons h1 (.cons h2 (.one h3))

/-- HDR's run over a whole header, up to what follows it (44 R130). -/
theorem run_hdr {s : State} {p lo hi : Byte} {bytes : List Byte} {rest : List Token} (hb : s.status.busy = true)
    (hw : s.work = .hdr 0) (hp : s.hpos = 0) (hpad : p.toNat ≤ 7)
    (hl : bytes.length = 9 * (fromLE16 lo hi).toNat)
    (hq : s.inq = byteTokens (p :: lo :: hi :: bytes) ++ rest) :
    ∃ sym acc, Run (headerLength (fromLE16 lo hi)) s (afterHdr { s with
      inq := rest, hpos := BitVec.ofNat 20 (headerLength (fromLE16 lo hi)), hsym := sym, hacc := acc,
      pad := p.setWidth 3, nent := fromLE16 lo hi, work := .hdr lo,
      ft := readEntries (fromLE16 lo hi).toNat bytes s.ft,
      status := { s.status with ftV := true, hdrV := true } }) := by
  have h1 := run_headerStart (rest := byteTokens bytes ++ rest) hb hw hp hpad (by simpa [byteTokens] using hq)
  generalize hN : fromLE16 lo hi = N at *
  match hn : N.toNat, hl with
  | 0, hl =>
    obtain rfl : bytes = [] := by apply List.length_eq_zero_iff.1; omega
    refine ⟨s.hsym, s.hacc, ?_⟩
    rw [hdrCheckEnd_end (by show (3 : BitVec 20).toNat = headerLength N; rw [headerLength, hn]; rfl)] at h1
    rw [headerLength, hn]
    simpa [readEntries, byteTokens] using h1
  | n + 1, hl =>
    rw [hdrCheckEnd_more (by
      show (3 : BitVec 20).toNat ≠ headerLength N
      rw [headerLength, hn, show (3 : BitVec 20).toNat = 3 from rfl]; omega)] at h1
    obtain ⟨sym, acc, h2⟩ := run_entries (n := n) (s := { s with
        inq := byteTokens bytes ++ rest, hpos := 3, pad := p.setWidth 3, nent := N, work := .hdr lo })
      (bytes := bytes) (rest := rest) (i := 0) (lo := lo) hb rfl rfl (by show N.toNat = _; omega) hl rfl
    refine ⟨sym, acc, ?_⟩
    have := h1.trans h2
    rw [headerLength, hn, show 3 + 9 * (n + 1) = 3 + 9 * (n + 1) from rfl]
    simpa [headerLength, hn] using this

/-! ### A header cut short -/

theorem tick_truncated {s : State} {lo : Byte} {rest : List Token} (hb : s.status.busy = true) (hw : s.work = .hdr lo)
    (hi : s.inq = .eos :: rest) : tick s = .next (raiseCause .truncHdr { s with inq := rest }) := by
  simp [tick, hb, hw, hdrTick, hi]

/-- The run over some of the entries' bytes, not all: they are taken off, and HDR goes on (44 R134). -/
theorem run_partial {l : List Byte} {s : State} {lo : Byte} {rest : List Token} (hb : s.status.busy = true)
    (hw : s.work = .hdr lo) (h3 : 3 ≤ s.hpos.toNat) (hlt : s.hpos.toNat + l.length < headerLength s.nent)
    (hq : s.inq = byteTokens l ++ rest) :
    ∃ sym acc ft, Run l.length s { s with
      inq := rest, hpos := BitVec.ofNat 20 (s.hpos.toNat + l.length), hsym := sym, hacc := acc, ft := ft } := by
  have hN : headerLength s.nent ≤ 589818 := by have := s.nent.isLt; unfold headerLength; omega
  induction l generalizing s with
  | nil =>
    refine ⟨s.hsym, s.hacc, s.ft, ?_⟩
    have : s = { s with
        inq := rest, hpos := BitVec.ofNat 20 (s.hpos.toNat + ([] : List Byte).length), hsym := s.hsym,
        hacc := s.hacc, ft := s.ft } := by
      obtain ⟨⟩ := s
      simp only [byteTokens, List.map_nil, List.nil_append] at hq
      subst hq
      simp
    rw [← this]
    exact .refl s
  | cons b l ih =>
    simp only [List.length_cons] at hlt
    have hpos : (s.hpos + 1).toNat = s.hpos.toNat + 1 := toNat_hpos_succ (by omega)
    have key : ∃ sym acc ft, tick s = .next { s with
        inq := byteTokens l ++ rest, hpos := s.hpos + 1, hsym := sym, hacc := acc, ft := ft } := by
      rw [tick_hdr hb hw (b := b) (rest := byteTokens l ++ rest) hq]
      obtain ⟨n, hn⟩ : ∃ n, s.hpos.toNat = n + 3 := ⟨s.hpos.toNat - 3, by omega⟩
      match hm : n % 9 with
      | 0 =>
        have hpl : headerPlace s.hpos.toNat = .symbol := by rw [hn]; simp only [headerPlace, hm]
        exact ⟨b, 0, s.ft, by rw [hdrByte_symbol (by exact hpl)]⟩
      | j + 1 =>
        have hpl : headerPlace s.hpos.toNat = .count j := by rw [hn]; simp only [headerPlace, hm]
        by_cases hj : j = 7
        · subst hj
          refine ⟨s.hsym, addCountByte s.hacc b 7, tableSet s.ft s.hsym (addCountByte s.hacc b 7), ?_⟩
          rw [hdrByte_last (by exact hpl), hdrCheckEnd_more (by
            show (s.hpos + 1).toNat ≠ headerLength s.nent
            omega)]
        · exact ⟨s.hsym, addCountByte s.hacc b j, s.ft, by rw [hdrByte_count (by exact hpl) hj]⟩
    obtain ⟨sym, acc, ft, h1⟩ := key
    obtain ⟨sym', acc', ft', h2⟩ := ih (s := { s with
        inq := byteTokens l ++ rest, hpos := s.hpos + 1, hsym := sym, hacc := acc, ft := ft })
      hb hw (by show 3 ≤ (s.hpos + 1).toNat; omega)
      (by show (s.hpos + 1).toNat + l.length < headerLength s.nent; omega) rfl hN
    refine ⟨sym', acc', ft', ?_⟩
    have := Run.cons h1 h2
    rw [show s.hpos.toNat + (b :: l).length = (s.hpos + 1).toNat + l.length by rw [hpos, List.length_cons]; omega]
    exact this

/-- A stream without a byte (44 R134). -/
theorem run_trunc0 {s : State} {lo : Byte} {rest : List Token} (hb : s.status.busy = true) (hw : s.work = .hdr lo)
    (hq : s.inq = .eos :: rest) : Run 1 s (raiseCause .truncHdr { s with inq := rest }) :=
  .one (tick_truncated hb hw hq)

/-- A stream of one byte (44 R134). -/
theorem run_trunc1 {s : State} {p : Byte} {rest : List Token} (hb : s.status.busy = true) (hw : s.work = .hdr 0)
    (hp : s.hpos = 0) (hpad : p.toNat ≤ 7) (hq : s.inq = byteTokens [p] ++ .eos :: rest) :
    Run 2 s (raiseCause .truncHdr { s with inq := rest, hpos := 1, pad := p.setWidth 3 }) := by
  have h1 : tick s = .next { s with inq := .eos :: rest, hpos := 1, pad := p.setWidth 3 } := by
    rw [tick_hdr hb hw (b := p) (rest := .eos :: rest) hq]
    simp [hdrByte, hp, headerPlace, hdrPadding, decodePadding_ok hpad]
  exact .cons h1 (.one (tick_truncated (by exact hb) (by exact hw) rfl))

/-- A stream of two bytes (44 R134). -/
theorem run_trunc2 {s : State} {p lo : Byte} {rest : List Token} (hb : s.status.busy = true) (hw : s.work = .hdr 0)
    (hp : s.hpos = 0) (hpad : p.toNat ≤ 7) (hq : s.inq = byteTokens [p, lo] ++ .eos :: rest) :
    Run 3 s (raiseCause .truncHdr { s with inq := rest, hpos := 2, pad := p.setWidth 3, work := .hdr lo }) := by
  have h1 : tick s = .next { s with inq := byteTokens [lo] ++ .eos :: rest, hpos := 1, pad := p.setWidth 3 } := by
    rw [tick_hdr hb hw (b := p) (rest := byteTokens [lo] ++ .eos :: rest) hq]
    simp [hdrByte, hp, headerPlace, hdrPadding, decodePadding_ok hpad]
  have h2 : tick { s with inq := byteTokens [lo] ++ .eos :: rest, hpos := 1, pad := p.setWidth 3 } =
      .next { s with inq := .eos :: rest, hpos := 2, pad := p.setWidth 3, work := .hdr lo } := by
    rw [tick_hdr (lo := 0) (b := lo) (rest := .eos :: rest) (by exact hb) (by exact hw) rfl]
    rfl
  exact .cons h1 (.cons h2 (.one (tick_truncated (by exact hb) rfl rfl)))

/-- A stream that ends inside the entries or between two (44 R134). -/
theorem run_trunc {s : State} {p lo hi : Byte} {l : List Byte} {rest : List Token} (hb : s.status.busy = true)
    (hw : s.work = .hdr 0) (hp : s.hpos = 0) (hpad : p.toNat ≤ 7) (hl : l.length < 9 * (fromLE16 lo hi).toNat)
    (hq : s.inq = byteTokens (p :: lo :: hi :: l) ++ .eos :: rest) :
    ∃ sym acc ft, Run (l.length + 4) s (raiseCause .truncHdr { s with
      inq := rest, hpos := BitVec.ofNat 20 (3 + l.length), pad := p.setWidth 3, nent := fromLE16 lo hi,
      work := .hdr lo, hsym := sym, hacc := acc, ft := ft }) := by
  have h1 := run_headerStart (rest := byteTokens l ++ .eos :: rest) hb hw hp hpad (by simpa [byteTokens] using hq)
  generalize hN : fromLE16 lo hi = N at *
  rw [hdrCheckEnd_more (by
    show (3 : BitVec 20).toNat ≠ headerLength N
    rw [headerLength, show (3 : BitVec 20).toNat = 3 from rfl]; omega)] at h1
  obtain ⟨sym, acc, ft, h2⟩ := run_partial (l := l) (s := { s with
      inq := byteTokens l ++ .eos :: rest, hpos := 3, pad := p.setWidth 3, nent := N, work := .hdr lo })
    (lo := lo) (rest := .eos :: rest) hb rfl (by show 3 ≤ (3 : BitVec 20).toNat; decide)
    (by show (3 : BitVec 20).toNat + l.length < headerLength N
        rw [headerLength, show (3 : BitVec 20).toNat = 3 from rfl]; omega) rfl
  refine ⟨sym, acc, ft, ?_⟩
  have h3 := (h1.trans h2).snoc (tick_truncated (by exact hb) rfl rfl)
  rw [show l.length + 4 = 3 + l.length + 1 by omega]
  exact h3

/-- A padding byte above 7 (44 R131). -/
theorem run_badPad {s : State} {p : Byte} {rest : List Token} (hb : s.status.busy = true) (hw : s.work = .hdr 0)
    (hp : s.hpos = 0) (hpad : 7 < p.toNat) (hq : s.inq = .byte p :: rest) :
    Run 1 s (raiseCause .badPad { s with inq := rest, hpos := 1 }) := by
  refine .one ?_
  rw [tick_hdr hb hw hq]
  simp [hdrByte, hp, headerPlace, hdrPadding, decodePadding_bad hpad]

end Sys2Proof.Machine
end

