-- ==== Sys2Proof/Laws/Host.lean ====
section
/-! SUPPORT. The host's side: a turn of an idle block, commands discarded, and what a host act leaves of the block. -/

namespace Sys2Proof.Machine

/-- An idle block has no step at its turn (60 R194). -/
theorem turn_of_idle {s : State} (h : s.status.busy = false) : turn s = .next s := by
  unfold turn
  cases budget s <;> simp [drive, tick, h]

/-- An idle block has no step of its own either. -/
theorem ownTurn_of_idle {s : State} (h : s.status.busy = false) : ownTurn s = .next s :=
  drive_wait (tick_idle h) _

/-- With no host act pending, a step the sequencer has is taken, whatever the pace (60 R194). -/
theorem step_of_tick {s t : State} (h : s.host = []) (ht : tick s = .next t) : step s = drive (max 1 (budget s) - 1) t := by
  obtain ⟨n, hn⟩ : ∃ n, max 1 (budget s) = n + 1 := ⟨max 1 (budget s) - 1, by omega⟩
  simp only [step, advance, h, ownTurn, hn, drive_succ ht, Nat.add_sub_cancel]

/-- With no host act pending and a pace of at least one step, the step is the turn. -/
theorem step_of_pace {s : State} {n : Nat} (h : s.host = []) (hp : s.pace = some (n + 1)) : step s = drive (n + 1) s := by
  simp only [step, advance, h, ownTurn, budget, hp]
  rw [Nat.max_eq_right (by omega)]

/-- A command is discarded while the block takes none (45 R156, 70 R195). -/
theorem exec_discarded {i : Instr} {s : State} (hi : i.space = .command) (h : takesCommand s = false) :
    exec i s = .next s := by
  cases i <;> first
    | (simp [Instr.space] at hi; done)
    | simp [exec, execClr, execFreq, execBuild, execAssign, execPack, execHdr, execUnpack, execEnc, execDec, issue, h]

/-- A host act other than one on the reset input leaves the block's registers, tables and place in the pseudocode. -/
theorem hostAct_block {a : HostAct} (ha : ∀ v, a ≠ .resetInput v) (s : State) :
    ∃ (q : List Token) (k : Sink) (p : Option Nat) (d : BitVec 16),
      hostAct a s = { s with inq := q, sink := k, pace := p, rdata := d } := by
  cases a with
  | resetInput v => exact absurd rfl (ha v)
  | write _ _ | read _ | feed _ | drain | sinkReady _ | sinkFails _ | setPace _ => exact ⟨_, _, _, _, rfl⟩
  | takeSink | seekSink _ =>
    simp only [hostAct]
    split
    · exact ⟨_, _, _, _, rfl⟩
    · exact ⟨s.inq, s.sink, s.pace, s.rdata, rfl⟩

end Sys2Proof.Machine
end

