-- ==== Sys2Proof/Laws/Pack.lean ====
section
/-! SUPPORT. PACK: the bytes of a bit sequence (spec/43_bit_packer.md R128), the bit-packer as a function on bit
sequences (R117, R118, R121), the runs over the header (R114 to R116) and over the body (R119 to R122). -/

namespace Sys2Proof.Machine

/-! ### The bytes of a bit sequence -/

theorem getLsbD_foldl_bits (c : Nat → Bool) (l : List Nat) (acc : Byte) (i : Nat) (hi : i < 8) :
    (l.foldl (fun acc i => if c i then acc ||| BitVec.twoPow 8 i else acc) acc).getLsbD i =
      (acc.getLsbD i || (decide (i ∈ l) && c i)) := by
  induction l generalizing acc with
  | nil => simp
  | cons a l ih =>
    rw [List.foldl_cons, ih]
    by_cases ha : c a = true
    · by_cases hia : a = i
      · subst hia; simp [ha, hi]
      · have hia' : ¬ i = a := fun e => hia e.symm
        simp [ha, hia, hia']
    · by_cases hia : a = i
      · subst hia; simp [ha]
      · have hia' : ¬ i = a := fun e => hia e.symm
        simp [ha, hia']

/-- Bit `i` of byte `j` is bit `8j + i` of the sequence (43 R128). -/
theorem getLsbD_bodyByteAt (q : List Bool) (j i : Nat) (hi : i < 8) :
    (bodyByteAt q j).getLsbD i = q.getD (8 * j + i) false := by
  unfold bodyByteAt
  rw [getLsbD_foldl_bits (fun i => q.getD (8 * j + i) false) (List.range 8) 0 i hi]
  simp [hi]

theorem byte_ext {x y : Byte} (h : ∀ i < 8, x.getLsbD i = y.getLsbD i) : x = y :=
  BitVec.eq_of_getLsbD_eq h

theorem getLsbD_placeBit (acc : Byte) (nb : BitVec 3) (v : Bool) (i : Nat) (hi : i < 8) :
    (placeBit acc nb v).getLsbD i = (acc.getLsbD i || (v && decide (i = nb.toNat))) := by
  unfold placeBit
  cases v
  · simp
  · by_cases h : i < nb.toNat
    · have : ¬ i = nb.toNat := by omega
      simp [hi, h, this]
    · by_cases h2 : i = nb.toNat
      · subst h2; simp [hi]
      · have : i - nb.toNat ≠ 0 := by omega
        simp [hi, h, h2, this]

/-- The bit-packer on a bit sequence: completed bytes, and the partial byte with its number of bits. -/
def packStream : Byte → BitVec 3 → List Bool → List Byte × Byte × BitVec 3
  | acc, nb, [] => ([], acc, nb)
  | acc, nb, v :: r =>
    if nb = 7 then (placeBit acc nb v :: (packStream 0 0 r).1, (packStream 0 0 r).2)
    else packStream (placeBit acc nb v) (nb + 1) r

theorem packStream_append (acc : Byte) (nb : BitVec 3) (p q : List Bool) :
    packStream acc nb (p ++ q) =
      ((packStream acc nb p).1 ++ (packStream (packStream acc nb p).2.1 (packStream acc nb p).2.2 q).1,
        (packStream (packStream acc nb p).2.1 (packStream acc nb p).2.2 q).2) := by
  induction p generalizing acc nb with
  | nil => simp [packStream]
  | cons v r ih =>
    simp only [List.cons_append, packStream]
    split
    · simp [ih]
    · exact ih _ _

theorem getD_append_left (p r : List Bool) (k : Nat) (h : k < p.length) :
    (p ++ r).getD k false = p.getD k false := by
  simp [List.getD, List.getElem?_append_left h]

theorem getD_append_right (p r : List Bool) (k : Nat) : (p ++ r).getD (p.length + k) false = r.getD k false := by
  simp [List.getD, List.getElem?_append_right]

theorem bodyByteAt_nil : bodyByteAt [] 0 = 0 := by
  apply byte_ext
  intro i hi
  rw [getLsbD_bodyByteAt _ _ _ hi]
  simp

theorem placeBit_bodyByteAt (p : List Bool) (v : Bool) (h : p.length < 8) :
    placeBit (bodyByteAt p 0) (BitVec.ofNat 3 p.length) v = bodyByteAt (p ++ [v]) 0 := by
  apply byte_ext
  intro i hi
  rw [getLsbD_placeBit _ _ _ _ hi, getLsbD_bodyByteAt _ _ _ hi, getLsbD_bodyByteAt _ _ _ hi]
  have hl : (BitVec.ofNat 3 p.length).toNat = p.length := by simp; omega
  rw [hl, Nat.mul_zero, Nat.zero_add]
  rcases Nat.lt_trichotomy i p.length with hlt | heq | hgt
  · have : ¬ i = p.length := by omega
    simp [this, List.getD, List.getElem?_append_left hlt]
  · subst heq; simp [List.getD]
  · have h1 : ¬ i = p.length := by omega
    have h2 : (p ++ [v])[i]? = none := by rw [List.getElem?_eq_none]; simp; omega
    have h3 : p[i]? = none := by rw [List.getElem?_eq_none]; omega
    simp [h1, List.getD, h2, h3]

theorem bodyByteAt_append_zero (p r : List Bool) (h : p.length = 8) : bodyByteAt (p ++ r) 0 = bodyByteAt p 0 := by
  apply byte_ext
  intro i hi
  rw [getLsbD_bodyByteAt _ _ _ hi, getLsbD_bodyByteAt _ _ _ hi, getD_append_left _ _ _ (by omega)]

theorem bodyByteAt_append_succ (p r : List Bool) (h : p.length = 8) (j : Nat) :
    bodyByteAt (p ++ r) (j + 1) = bodyByteAt r j := by
  apply byte_ext
  intro i hi
  rw [getLsbD_bodyByteAt _ _ _ hi, getLsbD_bodyByteAt _ _ _ hi,
    show 8 * (j + 1) + i = p.length + (8 * j + i) by omega, getD_append_right]

/-- The packer's answer on a sequence: its whole bytes, and the rest of its bits (43 R117, R118). -/
theorem packStream_spec (p r : List Bool) (h : p.length < 8) :
    packStream (bodyByteAt p 0) (BitVec.ofNat 3 p.length) r =
      ((List.range ((p ++ r).length / 8)).map (bodyByteAt (p ++ r)), bodyByteAt (p ++ r) ((p ++ r).length / 8),
        BitVec.ofNat 3 ((p ++ r).length % 8)) := by
  induction r generalizing p with
  | nil =>
    have h0 : p.length / 8 = 0 := Nat.div_eq_of_lt h
    simp [packStream, h0, Nat.mod_eq_of_lt h]
  | cons v r ih =>
    unfold packStream
    rw [placeBit_bodyByteAt p v h]
    by_cases h7 : p.length = 7
    · have hp8 : (p ++ [v]).length = 8 := by simp [h7]
      have h7' : BitVec.ofNat 3 p.length = 7 := by rw [h7]; rfl
      rw [if_pos h7']
      have h0 := ih [] (by simp)
      rw [bodyByteAt_nil] at h0
      simp only [List.nil_append, List.length_nil] at h0
      rw [show (0 : BitVec 3) = BitVec.ofNat 3 0 from rfl, h0]
      have hq : p ++ v :: r = (p ++ [v]) ++ r := by simp
      have hl : (p ++ v :: r).length = r.length + 8 := by rw [hq, List.length_append, hp8]; omega
      rw [hl, Nat.add_div_right _ (by omega), Nat.add_mod_right, List.range_succ_eq_map]
      simp only [List.map_cons, List.map_map]
      rw [hq, bodyByteAt_append_zero _ _ hp8, bodyByteAt_append_succ _ _ hp8]
      congr 2
      apply List.map_congr_left
      intro j _
      exact (bodyByteAt_append_succ _ _ hp8 j).symm
    · have h7' : ¬ BitVec.ofNat 3 p.length = 7 := by
        intro e
        have := congrArg BitVec.toNat e
        simp at this; omega
      rw [if_neg h7']
      have hs : BitVec.ofNat 3 p.length + 1 = BitVec.ofNat 3 (p ++ [v]).length := by
        rw [List.length_append, List.length_singleton, BitVec.ofNat_add]; rfl
      rw [hs, ih (p ++ [v]) (by simp; omega)]
      simp

theorem packStream_zero (q : List Bool) :
    packStream 0 0 q = ((List.range (q.length / 8)).map (bodyByteAt q), bodyByteAt q (q.length / 8),
      BitVec.ofNat 3 (q.length % 8)) := by
  have := packStream_spec [] q (by simp)
  rw [bodyByteAt_nil] at this
  simpa using this

/-- The packer's whole bytes, and the partial one if there is one, are the bytes of the sequence (43 R121, R128). -/
theorem bodyBytes_eq (q : List Bool) :
    bodyBytes q = (packStream 0 0 q).1 ++ (if q.length % 8 = 0 then [] else [(packStream 0 0 q).2.1]) := by
  rw [packStream_zero, bodyBytes]
  split
  · next h =>
    rw [show (q.length + 7) / 8 = q.length / 8 by omega]; simp
  · next h =>
    rw [show (q.length + 7) / 8 = q.length / 8 + 1 by omega, List.range_succ]; simp

/-! ### The header -/

/-- The run over the header bytes (43 R115, R116). -/
theorem run_packHdr {bytes : List Byte} {s : State} (hb : s.status.busy = true) (hw : s.work = .packHdr bytes)
    (hne : bytes ≠ []) (hr : s.sink.ready = true) (hf : s.sink.fails = []) :
    Run bytes.length s (startBody { s with sink := appendAll s.sink bytes }) := by
  induction bytes generalizing s with
  | nil => exact absurd rfl hne
  | cons b rest ih =>
    cases rest with
    | nil =>
      refine .one ?_
      simp [tick, hb, hw, packHdrTick, writeStep_good hr hf, startBody]
    | cons c rest =>
      have h1 : tick s = .next { s with work := .packHdr (c :: rest), sink := s.sink.store s.sink.olen b } := by
        simp [tick, hb, hw, packHdrTick, writeStep_good hr hf]
      exact .cons h1 (ih (s := { s with work := .packHdr (c :: rest), sink := s.sink.store s.sink.olen b }) hb rfl
        (by simp) hr hf)

theorem headerTail_ne_nil (t : Table Count) : headerTail t ≠ [] := by simp [headerTail, le16]

theorem length_entryBytes (e : Byte × Count) : (entryBytes e).length = 9 := rfl

theorem length_headerTail (t : Table Count) : (headerTail t).length = 2 + 9 * keyCount t := by
  have : ∀ l : List (Byte × Count), (l.flatMap entryBytes).length = 9 * l.length := by
    intro l
    induction l with
    | nil => rfl
    | cons a l ih => rw [List.flatMap_cons, List.length_append, ih, length_entryBytes, List.length_cons]; omega
  rw [headerTail, List.length_append, this]
  simp [le16, keyCount]

/-- The run over placeholder and header (43 R114 to R116). -/
theorem run_packHeader {s : State} (hb : s.status.busy = true) (hw : s.work = .packStart)
    (hr : s.sink.ready = true) (hf : s.sink.fails = []) :
    Run (1 + (headerTail s.ft).length) s (startBody
      { s with nent := BitVec.ofNat 16 (keyCount s.ft), sink := appendAll s.sink (0x00#8 :: headerTail s.ft) }) := by
  have h1 : tick s = .next { s with nent := BitVec.ofNat 16 (keyCount s.ft), work := .packHdr (headerTail s.ft),
                                    sink := s.sink.store s.sink.olen 0x00#8 } := by
    simp [tick, hb, hw, packStartTick, writeStep_good hr hf]
  rw [Nat.add_comm]
  exact .cons h1 (run_packHdr (bytes := headerTail s.ft)
    (s := { s with nent := BitVec.ofNat 16 (keyCount s.ft), work := .packHdr (headerTail s.ft),
                   sink := s.sink.store s.sink.olen 0x00#8 }) hb rfl (headerTail_ne_nil _) hr hf)

/-! ### The body -/

/-- The run over the bits of a code word (43 R117, R118). -/
theorem run_packBits {bits : List Bool} {s : State} (hb : s.status.busy = true) (hw : s.work = packWork bits)
    (hr : s.sink.ready = true) (hf : s.sink.fails = []) :
    Run bits.length s { s with sink := appendAll s.sink (packStream s.acc s.nb bits).1,
                               acc := (packStream s.acc s.nb bits).2.1, nb := (packStream s.acc s.nb bits).2.2,
                               work := .packPull } := by
  induction bits generalizing s with
  | nil =>
    have : s = { s with sink := appendAll s.sink (packStream s.acc s.nb []).1,
                        acc := (packStream s.acc s.nb []).2.1, nb := (packStream s.acc s.nb []).2.2,
                        work := .packPull } := by
      obtain ⟨⟩ := s; simp only [packWork, ↓reduceIte] at hw; subst hw; rfl
    rw [← this]
    exact .refl s
  | cons v r ih =>
    have hw' : s.work = .packBits (v :: r) := by rw [hw]; simp [packWork]
    unfold packStream
    by_cases h7 : s.nb = 7
    · have h1 : tick s = .next { s with acc := 0, nb := 0, work := packWork r,
                                        sink := s.sink.store s.sink.olen (placeBit s.acc s.nb v) } := by
        simp [tick, hb, hw', packBitsTick, packBit, h7, writeStep_good hr hf]
      rw [if_pos h7]
      exact .cons h1 (ih (s := { s with acc := 0, nb := 0, work := packWork r,
                                        sink := s.sink.store s.sink.olen (placeBit s.acc s.nb v) }) hb rfl hr hf)
    · have h1 : tick s = .next { s with acc := placeBit s.acc s.nb v, nb := s.nb + 1, work := packWork r } := by
        have h7' : ¬ s.nb = 7#3 := h7
        simp [tick, hb, hw', packBitsTick, packBit, h7']
      rw [if_neg h7]
      exact .cons h1 (ih (s := { s with acc := placeBit s.acc s.nb v, nb := s.nb + 1, work := packWork r })
        hb rfl hr hf)

/-- The run over the bytes of the second pass, each with a code word (43 R119). -/
theorem run_packSymbols {l : List Byte} {s : State} {rest : List Token} (hb : s.status.busy = true)
    (hw : s.work = .packPull) (hr : s.sink.ready = true) (hf : s.sink.fails = [])
    (hc : ∀ b ∈ l, (tableGet s.ct b).isSome) (hi : s.inq = byteTokens l ++ rest) :
    Run (l.length + (inputBits s.ct l).length) s
      { s with inq := rest, sink := appendAll s.sink (packStream s.acc s.nb (inputBits s.ct l)).1,
               acc := (packStream s.acc s.nb (inputBits s.ct l)).2.1,
               nb := (packStream s.acc s.nb (inputBits s.ct l)).2.2 } := by
  induction l generalizing s with
  | nil =>
    have : s = { s with inq := rest, sink := appendAll s.sink (packStream s.acc s.nb (inputBits s.ct [])).1,
                        acc := (packStream s.acc s.nb (inputBits s.ct [])).2.1,
                        nb := (packStream s.acc s.nb (inputBits s.ct [])).2.2 } := by
      obtain ⟨⟩ := s; simp only [byteTokens, List.map_nil, List.nil_append] at hi; subst hi; rfl
    rw [← this]
    exact .refl s
  | cons a l ih =>
    obtain ⟨c, hca⟩ := Option.isSome_iff_exists.1 (hc a (by simp))
    have h1 : tick s = .next { s with inq := byteTokens l ++ rest, work := packWork c } := by
      have : s.inq = .byte a :: (byteTokens l ++ rest) := by simpa [byteTokens] using hi
      simp [tick, hb, hw, packPullTick, this, packToken, hca]
    have r1 := run_packBits (bits := c) (s := { s with inq := byteTokens l ++ rest, work := packWork c })
      hb rfl hr hf
    have r2 := ih (s := { s with inq := byteTokens l ++ rest, work := .packPull,
                                 sink := appendAll s.sink (packStream s.acc s.nb c).1,
                                 acc := (packStream s.acc s.nb c).2.1, nb := (packStream s.acc s.nb c).2.2 })
      hb rfl (by simpa using hr) (by simpa using hf) (fun b hb => hc b (by simp [hb])) rfl
    have := (Run.cons h1 r1).trans r2
    have hbits : inputBits s.ct (a :: l) = c ++ inputBits s.ct l := by simp [inputBits, hca]
    rw [hbits, packStream_append, appendAll_append, List.length_append]
    rw [show (a :: l).length + (c.length + (inputBits s.ct l).length) =
      c.length + 1 + (l.length + (inputBits s.ct l).length) by simp only [List.length_cons]; omega]
    simpa [hw] using this

theorem padOf_eq (n : Nat) : padOf (BitVec.ofNat 3 (n % 8)) = BitVec.ofNat 3 (padView n) := by
  have h : n % 8 < 8 := Nat.mod_lt _ (by omega)
  unfold padOf padView
  generalize n % 8 = k at h
  interval_cases k <;> rfl

theorem ofNat3_eq_zero (n : Nat) : (BitVec.ofNat 3 (n % 8) = 0) ↔ n % 8 = 0 := by
  have h : n % 8 < 8 := Nat.mod_lt _ (by omega)
  generalize n % 8 = k at h
  interval_cases k <;> decide

/-- The run over the second pass to the end actions: the body, the padding count, the rewrite of offset 0
(43 R119 to R122). -/
theorem run_packBody {l : List Byte} {s : State} {rest : List Token} (hb : s.status.busy = true)
    (hw : s.work = .packPull) (ha : s.acc = 0) (hn : s.nb = 0) (hr : s.sink.ready = true) (hf : s.sink.fails = [])
    (hc : ∀ b ∈ l, (tableGet s.ct b).isSome) (hi : s.inq = byteTokens l ++ .eos :: rest) :
    ∃ k, k ≤ l.length + (inputBits s.ct l).length + 3 ∧
      Run k s (endOk { s with
        inq := rest, pad := BitVec.ofNat 3 (padView (inputBits s.ct l).length), acc := 0, nb := 0,
        work := .packRewrite,
        sink := (appendAll s.sink (bodyBytes (inputBits s.ct l))).store 0
          (BitVec.ofNat 8 (padView (inputBits s.ct l).length)) }) := by
  have r1 := run_packSymbols (rest := .eos :: rest) hb hw hr hf hc hi
  rw [ha, hn] at r1
  generalize hq : inputBits s.ct l = q at r1 ⊢
  have hbody := bodyBytes_eq q
  have hps := packStream_zero q
  have hnb : (packStream 0 0 q).2.2 = BitVec.ofNat 3 (q.length % 8) := by rw [hps]
  have hpad8 : (BitVec.ofNat 3 (padView q.length)).setWidth 8 = BitVec.ofNat 8 (padView q.length) := by
    have h : padView q.length < 8 := Nat.mod_lt _ (by omega)
    generalize padView q.length = k at h
    interval_cases k <;> rfl
  by_cases h0 : q.length % 8 = 0
  · refine ⟨l.length + q.length + 1 + 1, by omega, ?_⟩
    rw [if_pos h0, List.append_nil] at hbody
    rw [hbody]
    have hnb0 : (packStream 0 0 q).2.2 = 0 := by rw [hnb, ofNat3_eq_zero]; exact h0
    have hacc0 : (packStream 0 0 q).2.1 = 0 := by
      rw [hps]
      apply byte_ext
      intro i hi
      rw [getLsbD_bodyByteAt _ _ _ hi, List.getD, List.getElem?_eq_none (by omega)]
      simp
    rw [hacc0, hnb0] at r1
    have h2 : tick { s with inq := .eos :: rest, sink := appendAll s.sink (packStream 0 0 q).1, acc := 0, nb := 0 } =
        .next { s with inq := rest, sink := appendAll s.sink (packStream 0 0 q).1, acc := 0, nb := 0,
                       pad := BitVec.ofNat 3 (padView q.length), work := .packRewrite } := by
      have : padOf 0#3 = BitVec.ofNat 3 (padView q.length) := by
        rw [← padOf_eq, (ofNat3_eq_zero _).2 h0]; rfl
      simp [tick, hb, hw, packPullTick, packToken, this]
    refine (r1.snoc h2).snoc ?_
    have hr' : (appendAll s.sink (packStream 0 0 q).1).ready = true := by simpa using hr
    have hf' : (appendAll s.sink (packStream 0 0 q).1).fails = [] := by simpa using hf
    simp [tick, hb, packRewriteTick, writeStep, Sink.put, hr, hf, hpad8, endOk]
  · refine ⟨l.length + q.length + 1 + 1 + 1, by omega, ?_⟩
    rw [if_neg h0] at hbody
    rw [hbody, appendAll_append]
    have hnb0 : ¬ (packStream 0 0 q).2.2 = 0 := by rw [hnb, ofNat3_eq_zero]; exact h0
    have h2 : tick { s with inq := .eos :: rest, sink := appendAll s.sink (packStream 0 0 q).1,
                            acc := (packStream 0 0 q).2.1, nb := (packStream 0 0 q).2.2 } =
        .next { s with inq := rest, sink := appendAll s.sink (packStream 0 0 q).1, acc := (packStream 0 0 q).2.1,
                       nb := (packStream 0 0 q).2.2, pad := BitVec.ofNat 3 (padView q.length),
                       work := .packTail } := by
      have : padOf (packStream 0 0 q).2.2 = BitVec.ofNat 3 (padView q.length) := by rw [hnb, padOf_eq]
      generalize packStream 0 0 q = z at this hnb0 ⊢
      have hne : ¬ z.2.2 = 0#3 := hnb0
      simp [tick, hb, hw, packPullTick, packToken, this, hne]
    have hr' : (appendAll s.sink (packStream 0 0 q).1).ready = true := by simpa using hr
    have hf' : (appendAll s.sink (packStream 0 0 q).1).fails = [] := by simpa using hf
    have h3 : tick { s with inq := rest, sink := appendAll s.sink (packStream 0 0 q).1,
                            acc := (packStream 0 0 q).2.1, nb := (packStream 0 0 q).2.2,
                            pad := BitVec.ofNat 3 (padView q.length), work := .packTail } =
        .next { s with inq := rest, sink := appendAll (appendAll s.sink (packStream 0 0 q).1) [(packStream 0 0 q).2.1],
                       acc := 0, nb := 0, pad := BitVec.ofNat 3 (padView q.length), work := .packRewrite } := by
      simp [tick, hb, packTailTick, writeStep, Sink.put, hr, hf]
    refine ((r1.snoc h2).snoc h3).snoc ?_
    simp [tick, hb, packRewriteTick, writeStep, Sink.put, hr, hf, hpad8, endOk]

end Sys2Proof.Machine
end

