-- ==== Sys2Proof/Laws/Invariant.lean ====
section
/-! SUPPORT. The invariant of Safety.lean under the named operations and under one step of the sequencer, and that a
step of the sequencer meets no fault where the invariant holds. -/

namespace Sys2Proof.Machine

/-! ### The sink -/

theorem MemInv.store {k : Sink} {off : Nat} {b : Byte}
    (h : memWf k.mem = true ∧ ∀ i, i < k.olen → memRead k.mem (k.base + i) ≠ none) :
    memWf (k.store off b).mem = true ∧
      ∀ i, i < (k.store off b).olen → memRead (k.store off b).mem ((k.store off b).base + i) ≠ none := by
  refine ⟨memWf_memWrite _ _ _ h.1, fun i hi => ?_⟩
  simp only [Sink.store_mem, Sink.store_base, Sink.store_olen, memRead_memWrite] at hi ⊢
  split
  · simp
  · refine h.2 i ?_
    split at hi <;> omega

theorem voidOutput_mem (k : Sink) (n : Nat) : (k.voidOutput n).mem = k.mem := by unfold Sink.voidOutput; split <;> rfl
theorem voidOutput_base (k : Sink) (n : Nat) : (k.voidOutput n).base = k.base := by
  unfold Sink.voidOutput; split <;> rfl
theorem voidOutput_olen (k : Sink) (n : Nat) : (k.voidOutput n).olen = k.olen := by
  unfold Sink.voidOutput; split <;> rfl

/-! ### Ends and starts -/

/-- A failure keeps the memory, the arena and the tree, and leaves the block idle. -/
theorem Inv.of_fail {s : State} (hm : MemInv s) (ha : ArenaInv s) (ht : TreeInv s) (c : Cause) :
    Inv (raiseCause c s) where
  status := ⟨rfl, by simp [raiseCause, Status.fail], by simp [raiseCause, Status.fail]⟩
  mem := by
    simp only [MemInv, raiseCause, voidSink, voidOutput_mem, voidOutput_base, voidOutput_olen] at hm ⊢
    exact hm
  arena := ha
  build := trivial
  tree := ht
  assign := trivial
  acc := trivial
  unpack := trivial

theorem Inv.fail {s : State} (h : Inv s) (c : Cause) : Inv (raiseCause c s) := .of_fail h.mem h.arena h.tree c

theorem Inv.finish {s : State} (h : Inv s) : Inv (endOk s) where
  status := ⟨rfl, by simp [endOk, Status.succeed], by simp [endOk, Status.succeed]⟩
  mem := h.mem
  arena := h.arena
  build := trivial
  tree := h.tree
  assign := trivial
  acc := trivial
  unpack := trivial

/-- What holds when an operation has begun, before its unit does. -/
structure Begun (s : State) : Prop where
  busy : s.status.busy = true
  undone : s.status.done = false
  notOk : s.status.ok = false
  mem : MemInv s
  arena : ArenaInv s
  tree : TreeInv s

theorem Inv.busy {s : State} (h : Inv s) (hw : s.work ≠ .rest) : s.status.busy = true := h.status.2.1.2 hw

theorem Inv.undone {s : State} (h : Inv s) (hw : s.work ≠ .rest) : s.status.done = false :=
  (h.status.2.2 (h.busy hw)).1

theorem Inv.notOk {s : State} (h : Inv s) (hw : s.work ≠ .rest) : s.status.ok = false :=
  (h.status.2.2 (h.busy hw)).2

theorem Inv.root_lt {s : State} (h : Inv s) (ht : s.status.treeV = true) : s.root.toNat < s.node.length := (h.tree ht).1

theorem Inv.begun {s : State} (h : Inv s) (hw : s.work ≠ .rest) : Begun s :=
  ⟨h.busy hw, h.undone hw, h.notOk hw, h.mem, h.arena, h.tree⟩

theorem Begun.startOp {s : State} (h : Inv s) (op : Op) : Begun (startOp s op) where
  busy := rfl
  undone := rfl
  notOk := rfl
  mem := by
    exact ⟨h.mem.1, fun _ hi => absurd hi (Nat.not_lt_zero _)⟩
  arena := h.arena
  tree := h.tree

theorem Begun.clearBlock {s : State} (h : Begun s) : Begun (clearBlock s) where
  busy := h.busy
  undone := h.undone
  notOk := h.notOk
  mem := h.mem
  arena := ⟨by simp [Machine.clearBlock], by simp [Machine.clearBlock]⟩
  tree := by intro e; simp [Machine.clearBlock, Status.clearForOp, Status.reset] at e

theorem StatusInv.of {s : State} (hb : s.status.busy = true) (hd : s.status.done = false) (ho : s.status.ok = false)
    (hp : s.status.phase = phaseOf s.work) (hw : s.work ≠ .rest) : StatusInv s :=
  ⟨hp, by simp [hb, hw], fun _ => ⟨hd, ho⟩⟩

theorem Begun.startFreq {s : State} (h : Begun s) : Inv (startFreq s) where
  status := .of h.busy h.undone h.notOk rfl (by simp [Machine.startFreq])
  mem := h.mem
  arena := h.arena
  build := trivial
  tree := by intro e; simp [Machine.startFreq, Status.clearAll] at e
  assign := trivial
  acc := trivial
  unpack := trivial

theorem Begun.startHdr {s : State} (h : Begun s) : Inv (startHdr s) where
  status := .of h.busy h.undone h.notOk rfl (by simp [Machine.startHdr])
  mem := h.mem
  arena := h.arena
  build := trivial
  tree := by intro e; simp [Machine.startHdr, Status.clearAll] at e
  assign := trivial
  acc := trivial
  unpack := trivial

theorem Begun.startBuild {s : State} (h : Begun s) : Inv (startBuild s) where
  status := .of h.busy h.undone h.notOk rfl (by simp [Machine.startBuild])
  mem := h.mem
  arena := ⟨by simp [Machine.startBuild], by simp [Machine.startBuild]⟩
  build := by
    refine ⟨rfl, ?_⟩
    simpa [Machine.startBuild] using length_entriesOf_le s.ft
  tree := by intro e; simp [Machine.startBuild, Status.clearTree] at e
  assign := trivial
  acc := trivial
  unpack := trivial

theorem Begun.startAssign {s : State} (h : Begun s) (ht : s.status.treeV = true) : Inv (startAssign s) where
  status := .of h.busy h.undone h.notOk rfl (by simp [Machine.startAssign])
  mem := h.mem
  arena := h.arena
  build := trivial
  tree := h.tree
  assign := ⟨(s.root, true), [], rfl, (h.tree ht).1, by simp⟩
  acc := trivial
  unpack := trivial

theorem Begun.startPack {s : State} (h : Begun s) : Inv (startPack s) where
  status := .of h.busy h.undone h.notOk rfl (by simp [Machine.startPack])
  mem := h.mem
  arena := h.arena
  build := trivial
  tree := h.tree
  assign := trivial
  acc := trivial
  unpack := trivial

theorem Begun.startUnpack {s : State} (h : Begun s) (ht : s.status.treeV = true) : Inv (startUnpack s) where
  status := .of h.busy h.undone h.notOk rfl (by simp [Machine.startUnpack])
  mem := h.mem
  arena := h.arena
  build := trivial
  tree := fun _ => ⟨(h.tree ht).1, (h.tree ht).1⟩
  assign := trivial
  acc := trivial
  unpack := ⟨ht, (h.tree ht).1⟩

/-! ### What follows a unit -/

theorem Inv.afterFreq {s : State} (h : Inv s) (hw : s.work ≠ .rest) : Inv (afterFreq s) := by
  unfold Machine.afterFreq
  split
  · exact (h.begun hw).startBuild
  · exact h.finish
  · exact h.finish

theorem Inv.afterBuild {s : State} (h : Inv s) (hw : s.work ≠ .rest) (ht : s.status.treeV = true) :
    Inv (afterBuild s) := by
  unfold Machine.afterBuild
  split
  · exact (h.begun hw).startAssign ht
  · exact (h.begun hw).startUnpack ht
  · exact h.finish

theorem Inv.afterAssign {s : State} (h : Inv s) (hw : s.work ≠ .rest) : Inv (afterAssign s) := by
  unfold Machine.afterAssign
  split
  · exact (h.begun hw).startPack
  · exact h.finish
  · exact h.finish

theorem Inv.afterHdr {s : State} (h : Inv s) (hw : s.work ≠ .rest) : Inv (afterHdr s) := by
  unfold Machine.afterHdr
  split
  · exact (h.begun hw).startBuild
  · exact h.finish
  · exact h.finish

/-! ### FREQ and HDR -/

theorem Inv.freqTick {s t : State} (h : Inv s) (hw : s.work = .freq) (ht : freqTick s = .next t) : Inv t := by
  unfold Machine.freqTick at ht
  split at ht
  · cases ht
  · next tok rest hq =>
    simp only [Tick.next.injEq] at ht
    subst ht
    cases tok with
    | byte b => exact ⟨h.status, h.mem, h.arena, h.build, h.tree, h.assign, h.acc, h.unpack⟩
    | eos =>
      refine Inv.afterFreq ?_ (by simp [hw])
      exact ⟨h.status, h.mem, h.arena, h.build, h.tree, h.assign, h.acc, h.unpack⟩

theorem Inv.hdrCheckEnd {s : State} (h : Inv s) (hw : s.work ≠ .rest) : Inv (hdrCheckEnd s) := by
  unfold Machine.hdrCheckEnd
  split
  · refine Inv.afterHdr ?_ hw
    exact ⟨h.status, h.mem, h.arena, h.build, h.tree, h.assign, h.acc, h.unpack⟩
  · exact h

/-- A state that HDR has only written its own fields of. -/
theorem Inv.hdrFields {s : State} (h : Inv s) {lo : Byte} (hw : s.work = .hdr lo) (lo' : Byte) (p : BitVec 3)
    (n : BitVec 16) (hp : BitVec 20) (sym : Byte) (acc : Count) (ft : Table Count) (q : List Token) :
    Inv { s with pad := p, nent := n, hpos := hp, hsym := sym, hacc := acc, ft := ft, inq := q, work := .hdr lo' } where
  status := by
    refine .of (h.busy (by simp [hw])) (h.undone (by simp [hw])) (h.notOk (by simp [hw])) ?_ (by simp)
    rw [show phaseOf (Work.hdr lo') = phaseOf s.work by rw [hw]; rfl]
    exact h.status.1
  mem := h.mem
  arena := h.arena
  build := trivial
  tree := h.tree
  assign := trivial
  acc := trivial
  unpack := trivial

theorem Inv.hdrByte {s : State} (h : Inv s) {lo : Byte} (hw : s.work = .hdr lo) (b : Byte) :
    Inv (hdrByte lo b s) := by
  have key := h.hdrFields hw
  have hs : ∀ {p n hp sym acc ft}, Inv { s with pad := p, nent := n, hpos := hp, hsym := sym, hacc := acc, ft := ft } := by
    intro p n hp sym acc ft
    have := key lo p n hp sym acc ft s.inq
    rw [← hw] at this
    exact this
  unfold Machine.hdrByte
  simp only
  split
  · unfold hdrPadding
    split
    · exact hs
    · exact Inv.fail hs _
  · exact key b _ _ _ _ _ _ _
  · exact Inv.hdrCheckEnd hs (by simp [hw])
  · exact hs
  · unfold hdrCount
    simp only
    split
    · exact Inv.hdrCheckEnd hs (by simp [hw])
    · exact hs

theorem Inv.hdrTick {s t : State} (h : Inv s) {lo : Byte} (hw : s.work = .hdr lo) (ht : hdrTick lo s = .next t) :
    Inv t := by
  unfold Machine.hdrTick at ht
  split at ht
  · cases ht
  · next rest hq =>
    simp only [Tick.next.injEq] at ht
    subst ht
    exact Inv.of_fail (s := { s with inq := rest }) h.mem h.arena h.tree _
  · next b rest hq =>
    simp only [Tick.next.injEq] at ht
    subst ht
    exact Inv.hdrByte (s := { s with inq := rest })
      ⟨h.status, h.mem, h.arena, h.build, h.tree, h.assign, h.acc, h.unpack⟩ hw b

/-! ### BUILD -/

theorem weightless_arena {ns : List Node} (h : ns.length ≤ 511 ∧ ∀ (i : Nat) (w : Count) (l r : Idx),
    ns[i]? = some (.internal w l r) → l.toNat < i ∧ r.toNat < i) (hlt : ns.length < 511) (n : Node)
    (hn : ∀ w l r, n = .internal w l r → l.toNat < ns.length ∧ r.toNat < ns.length) :
    (ns ++ [n]).length ≤ 511 ∧ ∀ (i : Nat) (w : Count) (l r : Idx),
      (ns ++ [n])[i]? = some (.internal w l r) → l.toNat < i ∧ r.toNat < i := by
  refine ⟨by simp only [List.length_append, List.length_singleton]; omega, ?_⟩
  intro i w l r hi
  by_cases hlt : i < ns.length
  · rw [List.getElem?_append_left hlt] at hi
    exact h.2 i w l r hi
  · rw [List.getElem?_append_right (by omega)] at hi
    have h0 : i - ns.length = 0 := by
      by_contra hne
      rw [List.getElem?_eq_none (by simp only [List.length_singleton]; omega)] at hi
      cases hi
    rw [h0] at hi
    simp only [List.getElem?_cons_zero, Option.some.injEq] at hi
    have := hn w l r hi
    omega

theorem Inv.leavesTick {s t : State} (h : Inv s) {keys : List (Byte × Count)} (hw : s.work = .leaves keys)
    (ht : leavesTick keys s = .next t) : Inv t := by
  have hb := h.build
  simp only [BuildInv, hw] at hb
  unfold Machine.leavesTick at ht
  split at ht
  · next k c rest =>
    simp only [Tick.next.injEq] at ht
    subst ht
    simp only [List.length_cons] at hb
    have hlt : s.node.length < 511 := by omega
    refine ⟨?_, h.mem, weightless_arena h.arena hlt _ (by simp), ?_, ?_, trivial, trivial, trivial⟩
    · refine .of (h.busy (by simp [hw])) (h.undone (by simp [hw])) (h.notOk (by simp [hw])) ?_ (by simp [addNode])
      have := h.status.1
      rw [hw] at this
      exact this
    · simp only [BuildInv, addNode]
      rw [liveNodes_add hlt]
      simp only [List.length_append, List.length_singleton]
      omega
    · intro e
      have := h.tree e
      simp only [addNode, List.length_append, List.length_singleton]
      omega
  · simp only at ht
    split at ht
    · simp only [Tick.next.injEq] at ht
      subst ht
      exact Inv.of_fail (s := { s with nleaf := BitVec.ofNat 9 s.node.length }) h.mem h.arena h.tree _
    · next hne =>
      simp only [Tick.next.injEq] at ht
      subst ht
      refine ⟨?_, h.mem, h.arena, ?_, h.tree, trivial, trivial, trivial⟩
      · refine .of (h.busy (by simp [hw])) (h.undone (by simp [hw])) (h.notOk (by simp [hw])) ?_ (by simp)
        have := h.status.1
        rw [hw] at this
        exact this
      · have : s.node.length ≠ 0 := fun e => hne (List.length_eq_zero_iff.1 e)
        simp only [BuildInv]
        omega

/-- Removing a live node leaves one fewer. -/
theorem length_liveNodes_clear {ns : List Node} (h : ns.length ≤ 511) {live : BitVec 511} {a : Nat}
    (ha : a ∈ liveNodes ns live) :
    (liveNodes ns (clearLive live a)).length + 1 = (liveNodes ns live).length := by
  have hp : (liveNodes ns live).Perm (a :: (liveNodes ns live).erase a) := List.perm_cons_erase ha
  have h1 := (liveNodes_clearLive_perm h hp).length_eq
  have h2 := hp.length_eq
  simp only [List.length_cons] at h2
  omega

/-- What one step of the merge loop comes to, where two nodes or more are live (41 R92). -/
theorem mergeTick_two {s : State} (hlen : s.node.length ≤ 511) (h2 : 2 ≤ (liveNodes s.node s.live).length) :
    ∃ a b, a < s.node.length ∧ b < s.node.length ∧
      (liveNodes s.node (clearLive (clearLive s.live a) b)).length + 2 = (liveNodes s.node s.live).length ∧
      mergeTick s = .next (addNode (mergeNode s.node a b) { s with live := clearLive (clearLive s.live a) b }) := by
  obtain ⟨a, ha, ham, _⟩ := argmin_spec s.node (l := liveNodes s.node s.live)
    (by intro e; rw [e] at h2; simp at h2)
  have hl1 := length_liveNodes_clear hlen ham
  obtain ⟨b, hb, hbm, _⟩ := argmin_spec s.node (l := liveNodes s.node (clearLive s.live a))
    (by intro e; rw [e] at hl1; simp at hl1; omega)
  have hl2 := length_liveNodes_clear hlen hbm
  refine ⟨a, b, (mem_liveNodes.1 ham).1, (mem_liveNodes.1 hbm).1, by omega, ?_⟩
  have e1 : argminLive s.node s.live = some a := ha
  have e2 : argminLive s.node (clearLive s.live a) = some b := hb
  unfold mergeTick
  match hl : liveNodes s.node s.live with
  | [] => rw [hl] at h2; simp at h2
  | [_] => rw [hl] at h2; simp at h2
  | _ :: _ :: _ => simp only [e1, e2]

/-- One live node ends BUILD (41 R95). -/
theorem mergeTick_one {s : State} (h1 : (liveNodes s.node s.live).length = 1) :
    ∃ r, r < s.node.length ∧
      mergeTick s = .next (afterBuild { s with
        root := BitVec.ofNat 9 r, cur := boundCursor s.nn s.cur, status := { s.status with treeV := true } }) := by
  obtain ⟨r, hr⟩ := List.length_eq_one_iff.1 h1
  refine ⟨r, (mem_liveNodes.1 (by rw [hr]; simp : r ∈ liveNodes s.node s.live)).1, ?_⟩
  simp only [mergeTick, hr]

theorem Inv.mergeTick {s : State} (h : Inv s) (hw : s.work = .merge) : ∃ t, mergeTick s = .next t ∧ Inv t := by
  have hb := h.build
  simp only [BuildInv, hw] at hb
  by_cases h1 : (liveNodes s.node s.live).length = 1
  · obtain ⟨r, hr, e⟩ := mergeTick_one h1
    refine ⟨_, e, ?_⟩
    refine Inv.afterBuild ?_ (by simp [hw]) rfl
    refine ⟨h.status, h.mem, h.arena, h.build, ?_, h.assign, h.acc, ?_⟩
    · intro _
      have := h.arena.1
      refine ⟨?_, boundCursor_lt (Nat.zero_lt_of_lt hr) _⟩
      show (BitVec.ofNat 9 r).toNat < s.node.length
      rw [BitVec.toNat_ofNat, Nat.mod_eq_of_lt (by omega)]
      exact hr
    · simp [UnpackInv, hw]
  · obtain ⟨a, b, ha, hbl, hl, e⟩ := mergeTick_two h.arena.1 (by omega)
    have hlt : s.node.length < 511 := by omega
    refine ⟨_, e, ?_, h.mem, ?_, ?_, ?_, ?_, ?_, ?_⟩
    · exact h.status
    · refine weightless_arena h.arena hlt _ ?_
      intro w l r hn
      simp only [mergeNode, Node.internal.injEq] at hn
      obtain ⟨-, rfl, rfl⟩ := hn
      simp only [BitVec.toNat_ofNat]
      omega
    · simp only [BuildInv, addNode, hw]
      rw [liveNodes_add hlt]
      simp only [List.length_append, List.length_singleton]
      omega
    · intro e
      have := h.tree e
      simp only [addNode, List.length_append, List.length_singleton]
      omega
    · simp [AssignInv, addNode, hw]
    · simp [AccInv, addNode, hw]
    · simp [UnpackInv, addNode, hw]

/-! ### ASSIGN -/

theorem Inv.visitTick {s : State} (h : Inv s) (hw : s.work = .visit) : ∃ t, visitTick s = .next t ∧ Inv t := by
  have ha := h.assign
  simp only [AssignInv, hw] at ha
  obtain ⟨⟨i, m⟩, below, hs, hi, hbelow⟩ := ha
  obtain ⟨n, hn⟩ : ∃ n, s.node[i.toNat]? = some n := ⟨_, List.getElem?_eq_getElem hi⟩
  unfold Machine.visitTick
  simp only [hs, hn]
  cases n with
  | leaf sym w =>
    refine ⟨_, rfl, ?_, h.mem, h.arena, trivial, h.tree, hbelow, trivial, trivial⟩
    refine .of (h.busy (by simp [hw])) (h.undone (by simp [hw])) (h.notOk (by simp [hw])) ?_ (by simp)
    have := h.status.1
    rw [hw] at this
    exact this
  | internal w l r =>
    refine ⟨_, rfl, h.status, h.mem, h.arena, h.build, h.tree, ?_, h.acc, h.unpack⟩
    have := h.arena.2 _ _ _ _ hn
    simp only [AssignInv, hw]
    refine ⟨_, _, rfl, Nat.lt_trans this.1 hi, ?_⟩
    intro e he
    rcases List.mem_cons.1 he with rfl | he
    · exact ⟨w, l, r, hn⟩
    · exact hbelow e he

theorem Inv.unwindTick {s : State} (h : Inv s) (hw : s.work = .unwind) : ∃ t, unwindTick s = .next t ∧ Inv t := by
  have ha := h.assign
  simp only [AssignInv, hw] at ha
  unfold Machine.unwindTick
  match hs : s.stk with
  | [] =>
    refine ⟨_, rfl, Inv.afterAssign ?_ (show s.work ≠ .rest by simp [hw])⟩
    exact ⟨h.status, h.mem, h.arena, h.build, h.tree, by simp [AssignInv, hw], h.acc, h.unpack⟩
  | (i, true) :: below =>
    rw [hs] at ha
    obtain ⟨w, l, r, hn⟩ := ha (i, true) (by simp)
    simp only [hn]
    have hlt : i.toNat < s.node.length := by
      by_contra hge
      rw [List.getElem?_eq_none (by simpa using hge)] at hn
      cases hn
    have := h.arena.2 _ _ _ _ hn
    refine ⟨_, rfl, ?_, h.mem, h.arena, trivial, h.tree, ?_, trivial, trivial⟩
    · refine .of (h.busy (by simp [hw])) (h.undone (by simp [hw])) (h.notOk (by simp [hw])) ?_ (by simp)
      have := h.status.1
      rw [hw] at this
      exact this
    · refine ⟨_, _, rfl, Nat.lt_trans this.2 hlt, ?_⟩
      intro e he
      rcases List.mem_cons.1 he with rfl | he
      · exact ⟨w, l, r, hn⟩
      · exact ha e (by simp [he])
  | (i, false) :: below =>
    rw [hs] at ha
    refine ⟨_, rfl, h.status, h.mem, h.arena, h.build, h.tree, ?_, h.acc, h.unpack⟩
    simp only [AssignInv, hw]
    exact fun e he => ha e (by simp [he])

/-! ### Writes to the sink -/

/-- A step that writes to the sink keeps the invariant, if the states after the write and at its failure have it, the
write aside. -/
theorem Inv.writeStep {s : State} {off : Nat} {b : Byte} {good bad t : State} (hm : MemInv s)
    (hg : ∀ k : Sink, MemInv { good with sink := k } → Inv { good with sink := k })
    (hba : ArenaInv bad) (hbt : TreeInv bad)
    (ht : writeStep s off b good bad = .next t) : Inv t := by
  rcases writeStep_cases s off b good bad with ⟨_, e⟩ | ⟨r, _, e⟩ | ⟨_, e⟩
  · rw [e] at ht; cases ht
  · rw [e] at ht
    cases ht
    exact Inv.of_fail (s := { bad with sink := { s.sink with fails := r } }) hm hba hbt _
  · rw [e] at ht
    cases ht
    refine hg _ ?_
    exact MemInv.store (k := { s.sink with fails := s.sink.fails.tail }) hm

/-- The invariant with another sink. -/
theorem Inv.withSink {s : State} (h : Inv s) {k : Sink} (hk : MemInv { s with sink := k }) : Inv { s with sink := k } :=
  ⟨h.status, hk, h.arena, h.build, h.tree, h.assign, h.acc, h.unpack⟩

/-! ### PACK -/

/-- PACK at another place of its pseudocode. -/
theorem Inv.packAt {s : State} (h : Inv s) (hw : s.work ≠ .rest) {w : Work} {acc : Byte} {nb : BitVec 3} {p : BitVec 3}
    {n : BitVec 16} {q : List Token} {ph : Phase}
    (hp : ph = phaseOf w) (hpk : phaseOf w = .packHdr ∨ phaseOf w = .packBody)
    (ha : w = .packRewrite ∨ phaseOf w = .packHdr ∨ acc.toNat < 2 ^ nb.toNat) :
    Inv { s with status := { s.status with phase := ph }, work := w, acc := acc, nb := nb, pad := p, nent := n,
                 inq := q } where
  status := by
    refine .of (h.busy hw) (h.undone hw) (h.notOk hw) hp ?_
    rintro rfl
    simp [phaseOf] at hpk
  mem := h.mem
  arena := h.arena
  build := by cases w <;> simp_all [phaseOf, BuildInv]
  tree := h.tree
  assign := by cases w <;> simp_all [phaseOf, AssignInv]
  acc := by cases w <;> simp_all [phaseOf, AccInv]
  unpack := by cases w <;> simp_all [phaseOf, UnpackInv]

theorem placeBit_lt {acc : Byte} {nb : BitVec 3} {v : Bool} (h : acc.toNat < 2 ^ nb.toNat) :
    (placeBit acc nb v).toNat < 2 ^ (nb.toNat + 1) := by
  have hn := nb.isLt
  unfold placeBit
  rw [BitVec.toNat_or]
  refine Nat.or_lt_two_pow ?_ ?_
  · exact lt_of_lt_of_le h (Nat.pow_le_pow_right (by omega) (by omega))
  · rw [BitVec.toNat_shiftLeft, Nat.shiftLeft_eq]
    refine lt_of_le_of_lt (Nat.mod_le _ _) ?_
    have hp : 0 < 2 ^ nb.toNat := Nat.pow_pos (by omega)
    cases v <;> simp [Nat.pow_succ]

theorem phaseOf_packWork (bits : List Bool) : phaseOf (packWork bits) = .packBody := by
  unfold packWork; split <;> rfl

theorem Inv.phase_eq {s : State} (h : Inv s) {w : Work} (hw : s.work = w) : s.status.phase = phaseOf w := by
  rw [← hw]; exact h.status.1

theorem Inv.startBody {s : State} (h : Inv s) (hw : s.work ≠ .rest) : Inv (startBody s) :=
  h.packAt hw (w := .packPull) (acc := 0) (nb := 0) (p := s.pad) (n := s.nent) (q := s.inq) rfl (.inr rfl)
    (.inr (.inr (by decide)))

theorem Inv.packStartTick {s t : State} (h : Inv s) (hw : s.work = .packStart) (ht : packStartTick s = .next t) :
    Inv t := by
  refine Inv.writeStep h.mem (fun k hk => ?_) h.arena h.tree ht
  have := (h.withSink (k := k) hk).packAt (w := .packHdr (headerTail s.ft)) (acc := s.acc) (nb := s.nb) (p := s.pad)
    (n := BitVec.ofNat 16 (keyCount s.ft)) (q := s.inq) (ph := s.status.phase) (by simp [hw])
    ((h.phase_eq hw).trans rfl) (.inl rfl) (.inr (.inl rfl))
  exact this

theorem Inv.packHdrTick {s t : State} (h : Inv s) {bytes : List Byte} (hw : s.work = .packHdr bytes)
    (ht : packHdrTick bytes s = .next t) : Inv t := by
  unfold Machine.packHdrTick at ht
  split at ht
  · cases ht
    exact h.startBody (by simp [hw])
  · exact Inv.writeStep (good := Machine.startBody s) (bad := s) h.mem
      (fun k hk => (h.withSink (k := k) hk).startBody (show s.work ≠ .rest by simp [hw])) h.arena h.tree ht
  · next b rest _ =>
    refine Inv.writeStep h.mem (fun k hk => ?_) h.arena h.tree ht
    exact (h.withSink (k := k) hk).packAt (w := .packHdr rest) (acc := s.acc) (nb := s.nb) (p := s.pad)
      (n := s.nent) (q := s.inq) (ph := s.status.phase) (by simp [hw]) ((h.phase_eq hw).trans rfl) (.inl rfl) (.inr (.inl rfl))

theorem Inv.packToken {s : State} (h : Inv s) (hw : s.work = .packPull) (t : Token) (rest : List Token) :
    Inv (packToken t { s with inq := rest }) := by
  have ha := h.acc
  simp only [AccInv, hw] at ha
  have hne : s.work ≠ .rest := by simp [hw]
  have h0 : Inv { s with inq := rest } := ⟨h.status, h.mem, h.arena, h.build, h.tree, h.assign, h.acc, h.unpack⟩
  cases t with
  | byte b =>
    simp only [Machine.packToken]
    split
    · exact h0.fail _
    · next c _ =>
      exact h.packAt hne (w := packWork c) (acc := s.acc) (nb := s.nb) (p := s.pad) (n := s.nent) (q := rest)
        (ph := s.status.phase) (by rw [phaseOf_packWork, h.phase_eq hw]; rfl) (.inr (phaseOf_packWork c))
        (.inr (.inr ha))
  | eos =>
    simp only [Machine.packToken]
    split
    · exact h.packAt hne (w := .packRewrite) (acc := s.acc) (nb := s.nb) (p := padOf s.nb) (n := s.nent) (q := rest)
        (ph := s.status.phase) ((h.phase_eq hw).trans rfl) (.inr rfl) (.inl rfl)
    · exact h.packAt hne (w := .packTail) (acc := s.acc) (nb := s.nb) (p := padOf s.nb) (n := s.nent) (q := rest)
        (ph := s.status.phase) ((h.phase_eq hw).trans rfl) (.inr rfl) (.inr (.inr ha))

theorem Inv.packBit {s t : State} (h : Inv s) {bits : List Bool} (hw : s.work = .packBits bits) (v : Bool)
    (rest : List Bool) (ht : packBit v rest s = .next t) : Inv t := by
  have ha := h.acc
  simp only [AccInv, hw] at ha
  have hne : s.work ≠ .rest := by simp [hw]
  unfold Machine.packBit at ht
  simp only at ht
  split at ht
  · refine Inv.writeStep (bad := { s with acc := placeBit s.acc s.nb v, nb := 0 }) h.mem
      (fun k hk => ?_) h.arena h.tree ht
    exact (h.withSink (k := k) hk).packAt hne (w := packWork rest) (acc := 0) (nb := 0) (p := s.pad) (n := s.nent)
        (q := s.inq) (ph := s.status.phase) (by rw [phaseOf_packWork]; exact h.phase_eq hw)
        (.inr (phaseOf_packWork rest)) (.inr (.inr (by decide)))
  · next h7 =>
    cases ht
    refine h.packAt hne (w := packWork rest) (acc := placeBit s.acc s.nb v) (nb := s.nb + 1) (p := s.pad) (n := s.nent)
        (q := s.inq) (ph := s.status.phase) (by rw [phaseOf_packWork]; exact h.phase_eq hw)
        (.inr (phaseOf_packWork rest)) (.inr (.inr ?_))
    have h7' : s.nb.toNat ≠ 7 := fun e => h7 (BitVec.eq_of_toNat_eq e)
    have hn := s.nb.isLt
    rw [BitVec.toNat_add, show (1 : BitVec 3).toNat = 1 from rfl, Nat.mod_eq_of_lt (by omega)]
    exact placeBit_lt ha

theorem Inv.packBitsTick {s t : State} (h : Inv s) {bits : List Bool} (hw : s.work = .packBits bits)
    (ht : packBitsTick bits s = .next t) : Inv t := by
  have ha := h.acc
  simp only [AccInv, hw] at ha
  unfold Machine.packBitsTick at ht
  split at ht
  · cases ht
    exact h.packAt (by simp [hw]) (w := .packPull) (acc := s.acc) (nb := s.nb) (p := s.pad) (n := s.nent) (q := s.inq)
      (ph := s.status.phase) ((h.phase_eq hw).trans rfl) (.inr rfl) (.inr (.inr ha))
  · exact h.packBit hw _ _ ht

theorem Inv.packTailTick {s t : State} (h : Inv s) (hw : s.work = .packTail) (ht : packTailTick s = .next t) :
    Inv t := by
  refine Inv.writeStep h.mem (fun k hk => ?_) h.arena h.tree ht
  exact (h.withSink (k := k) hk).packAt (show s.work ≠ .rest by simp [hw]) (w := .packRewrite) (acc := 0) (nb := 0)
    (p := s.pad) (n := s.nent) (q := s.inq) (ph := s.status.phase) ((h.phase_eq hw).trans rfl) (.inr rfl) (.inl rfl)

theorem Inv.packRewriteTick {s t : State} (h : Inv s) (ht : packRewriteTick s = .next t) : Inv t :=
  Inv.writeStep (good := endOk s) h.mem (fun k hk => (h.withSink (k := k) hk).finish) h.arena h.tree ht

/-! ### UNPACK -/

theorem Inv.unpackEnd {s : State} (h : Inv s) : Inv (unpackEnd s) := by
  have h1 : ∀ d, Inv { s with status := { s.status with dangling := d } } :=
    fun d => ⟨h.status, h.mem, h.arena, h.build, h.tree, h.assign, h.acc, h.unpack⟩
  unfold Machine.unpackEnd
  simp only
  split
  · exact (h1 _).fail _
  · exact (h1 _).finish

/-- UNPACK at another place of its pseudocode. -/
theorem Inv.unpackAt {s : State} (h : Inv s) (hp : s.status.phase = .unpack) (hw : s.work ≠ .rest) {w : Work} {c : Idx}
    {hd : Option Byte} {q : List Token} {k : Sink} (hk : MemInv { s with sink := k }) (hpw : phaseOf w = .unpack)
    (ht : s.status.treeV = true) (hc : c.toNat < s.node.length) :
    Inv { s with cur := c, hold := hd, inq := q, sink := k, work := w } where
  status := by
    refine .of (h.busy hw) (h.undone hw) (h.notOk hw) (by rw [hp, hpw]) ?_
    rintro rfl
    cases hpw
  mem := hk
  arena := h.arena
  build := by cases w <;> simp_all [phaseOf, BuildInv]
  tree := fun _ => ⟨h.root_lt ht, hc⟩
  assign := by cases w <;> simp_all [phaseOf, AssignInv]
  acc := by cases w <;> simp_all [phaseOf, AccInv]
  unpack := by cases w <;> simp_all [phaseOf, UnpackInv]

theorem Inv.walkFrom {s : State} (h : Inv s) (hp : s.status.phase = .unpack) (hw : s.work ≠ .rest)
    (ht : s.status.treeV = true) (hc : s.cur.toNat < s.node.length) (bits : List Bool) (next : Option Byte) :
    Inv (walkFrom bits next s) := by
  unfold Machine.walkFrom
  split
  · unfold walkEnd
    split
    · exact h.unpackAt hp hw (k := s.sink) (q := s.inq) (c := s.cur) h.mem rfl ht hc
    · have := h.unpackAt hp hw (k := s.sink) (q := s.inq) (c := s.cur) (hd := none) (w := .pull) h.mem rfl ht hc
      have h2 : Inv { s with hold := none, work := .pull } := this
      have h3 : Machine.unpackEnd { s with hold := none } = Machine.unpackEnd { s with hold := none, work := .pull } := by
        simp [Machine.unpackEnd, raiseCause, endOk, voidSink]
      rw [h3]
      exact h2.unpackEnd
  · exact h.unpackAt hp hw (k := s.sink) (q := s.inq) (c := s.cur) (hd := s.hold) h.mem rfl ht hc

theorem Inv.unpackToken {s : State} (h : Inv s) (hw : s.work = .pull) (t : Token) (rest : List Token) :
    Inv (unpackToken t { s with inq := rest }) := by
  have hu := h.unpack
  simp only [UnpackInv, hw] at hu
  have hp : s.status.phase = .unpack := (h.phase_eq hw).trans rfl
  have hne : s.work ≠ .rest := by simp [hw]
  have h0 : Inv { s with inq := rest } := ⟨h.status, h.mem, h.arena, h.build, h.tree, h.assign, h.acc, h.unpack⟩
  unfold Machine.unpackToken
  split
  · exact ⟨h.status, h.mem, h.arena, h.build, h.tree, h.assign, h.acc, h.unpack⟩
  · exact h0.walkFrom hp hne hu.1 hu.2 _ _
  · exact h0.unpackEnd
  · exact h0.walkFrom hp hne hu.1 hu.2 _ _

theorem Inv.walkBit {s : State} (h : Inv s) {bits : List Bool} {nx : Option Byte} (hw : s.work = .walk bits nx)
    (v : Bool) (rest : List Bool) (next : Option Byte) :
    (∀ f, walkBit v rest next s ≠ .fault f) ∧ ∀ t, walkBit v rest next s = .next t → Inv t := by
  have hu := h.unpack
  simp only [UnpackInv, hw] at hu
  have hp : s.status.phase = .unpack := (h.phase_eq hw).trans rfl
  have hne : s.work ≠ .rest := by simp [hw]
  obtain ⟨n, hn⟩ : ∃ n, s.node[s.cur.toNat]? = some n := ⟨_, List.getElem?_eq_getElem hu.2⟩
  unfold Machine.walkBit
  simp only [hn]
  cases n with
  | leaf sym w =>
    simp only
    refine ⟨by simp, ?_⟩
    intro t ht
    cases ht
    exact h.fail _
  | internal w l r =>
    simp only
    have hlr := h.arena.2 _ _ _ _ hn
    have hch : (if v then r else l).toNat < s.node.length := by cases v <;> simp <;> omega
    generalize (if v then r else l) = c at hch
    obtain ⟨m, hm⟩ : ∃ m, s.node[c.toNat]? = some m := ⟨_, List.getElem?_eq_getElem hch⟩
    simp only [hm]
    cases m with
    | internal w' l' r' =>
      simp only
      refine ⟨by simp, ?_⟩
      intro t ht
      cases ht
      exact Inv.walkFrom (s := { s with cur := c })
        (h.unpackAt hp hne (k := s.sink) (q := s.inq) (c := c) (hd := s.hold) (w := s.work) h.mem
          (by rw [hw]; rfl) hu.1 hch) hp hne hu.1 hch _ _
    | leaf sym w' =>
      simp only
      rcases s.sink.put_cases s.sink.olen sym with ⟨_, e⟩ | ⟨r, _, _, e⟩ | ⟨_, _, e⟩
      · simp [e]
      · rw [e]
        simp only
        refine ⟨by simp, ?_⟩
        intro t ht
        cases ht
        exact Inv.of_fail (s := { s with cur := c, sink := { s.sink with fails := r } }) h.mem h.arena
          (fun _ => ⟨h.root_lt hu.1, hch⟩) _
      · rw [e]
        simp only
        refine ⟨by simp, ?_⟩
        intro t ht
        cases ht
        have hm' : MemInv { s with sink := { s.sink with fails := s.sink.fails.tail }.store s.sink.olen sym } :=
          MemInv.store (k := { s.sink with fails := s.sink.fails.tail }) h.mem
        exact Inv.walkFrom
          (s := { s with cur := s.root, sink := { s.sink with fails := s.sink.fails.tail }.store s.sink.olen sym })
          (h.unpackAt hp hne (q := s.inq) (c := s.root) (hd := s.hold) (w := s.work) hm'
            (by rw [hw]; rfl) hu.1 (h.root_lt hu.1)) hp hne hu.1 (h.root_lt hu.1) _ _

/-! ### One step of the sequencer -/

/-- One step of the sequencer keeps the invariant, and meets no fault. -/
theorem tick_inv {s : State} (h : Inv s) : (∀ f, tick s ≠ .fault f) ∧ ∀ t, tick s = .next t → Inv t := by
  have hws : ∀ {off b good bad f}, writeStep s off b good bad ≠ .fault f := by
    intro off b good bad f
    rcases writeStep_cases s off b good bad with ⟨_, e⟩ | ⟨r, _, e⟩ | ⟨_, e⟩ <;> simp [e]
  unfold tick
  split
  · split
    · exact ⟨by simp, by simp⟩
    · next hw =>
      exact ⟨by intro f; unfold Machine.freqTick; split <;> simp, fun t ht => h.freqTick hw ht⟩
    · next keys hw =>
      exact ⟨by intro f; unfold Machine.leavesTick; split <;> [skip; simp only] <;> [skip; split] <;> simp,
        fun t ht => h.leavesTick hw ht⟩
    · next hw =>
      obtain ⟨u, hu, hi⟩ := h.mergeTick hw
      rw [hu]
      exact ⟨by simp, fun t ht => by cases ht; exact hi⟩
    · next hw =>
      obtain ⟨u, hu, hi⟩ := h.visitTick hw
      rw [hu]
      exact ⟨by simp, fun t ht => by cases ht; exact hi⟩
    · next hw =>
      obtain ⟨u, hu, hi⟩ := h.unwindTick hw
      rw [hu]
      exact ⟨by simp, fun t ht => by cases ht; exact hi⟩
    · next hw => exact ⟨fun f => hws, fun t ht => h.packStartTick hw ht⟩
    · next bytes hw =>
      exact ⟨by intro f; unfold Machine.packHdrTick; split <;> [simp; exact hws; exact hws],
        fun t ht => h.packHdrTick hw ht⟩
    · next hw =>
      refine ⟨by intro f; unfold packPullTick; split <;> simp, fun t ht => ?_⟩
      unfold packPullTick at ht
      split at ht
      · cases ht
      · cases ht; exact h.packToken hw _ _
    · next bits hw =>
      refine ⟨?_, fun t ht => h.packBitsTick hw ht⟩
      intro f
      unfold Machine.packBitsTick
      split
      · simp
      · unfold Machine.packBit
        simp only
        split
        · exact hws
        · simp
    · next hw => exact ⟨fun f => hws, fun t ht => h.packTailTick hw ht⟩
    · next hw => exact ⟨fun f => hws, fun t ht => h.packRewriteTick ht⟩
    · next lo hw =>
      exact ⟨by intro f; unfold Machine.hdrTick; split <;> simp, fun t ht => h.hdrTick hw ht⟩
    · next hw =>
      refine ⟨by intro f; unfold pullTick; split <;> simp, fun t ht => ?_⟩
      unfold pullTick at ht
      split at ht
      · cases ht
      · cases ht; exact h.unpackToken hw _ _
    · next bits next hw =>
      unfold walkTick
      split
      · have hu := h.unpack
        simp only [UnpackInv, hw] at hu
        refine ⟨by simp, fun t ht => ?_⟩
        cases ht
        have := h.walkFrom ((h.phase_eq hw).trans rfl) (by simp [hw]) hu.1 hu.2 [] next
        exact this
      · exact h.walkBit hw _ _ _
  · exact ⟨by simp, by simp⟩

end Sys2Proof.Machine
end

