-- ==== Sys2Proof/Laws/PerInstr.lean ====
section
/-! SUPPORT. Laws stated of every instruction, one lemma per constructor. `Extent`: how many bytes an instruction's
encoding has, which its space alone decides (spec/30_encoding.md R60, R63 to R68). -/

namespace Sys2Proof.Laws.Extent

/-- The bytes of an instruction of a space. -/
def bytesIn : Space → Nat
  | .command | .padding | .body | .codeBit => 1
  | .entryCount => 2
  | .entry => 9

/-- The encoding has exactly the bytes of its space, and the decoder asks for no fewer. -/
def Statement (i : Instr) : Prop :=
  (encode i).length = bytesIn i.space ∧ decode i.space ((encode i).take (bytesIn i.space - 1)) = .error .truncated

theorem clr : Statement .clr := ⟨rfl, rfl⟩

theorem freq : Statement .freq := ⟨rfl, rfl⟩

theorem build : Statement .build := ⟨rfl, rfl⟩

theorem assign : Statement .assign := ⟨rfl, rfl⟩

theorem pack : Statement .pack := ⟨rfl, rfl⟩

theorem hdr : Statement .hdr := ⟨rfl, rfl⟩

theorem unpack : Statement .unpack := ⟨rfl, rfl⟩

theorem enc : Statement .enc := ⟨rfl, rfl⟩

theorem dec : Statement .dec := ⟨rfl, rfl⟩

theorem paddingCount (p : Byte) : Statement (.paddingCount p) := ⟨rfl, rfl⟩

theorem entryCount (n : BitVec 16) : Statement (.entryCount n) := ⟨rfl, rfl⟩

theorem entry (sym : Byte) (count : Count) : Statement (.entry sym count) := ⟨rfl, rfl⟩

theorem bodyByte (b : Byte) : Statement (.bodyByte b) := ⟨rfl, rfl⟩

theorem codeBit (v : Bool) : Statement (.codeBit v) := ⟨rfl, rfl⟩

end Sys2Proof.Laws.Extent
end

