-- ==== Sys2Proof/Laws/Unpack.lean ====
section
/-! SUPPORT. UNPACK: one bit examined on a tree of the arena (spec/44_bit_unpacker.md R140 to R142), the run over the
bits of a byte, over a whole body (R138, R139), and the three ends of it (R141, R143). -/

namespace Sys2Proof.Machine

/-! ### The walk as a function -/

/-- A walk in two parts. -/
theorem walkView_append (t c : HTree) (p q : List Bool) :
    walkView t c (p ++ q) = match walkView t c p with
      | (o, .offTree) => (o, .offTree)
      | (o, .atRoot) => (o ++ (walkView t t q).1, (walkView t t q).2)
      | (o, .inside u) => (o ++ (walkView t u q).1, (walkView t u q).2) := by
  induction p generalizing c with
  | nil =>
    by_cases h : c = t
    · subst h; simp [walkView]
    · simp [walkView, h]
  | cons v p ih =>
    cases c with
    | leaf s w => simp [walkView]
    | node w l r =>
      simp only [List.cons_append, walkView]
      split
      · rw [ih t]
        rcases h : walkView t t p with ⟨o, _ | _ | u⟩ <;> simp
      · rw [ih]

/-- In a tree with two leaves or more a walk never leaves the tree (44 R148). -/
theorem walkView_onTree {t c : HTree} (ht : 2 ≤ t.leaves) (hc : 2 ≤ c.leaves) (q : List Bool) :
    (walkView t c q).2 ≠ .offTree := by
  induction q generalizing c with
  | nil => simp only [walkView]; split <;> simp
  | cons v q ih =>
    match c, hc with
    | .leaf _ _, hc => simp [HTree.leaves] at hc
    | .node w l r, _ =>
      simp only [walkView]
      split
      · exact ih ht
      · next w' l' r' h =>
        have hpos : ∀ x : HTree, 1 ≤ x.leaves := fun x => by
          induction x with
          | leaf _ _ => exact Nat.le_refl 1
          | node _ a b iha _ => simp only [HTree.leaves]; omega
        exact ih (by have := hpos l'; have := hpos r'; simp only [HTree.leaves]; omega)

/-! ### Where the cursor stands -/

theorem leaves_pos (x : HTree) : 1 ≤ x.leaves := by
  induction x with
  | leaf _ _ => exact Nat.le_refl 1
  | node _ a b iha _ => simp only [HTree.leaves]; omega

theorem WalkAt.atRoot {ns : List Node} {root : Idx} {t : HTree} (h : IsTree ns root.toNat t) :
    WalkAt ns root root t t := ⟨h, h, .inl ⟨rfl, rfl⟩⟩

/-- The cursor is at the root exactly when its subtree is the whole tree. -/
theorem WalkAt.cur_eq_root_iff {ns : List Node} {root cur : Idx} {t c : HTree} (h : WalkAt ns root cur t c) :
    cur = root ↔ c = t := by
  constructor
  · intro e; subst e; exact h.curTree.unique h.rootTree
  · intro e
    rcases h.place with h1 | h1
    · exact h1.1
    · subst e; omega

/-! ### One bit -/

/-- A bit examined at an internal node whose child is internal (44 R140). -/
theorem walkBit_inner {s : State} {v : Bool} {rest : List Bool} {next : Option Byte} {w : Count} {l r : Idx}
    {w' : Count} {l' r' : Idx} (h : s.node[s.cur.toNat]? = some (.internal w l r))
    (hc : s.node[(if v then r else l).toNat]? = some (.internal w' l' r')) :
    walkBit v rest next s = .next (walkFrom rest next { s with cur := if v then r else l }) := by
  simp only [walkBit, h, hc]

/-- A bit examined at an internal node whose child is a leaf (44 R142). -/
theorem walkBit_leaf {s : State} {v : Bool} {rest : List Bool} {next : Option Byte} {w : Count} {l r : Idx}
    {sym : Byte} {w' : Count} (h : s.node[s.cur.toNat]? = some (.internal w l r))
    (hc : s.node[(if v then r else l).toNat]? = some (.leaf sym w')) (hr : s.sink.ready = true)
    (hf : s.sink.fails = []) :
    walkBit v rest next s =
      .next (walkFrom rest next { s with cur := s.root, sink := s.sink.store s.sink.olen sym }) := by
  simp only [walkBit, h, hc, Sink.put_good hr hf]

/-- A bit examined at a leaf (44 R141). -/
theorem walkBit_off {s : State} {v : Bool} {rest : List Bool} {next : Option Byte} {sym : Byte} {w : Count}
    (h : s.node[s.cur.toNat]? = some (.leaf sym w)) :
    walkBit v rest next s = .next (raiseCause .invalidBit s) := by
  simp only [walkBit, h]

theorem tick_walk {s : State} {v : Bool} {rest : List Bool} {next : Option Byte} (hb : s.status.busy = true)
    (hw : s.work = .walk (v :: rest) next) : tick s = walkBit v rest next s := by
  simp [tick, hb, hw, walkTick]

/-! ### The bits of a byte -/

/-- What a walk that stays on the tree leaves: the symbols appended, the cursor where the walk ends. -/
theorem run_walk {bits : List Bool} {s : State} {next : Option Byte} {t c : HTree} (hne : bits ≠ [])
    (hb : s.status.busy = true) (hw : s.work = .walk bits next) (hr : s.sink.ready = true) (hf : s.sink.fails = [])
    (hc : WalkAt s.node s.root s.cur t c) (hon : (walkView t c bits).2 ≠ .offTree) :
    ∃ cur u, WalkAt s.node s.root cur t u ∧
      (walkView t c bits).2 = (if u = t then .atRoot else .inside u) ∧
      ∃ work, Run bits.length s (walkEnd next { s with
        cur := cur, sink := appendAll s.sink (walkView t c bits).1, work := work }) := by
  induction bits generalizing s c with
  | nil => exact absurd rfl hne
  | cons v rest ih =>
    cases hcur : hc.curTree with
    | leaf h => simp [walkView] at hon
    | @node _ w l r tl tr h hl hr' =>
      have hchild : IsTree s.node (if v then r else l).toNat (if v then tr else tl) := by cases v <;> assumption
      have hlv : (if v then tr else tl).leaves < t.leaves := by
        have h1 := leaves_pos tl
        have h2 := leaves_pos tr
        have h3 : (HTree.node w tl tr).leaves ≤ t.leaves := by
          rcases hc.place with ⟨_, e⟩ | ⟨e, _⟩
          · rw [e]
          · omega
        simp only [HTree.leaves] at h3
        cases v <;> simp <;> omega
      generalize hx : (if v then tr else tl) = x at hchild hlv
      cases hchild with
      | @leaf _ sym w' hg =>
        have hv : walkView t (.node w tl tr) (v :: rest) =
            (sym :: (walkView t t rest).1, (walkView t t rest).2) := by simp only [walkView, hx]
        rw [hv] at hon ⊢
        have h1 : tick s = .next (walkFrom rest next
            { s with cur := s.root, sink := s.sink.store s.sink.olen sym }) := by
          rw [tick_walk hb hw, walkBit_leaf h hg hr hf]
        by_cases hrest : rest = []
        · subst hrest
          refine ⟨s.root, t, .atRoot hc.rootTree, by simp [walkView], s.work, ?_⟩
          refine .one ?_
          rw [h1]
          simp [walkFrom, walkView]
        · obtain ⟨cur, u, hu, he, work, hrun⟩ := ih hrest
            (s := { s with cur := s.root, sink := s.sink.store s.sink.olen sym, work := .walk rest next })
            (c := t) hb rfl hr hf (.atRoot hc.rootTree) hon
          refine ⟨cur, u, hu, he, work, ?_⟩
          rw [show walkFrom rest next { s with cur := s.root, sink := s.sink.store s.sink.olen sym } =
            { s with cur := s.root, sink := s.sink.store s.sink.olen sym, work := .walk rest next } by
              simp [walkFrom, hrest]] at h1
          exact .cons h1 hrun
      | @node _ w' l' r' tl' tr' hg hgl hgr =>
        have hv : walkView t (.node w tl tr) (v :: rest) = walkView t (.node w' tl' tr') rest := by
          simp only [walkView, hx]
        rw [hv] at hon ⊢
        have h2 : 2 ≤ (HTree.node w' tl' tr').leaves := by
          have := leaves_pos tl'
          have := leaves_pos tr'
          simp only [HTree.leaves]; omega
        have hwa : WalkAt s.node s.root (if v then r else l) t (.node w' tl' tr') :=
          ⟨hc.rootTree, .node hg hgl hgr, .inr ⟨hlv, h2⟩⟩
        have h1 : tick s = .next (walkFrom rest next { s with cur := if v then r else l }) := by
          rw [tick_walk hb hw, walkBit_inner h hg]
        by_cases hrest : rest = []
        · subst hrest
          refine ⟨if v then r else l, .node w' tl' tr', hwa, by simp [walkView], s.work, ?_⟩
          refine .one ?_
          rw [h1]
          simp [walkFrom, walkView]
        · obtain ⟨cur, u, hu, he, work, hrun⟩ := ih hrest
            (s := { s with cur := if v then r else l, work := .walk rest next })
            (c := .node w' tl' tr') hb rfl hr hf hwa hon
          refine ⟨cur, u, hu, he, work, ?_⟩
          rw [show walkFrom rest next { s with cur := if v then r else l } =
            { s with cur := if v then r else l, work := .walk rest next } by simp [walkFrom, hrest]] at h1
          exact .cons h1 hrun

/-! ### The body -/

theorem bitsOf_ne_nil (x : Byte) {k : Nat} (h : 0 < k) : bitsOf x k ≠ [] := by
  intro e
  have := congrArg List.length e
  simp [bitsOf] at this; omega

@[simp] theorem length_bitsOf (x : Byte) (k : Nat) : (bitsOf x k).length = k := by simp [bitsOf]

theorem lastBits_pos (pad : BitVec 3) : 0 < lastBits pad := by have := pad.isLt; unfold lastBits; omega

theorem lastBits_le (pad : BitVec 3) : lastBits pad ≤ 8 := by unfold lastBits; omega

/-- The bytes still to be walked: the one held, and those on the channel. -/
def bodyLeft (s : State) (l : List Byte) : List Byte := s.hold.toList ++ l

theorem tick_pull {s : State} {t : Token} {rest : List Token} (hb : s.status.busy = true) (hw : s.work = .pull)
    (hi : s.inq = t :: rest) : tick s = .next (unpackToken t { s with inq := rest }) := by
  simp [tick, hb, hw, pullTick, hi]

/-- The run over a body that stays on the tree, to its end (44 R138, R139, R143). -/
theorem run_body {l : List Byte} {s : State} {rest : List Token} {t c : HTree} (hb : s.status.busy = true)
    (hw : s.work = .pull) (hr : s.sink.ready = true) (hf : s.sink.fails = [])
    (hc : WalkAt s.node s.root s.cur t c) (hi : s.inq = byteTokens l ++ .eos :: rest)
    (hon : (walkView t c (examinedBits s.pad (bodyLeft s l))).2 ≠ .offTree) :
    ∃ cur u k, WalkAt s.node s.root cur t u ∧
      (walkView t c (examinedBits s.pad (bodyLeft s l))).2 = (if u = t then .atRoot else .inside u) ∧
      k ≤ 9 * (l.length + 1) ∧ ∃ work, Run k s (unpackEnd { s with
        cur := cur, hold := none, inq := rest, work := work,
        sink := appendAll s.sink (walkView t c (examinedBits s.pad (bodyLeft s l))).1 }) := by
  induction l generalizing s c with
  | nil =>
    have hi' : s.inq = .eos :: rest := by simpa [byteTokens] using hi
    cases hh : s.hold with
    | none =>
      have hv : walkView t c (examinedBits s.pad (bodyLeft s [])) = ([], if c = t then .atRoot else .inside c) := by
        simp [bodyLeft, hh, examinedBits, walkView]
      rw [hv]
      refine ⟨s.cur, c, 1, hc, rfl, by simp, s.work, .one ?_⟩
      rw [tick_pull hb hw hi']
      simp only [unpackToken, hh, appendAll_nil]
    | some x =>
      have hbits : examinedBits s.pad (bodyLeft s []) = bitsOf x (lastBits s.pad) := by
        simp [bodyLeft, hh, examinedBits]
      rw [hbits] at hon ⊢
      have hne := bitsOf_ne_nil x (lastBits_pos s.pad)
      have h1 : tick s = .next { s with inq := rest, work := .walk (bitsOf x (lastBits s.pad)) none } := by
        rw [tick_pull hb hw hi']
        simp [unpackToken, hh, walkFrom, hne]
      obtain ⟨cur, u, hu, he, work, hrun⟩ := run_walk (next := none) hne
        (s := { s with inq := rest, work := .walk (bitsOf x (lastBits s.pad)) none }) hb rfl hr hf hc hon
      refine ⟨cur, u, _, hu, he, ?_, work, .cons h1 hrun⟩
      have := lastBits_le s.pad
      simp; omega
  | cons b l ih =>
    have hi' : s.inq = .byte b :: (byteTokens l ++ .eos :: rest) := by simpa [byteTokens] using hi
    cases hh : s.hold with
    | none =>
      have hleft : bodyLeft s (b :: l) = b :: l := by simp [bodyLeft, hh]
      have h1 : tick s = .next { s with inq := byteTokens l ++ .eos :: rest, hold := some b } := by
        rw [tick_pull hb hw hi']
        simp [unpackToken, hh]
      rw [hleft] at hon ⊢
      obtain ⟨cur, u, k, hu, he, hk, work, hrun⟩ := ih
        (s := { s with inq := byteTokens l ++ .eos :: rest, hold := some b }) (c := c) hb hw hr hf hc rfl hon
      refine ⟨cur, u, k + 1, hu, he, ?_, work, .cons h1 hrun⟩
      simp only [List.length_cons]; omega
    | some x =>
      have hleft : bodyLeft s (b :: l) = x :: b :: l := by simp [bodyLeft, hh]
      rw [hleft] at hon ⊢
      have hbits : examinedBits s.pad (x :: b :: l) = bitsOf x 8 ++ examinedBits s.pad (b :: l) := rfl
      rw [hbits] at hon ⊢
      have hne := bitsOf_ne_nil x (k := 8) (by omega)
      have happ := walkView_append t c (bitsOf x 8) (examinedBits s.pad (b :: l))
      have hon1 : (walkView t c (bitsOf x 8)).2 ≠ .offTree := by
        intro e
        rw [happ] at hon
        generalize walkView t c (bitsOf x 8) = z at e hon
        obtain ⟨o, z⟩ := z
        subst e
        exact hon rfl
      have h1 : tick s = .next { s with inq := byteTokens l ++ .eos :: rest, work := .walk (bitsOf x 8) (some b) } := by
        rw [tick_pull hb hw hi']
        simp [unpackToken, hh, walkFrom, hne]
      obtain ⟨cur, u, hu, he, work, hrun⟩ := run_walk (next := some b) hne
        (s := { s with inq := byteTokens l ++ .eos :: rest, work := .walk (bitsOf x 8) (some b) }) hb rfl hr hf hc hon1
      have hwhole : walkView t c (bitsOf x 8 ++ examinedBits s.pad (b :: l)) =
          ((walkView t c (bitsOf x 8)).1 ++ (walkView t u (examinedBits s.pad (b :: l))).1,
            (walkView t u (examinedBits s.pad (b :: l))).2) := by
        rw [happ]
        generalize hz : walkView t c (bitsOf x 8) = z at he
        obtain ⟨o, z⟩ := z
        simp only at he
        subst he
        split
        · next h => split at h <;> simp at h
        · next h =>
          split at h
          · next hut => subst hut; simp at h; simp [h]
          · simp at h
        · next h =>
          split at h
          · simp at h
          · simp at h; simp [h]
      rw [hwhole] at hon ⊢
      obtain ⟨cur', u', k, hu', he', hk, work', hrun'⟩ := ih
        (s := walkEnd (some b) { s with
          inq := byteTokens l ++ .eos :: rest, cur := cur, work := work,
          sink := appendAll s.sink (walkView t c (bitsOf x 8)).1 })
        (c := u) hb rfl (by simpa [walkEnd] using hr) (by simpa [walkEnd] using hf) hu rfl hon
      refine ⟨cur', u', (bitsOf x 8).length + 1 + k, hu', he', ?_, work', ?_⟩
      · simp only [length_bitsOf, List.length_cons] at *; omega
      · have := (Run.cons h1 hrun).trans hrun'
        simp only [walkEnd] at this
        rw [appendAll_append]
        exact this

/-- The end of a body at the root (44 R143). -/
theorem unpackEnd_atRoot {s : State} (h : s.cur = s.root) :
    unpackEnd s = endOk { s with status := { s.status with dangling := false } } := by
  simp [unpackEnd, h]

/-- The end of a body inside a code word (44 R143). -/
theorem unpackEnd_inside {s : State} (h : s.cur ≠ s.root) :
    unpackEnd s = if s.par.strictEnd then raiseCause .danglingEnd { s with status := { s.status with dangling := true } }
      else endOk { s with status := { s.status with dangling := true } } := by
  simp [unpackEnd, h]

/-- On a one-leaf tree the first bit of a body fails (44 R141, R151). -/
theorem run_offTree {s : State} {b : Byte} {l : List Byte} {rest : List Token} {sym : Byte} {w : Count}
    (hb : s.status.busy = true) (hw : s.work = .pull) (hh : s.hold = none)
    (hn : s.node[s.cur.toNat]? = some (.leaf sym w)) (hi : s.inq = byteTokens (b :: l) ++ .eos :: rest) :
    ∃ work, Run 3 s (raiseCause .invalidBit { s with
      hold := some b, inq := (byteTokens l ++ .eos :: rest).tail, work := work }) := by
  have h1 : tick s = .next { s with inq := byteTokens l ++ .eos :: rest, hold := some b } := by
    rw [tick_pull hb hw (t := .byte b) (rest := byteTokens l ++ .eos :: rest) (by simpa [byteTokens] using hi)]
    simp [unpackToken, hh]
  have key : ∀ (bits : List Bool) (next : Option Byte) (q : List Token), bits ≠ [] →
      tick { s with inq := q, hold := some b, work := .walk bits next } =
        .next (raiseCause .invalidBit { s with inq := q, hold := some b, work := .walk bits next }) := by
    intro bits next q hne
    obtain ⟨v, r, rfl⟩ := List.exists_cons_of_ne_nil hne
    rw [tick_walk (by exact hb) rfl]
    exact walkBit_off (by exact hn)
  cases l with
  | nil =>
    refine ⟨.walk (bitsOf b (lastBits s.pad)) none, .cons h1 (.cons (t := { s with
      inq := rest, hold := some b, work := .walk (bitsOf b (lastBits s.pad)) none }) ?_ (.one ?_))⟩
    · rw [tick_pull (t := .eos) (rest := rest) (by exact hb) (by exact hw) rfl]
      simp [unpackToken, walkFrom, bitsOf_ne_nil b (lastBits_pos s.pad)]
    · exact key _ _ _ (bitsOf_ne_nil b (lastBits_pos s.pad))
  | cons x l =>
    refine ⟨.walk (bitsOf b 8) (some x), .cons h1 (.cons (t := { s with
      inq := byteTokens l ++ .eos :: rest, hold := some b, work := .walk (bitsOf b 8) (some x) }) ?_ (.one ?_))⟩
    · rw [tick_pull (t := .byte x) (rest := byteTokens l ++ .eos :: rest) (by exact hb) (by exact hw) rfl]
      simp [unpackToken, walkFrom, bitsOf_ne_nil b (k := 8) (by omega)]
    · exact key _ _ _ (bitsOf_ne_nil b (by omega))

end Sys2Proof.Machine
end

