-- ==== Sys2Proof/Tests/Slice0.lean ====
section
/-! SUPPORT. Tests: words written out from spec/30_encoding.md, one step of each instruction with the result spec/95
gives, and for every statement with hypotheses a state that meets them. -/

namespace Sys2Proof.Tests

open Sys2Proof.Machine

/-! ### Small states -/

/-- Reset, with the sentinel spec/95 illustrates its vectors with. -/
def bare : State := { State.reset with par := { sentinel := 0x00#8, strictEnd := true } }

/-- A stream of bytes, closed. -/
def stream (l : List Byte) : List Token := byteTokens l ++ [.eos]

/-- What a next state shows; none for any other outcome. -/
def seen {α : Type} (f : State → α) (o : Host.Outcome State Fault Refusal) : Option α :=
  match o with
  | .next t => some (f t)
  | .fault _ | .refused _ => none

theorem next_of_seen {α : Type} {f : State → α} {o : Host.Outcome State Fault Refusal} {x : α}
    (h : seen f o = some x) : ∃ t, o = .next t ∧ f t = x := by
  cases o with
  | next t => exact ⟨t, rfl, Option.some.inj h⟩
  | fault e | refused e => exact nomatch h

/-- The result flags, `PAD` and `NENT`. -/
def registers (t : State) : BitVec 16 × Nat × Nat := (t.status.word, t.pad.toNat, t.nent.toNat)

/-- `{61: 1, 62: 1, 63: 1}`, "abc" (V5, V14). -/
def abcTable : Table Count := tableSet (tableSet (tableSet emptyTable 0x61#8 1) 0x62#8 1) 0x63#8 1

/-- The tree of `abcTable`: `4 = (2, 3)`, `3 = (0, 1)` (V14). -/
def abcNodes : List Node :=
  [.leaf 0x61#8 1, .leaf 0x62#8 1, .leaf 0x63#8 1, .internal 2 0#9 1#9, .internal 3 2#9 3#9]

/-- The same tree as a value. -/
def abcTree : HTree := .node 3 (.leaf 0x63#8 1) (.node 2 (.leaf 0x61#8 1) (.leaf 0x62#8 1))

/-- `c -> 0`, `a -> 10`, `b -> 11` (V14). -/
def abcCodes : Table Code :=
  tableSet (tableSet (tableSet emptyTable 0x61#8 [true, false]) 0x62#8 [true, true]) 0x63#8 [false]

/-- After FREQ on "abc". -/
def counted : State := { bare with status := goodStatus true false false false, ft := abcTable }

/-- After BUILD on it. -/
def built : State :=
  { counted with status := goodStatus true true false false, node := abcNodes, nleaf := 3, live := 16, root := 4 }

/-- After ASSIGN on it. -/
def assigned : State := { built with status := goodStatus true true true false, ct := abcCodes }

/-- After HDR and BUILD on the container of "abc", before its body: `PAD = 3`. -/
def headed : State := { built with status := goodStatus true true false true, pad := 3, nent := 3, cur := 4 }

/-- One entry of the container. -/
def entryOf (s n : Byte) : List Byte := [s, n, 0, 0, 0, 0, 0, 0, 0]

/-- `H(p)` of V14. -/
def abcHeader (p : Byte) : List Byte := [p, 3, 0] ++ entryOf 0x61 1 ++ entryOf 0x62 1 ++ entryOf 0x63 1

/-! ### Well-formedness: the ill-formed term is refused -/

theorem test_paddingCount_above_seven_is_ill_formed : ¬(Instr.paddingCount 8#8).WellFormed := by decide

theorem test_paddingCount_seven_is_well_formed : (Instr.paddingCount 7#8).WellFormed := by decide

theorem test_ill_formed_padding_does_not_decode : decode .padding (encode (.paddingCount 8#8)) = .error (.badPad 8#8) :=
  rfl

/-! ### Words of 30 R61, R64 to R68, R71, bit by bit -/

theorem test_word_clr : decode .command [0b00000001#8] = .ok (.clr, []) := rfl

theorem test_word_freq : decode .command [0b00000010#8] = .ok (.freq, []) := rfl

theorem test_word_build : decode .command [0b00000011#8] = .ok (.build, []) := rfl

theorem test_word_assign : decode .command [0b00000100#8] = .ok (.assign, []) := rfl

theorem test_word_pack : decode .command [0b00000101#8] = .ok (.pack, []) := rfl

theorem test_word_hdr : decode .command [0b00000110#8] = .ok (.hdr, []) := rfl

theorem test_word_unpack : decode .command [0b00000111#8] = .ok (.unpack, []) := rfl

theorem test_word_enc : decode .command [0b00001000#8] = .ok (.enc, []) := rfl

theorem test_word_dec : decode .command [0b00001001#8] = .ok (.dec, []) := rfl

/-- V16: 0x12 is not FREQ. -/
theorem test_word_reserved : decode .command [0b00010010#8] = .error (.reservedCommand 0x12#8) := rfl

theorem test_word_paddingCount : decode .padding [0b00000111#8, 0x02#8] = .ok (.paddingCount 7, [0x02#8]) := rfl

/-- X3: `00 01` is 256. -/
theorem test_word_entryCount : decode .entryCount [0b00000000#8, 0b00000001#8] = .ok (.entryCount 256, []) := rfl

/-- V10: `41 0500000000000000`. -/
theorem test_word_entry :
    decode .entry [0x41#8, 0x05#8, 0#8, 0#8, 0#8, 0#8, 0#8, 0#8, 0#8] = .ok (.entry 0x41#8 5, []) := rfl

theorem test_word_bodyByte : decode .body [0b10110001#8] = .ok (.bodyByte 0xB1#8, []) := rfl

theorem test_word_codeBit : decode .codeBit [0b00000001#8] = .ok (.codeBit true, []) := rfl

theorem test_table_words : decodeTableWord 8 0x09 = some .dec ∧ decodeTableWord 16 0x0102 = some (.entryCount 0x0102) ∧
    decodeTableWord 72 0x80000000000002013F = some (.entry 0x3F#8 0x8000000000000201#64) ∧
    decodeTableWord 1 1 = some (.codeBit true) := ⟨rfl, rfl, rfl, rfl⟩

/-! ### One step of each instruction: spec/95's vectors -/

/-- V16. -/
theorem test_clr : seen registers (exec .clr assigned) = some (0x0006, 0, 0) := by decide +kernel

/-- V1, the second line: the sentinel is added. -/
theorem test_freq : seen (fun t => (t.status.word, entriesOf t.ft)) (exec .freq { bare with inq := stream [0x3F] }) =
    some (0x000E, [(0x00, 0), (0x3F, 1)]) := by decide +kernel

/-- V1, the fifth line: two keys, the sentinel's count is a real one. -/
theorem test_freq_real_sentinel : seen (fun t => entriesOf t.ft)
    (exec .freq { bare with inq := stream [0x41, 0x00, 0x41] }) = some [(0x00, 1), (0x41, 2)] := by decide +kernel

/-- V14: the tree of "abc". -/
theorem test_build : seen (fun t => (t.status.word, t.node, t.root.toNat)) (exec .build counted) =
    some (0x001E, abcNodes, 4) := by decide +kernel

/-- 10 R19: a cursor that is an entry of the new tree stays. -/
theorem test_build_keeps_cursor : seen (fun t => (t.cur.toNat, t.nn)) (exec .build { counted with cur := 3 }) =
    some (3, 5) := by decide +kernel

/-- 10 R19: a cursor left by an earlier, larger tree becomes an entry of the new one. -/
theorem test_build_bounds_cursor : (boundCursor 5 9).toNat < 5 := boundCursor_lt (by decide) 9

/-- V8: the weights wrap modulo 2^64. -/
theorem test_build_wraps : seen (fun t => t.node.drop 4) (exec .build { counted with
    ft := tableSet (tableSet (tableSet (tableSet emptyTable 0x41 0xFFFFFFFFFFFFFFFF) 0x42 0xFFFFFFFFFFFFFFFF) 0x43 10)
      0x44 20 }) =
    some [.internal 30 2 3, .internal 29 4 0, .internal 28 5 1] := by decide +kernel

/-- V14: the code words of "abc". -/
theorem test_assign : seen (fun t => (t.status.word, entriesOf t.ct)) (exec .assign built) =
    some (0x003E, [(0x61, [true, false]), (0x62, [true, true]), (0x63, [false])]) := by decide +kernel

/-- V10: the container of "abc". -/
theorem test_pack : seen (fun t => (registers t, t.sink.output))
    (exec .pack { assigned with inq := stream [0x61, 0x62, 0x63] }) =
    some ((0x003E, 3, 3), abcHeader 3 ++ [0x0D]) := by decide +kernel

/-- V17: a byte without a code word. -/
theorem test_pack_no_code : seen registers (exec .pack { assigned with inq := stream [0x61, 0x64] }) =
    some (0x063A, 0, 3) := by decide +kernel

/-- V13, the first line: the body stays on the channel. -/
theorem test_hdr : seen (fun t => (registers t, entriesOf t.ft, t.inq))
    (exec .hdr { bare with inq := stream ([7, 2, 0] ++ entryOf 0x00 0 ++ entryOf 0x3F 1 ++ [1]) }) =
    some ((0x004E, 7, 2), [(0x00, 0), (0x3F, 1)], stream [1]) := by decide +kernel

/-- V13: the end of the stream inside an entry. -/
theorem test_hdr_truncated : seen registers (exec .hdr { bare with inq := stream [0, 1, 0, 0x41, 1, 0, 0, 0] }) =
    some (0x0102, 0, 1) := by decide +kernel

/-- V14: `H(3) 0D`. -/
theorem test_unpack : seen (fun t => (t.status.word, t.sink.output)) (exec .unpack { headed with inq := stream [0x0D] }) =
    some (0x005E, [0x61, 0x62, 0x63]) := by decide +kernel

/-- V15: `H(5) 0D`. -/
theorem test_unpack_dangling : seen (fun t => (t.status.word, t.sink.output))
    (exec .unpack { headed with pad := 5, inq := stream [0x0D] }) = some (0x03DA, [0x61]) := by decide +kernel

/-- X2: ENC of "?". -/
theorem test_enc : seen (fun t => (registers t, t.sink.output))
    (exec .enc { bare with inq := stream [0x3F] ++ stream [0x3F] }) =
    some ((0x003E, 7, 2), [7, 2, 0] ++ entryOf 0x00 0 ++ entryOf 0x3F 1 ++ [1]) := by decide +kernel

/-- X1: ENC of the empty input. -/
theorem test_enc_empty : seen (fun t => (registers t, t.sink.output)) (exec .enc { bare with inq := stream [] ++ stream [] }) =
    some ((0x003E, 0, 1), [0, 1, 0] ++ entryOf 0x00 0) := by decide +kernel

/-- X2: DEC of that container. -/
theorem test_dec : seen (fun t => (registers t, t.sink.output))
    (exec .dec { bare with inq := stream ([7, 2, 0] ++ entryOf 0x00 0 ++ entryOf 0x3F 1 ++ [1]) }) =
    some ((0x005E, 7, 2), [0x3F]) := by decide +kernel

/-- V15: one leaf, one examined bit. -/
theorem test_dec_invalid_bit : seen registers (exec .dec { bare with inq := stream ([7, 1, 0] ++ entryOf 0x00 3 ++ [0]) }) =
    some (0x025A, 7, 1) := by decide +kernel

/-- HDR running, at the header's position `n`. -/
def parsing (n : Nat) : State :=
  { bare with status := { Status.reset with busy := true, phase := .hdr }, work := .hdr 0, hpos := BitVec.ofNat 20 n }

/-- X6: 0x23 is above 7. -/
theorem test_paddingCount : seen registers (exec (.paddingCount 0x23) (parsing 0)) = some (0x0402, 0, 0) := by
  decide +kernel

/-- X2: `02 00`. -/
theorem test_entryCount : seen (fun t => (t.nent.toNat, t.hpos.toNat)) (exec (.entryCount 2) (parsing 1)) =
    some (2, 3) := by decide +kernel

/-- V13: the second of two pairs of one byte value wins, and ends the header. -/
theorem test_entry : seen (fun t => (t.status.word, entriesOf t.ft))
    (exec (.entry 0x63 2) { parsing 12 with nent := 2, ft := tableSet emptyTable 0x63 1 }) =
    some (0x004E, [(0x63, 2)]) := by decide +kernel

/-- UNPACK running over the tree of "abc". -/
def walking : State :=
  { headed with status := { headed.status with busy := true, done := false, ok := false, phase := .unpack },
                work := .pull }

/-- V14: `H(3) 0D 0D`, the first byte whole. -/
theorem test_bodyByte : seen (fun t => (t.hold, t.sink.output))
    (exec (.bodyByte 0x0D) { walking with hold := some 0x0D }) =
    some (some 0x0D, [0x61, 0x62, 0x63, 0x63, 0x63, 0x63]) := by decide +kernel

/-- V14: a 1 at the root leads to node 3. -/
theorem test_codeBit_right : seen (fun t => t.cur.toNat) (exec (.codeBit true) { walking with work := .walk [false] none }) =
    some 3 := by decide +kernel

/-- V14: a 0 at the root is `c`. -/
theorem test_codeBit_left : seen (fun t => (t.cur.toNat, t.sink.output))
    (exec (.codeBit false) { walking with work := .walk [true] none }) = some (4, [0x63]) := by decide +kernel

/-! ### Every statement's hypotheses are met: encoding and the step -/

theorem witness_DecodeOfEncode : (Instr.paddingCount 0#8).WellFormed ∧ (Instr.paddingCount 7#8).WellFormed ∧
    (Instr.entry 0xFF#8 0xFFFFFFFFFFFFFFFF#64).WellFormed := by decide

theorem witness_EncodeOfDecode : decode .entryCount [0xFF#8, 0xFF#8, 0x00#8] = .ok (.entryCount 0xFFFF, [0x00#8]) := rfl

theorem witness_EncodedWords : ((0x00#8).toNat = 0 ∨ 10 ≤ (0x00#8).toNat) ∧ ((0x0A#8).toNat = 0 ∨ 10 ≤ (0x0A#8).toNat) ∧
    ((0xFF#8).toNat = 0 ∨ 10 ≤ (0xFF#8).toNat) ∧ 8 ≤ (0x08#8).toNat := by decide

/-- The first and the last bit of a body of one byte. -/
theorem witness_BodyBits : 0 < 8 * (bodyBytes [true]).length ∧ 7 < 8 * (bodyBytes [true]).length := by decide

theorem witness_StepRunsCommand : ({ bare with host := [.write 0 0x01#8] } : State).host = .write 0 0x01#8 :: [] ∧
    decode .command [0x01#8] = .ok (.clr, []) := ⟨rfl, rfl⟩

/-- A field of the header, on the channel before HDR. -/
def fieldAt (n k : Nat) (i : Instr) : State := { parsing n with pace := some k, inq := byteTokens (encode i) ++ [.eos] }

theorem witness_StepRunsHeaderField_padding : (Instr.paddingCount 7).WellFormed ∧ (fieldAt 0 1 (.paddingCount 7)).host = [] ∧
    (fieldAt 0 1 (.paddingCount 7)).pace = some (encode (.paddingCount 7)).length ∧
    (fieldAt 0 1 (.paddingCount 7)).inq = byteTokens (encode (.paddingCount 7)) ++ [.eos] ∧
    (fieldAt 0 1 (.paddingCount 7)).hpos.toNat + 9 < 2 ^ 20 ∧ hdrAt .padding (fieldAt 0 1 (.paddingCount 7)) = true :=
  ⟨by decide, rfl, rfl, rfl, by decide, by decide⟩

theorem witness_StepRunsHeaderField_count : (Instr.entryCount 0xFFFF).WellFormed ∧
    (fieldAt 1 2 (.entryCount 0xFFFF)).host = [] ∧
    (fieldAt 1 2 (.entryCount 0xFFFF)).pace = some (encode (.entryCount 0xFFFF)).length ∧
    (fieldAt 1 2 (.entryCount 0xFFFF)).inq = byteTokens (encode (.entryCount 0xFFFF)) ++ [.eos] ∧
    (fieldAt 1 2 (.entryCount 0xFFFF)).hpos.toNat + 9 < 2 ^ 20 ∧
    hdrAt .countLo (fieldAt 1 2 (.entryCount 0xFFFF)) = true :=
  ⟨by decide, rfl, rfl, rfl, by decide, by decide⟩

/-- The last entry a header can declare. -/
theorem witness_StepRunsHeaderField_entry : (Instr.entry 0x3F 1).WellFormed ∧ (fieldAt 589809 9 (.entry 0x3F 1)).host = [] ∧
    (fieldAt 589809 9 (.entry 0x3F 1)).pace = some (encode (.entry 0x3F 1)).length ∧
    (fieldAt 589809 9 (.entry 0x3F 1)).inq = byteTokens (encode (.entry 0x3F 1)) ++ [.eos] ∧
    (fieldAt 589809 9 (.entry 0x3F 1)).hpos.toNat + 9 < 2 ^ 20 ∧ hdrAt .symbol (fieldAt 589809 9 (.entry 0x3F 1)) = true :=
  ⟨by decide, rfl, rfl, rfl, by decide, by decide⟩

/-- UNPACK before a body byte, with and without a predecessor. -/
def beforeByte (hold : Option Byte) : State :=
  { walking with hold := hold, pace := some (1 + if hold.isSome then 8 else 0), inq := .byte 0x0D#8 :: [.eos] }

theorem witness_StepRunsBody_byte (hold : Option Byte) : (beforeByte hold).host = [] ∧
    (beforeByte hold).status.busy = true ∧
    (beforeByte hold).pace = some (1 + if (beforeByte hold).hold.isSome then 8 else 0) ∧
    (beforeByte hold).inq = .byte 0x0D#8 :: [.eos] ∧ (beforeByte hold).work = .pull := ⟨rfl, rfl, rfl, rfl, rfl⟩

theorem witness_StepRunsBody_walk : ({ walking with pace := some 1, work := .walk [true] none } : State).host = [] ∧
    ({ walking with pace := some 1, work := .walk [true] none } : State).status.busy = true ∧
    ({ walking with pace := some 1, work := .walk [true] none } : State).work = .walk (true :: []) none := ⟨rfl, rfl, rfl⟩

/-- PACK running, in the body. -/
def packing (work : Work) : State :=
  { assigned with status := { assigned.status with busy := true, done := false, ok := false, phase := .packBody },
                  work := work, pace := some 1 }

theorem witness_StepRunsBody_pack : (packing (.packBits [true])).host = [] ∧
    (packing (.packBits [true])).status.busy = true ∧ (packing (.packBits [true])).pace = some 1 ∧
    (packing (.packBits [true])).work = .packBits (true :: []) := ⟨rfl, rfl, rfl, rfl⟩

/-! ### The host's port, reset, CLR -/

theorem witness_ReservedCommand : Idle { built with host := [.write 0 0x0A#8] } ∧
    ({ built with host := [.write 0 0x0A#8] } : State).host = .write 0 0x0A#8 :: [] ∧
    ((0x0A#8).toNat = 0 ∨ 10 ≤ (0x0A#8).toNat) := ⟨⟨rfl, rfl⟩, rfl, by decide⟩

/-- The word zero. -/
theorem witness_ReservedCommand_zero : Idle { built with host := [.write 0 0x00#8] } ∧
    ({ built with host := [.write 0 0x00#8] } : State).host = .write 0 0x00#8 :: [] ∧
    ((0x00#8).toNat = 0 ∨ 10 ≤ (0x00#8).toNat) := ⟨⟨rfl, rfl⟩, rfl, by decide⟩

theorem witness_BusyCommandDiscarded : ({ walking with host := [.write 0 0x01#8] } : State).status.busy = true ∧
    ({ walking with host := [.write 0 0x01#8] } : State).host = .write 0 0x01#8 :: [] := ⟨rfl, rfl⟩

/-- Each register number, and one above them. -/
theorem witness_RegisterAccess (n : Nat) (v : Byte) : ({ bare with host := [.read n] } : State).host = .read n :: [] ∧
    ({ bare with host := [.write n v] } : State).host = .write n v :: [] ∧ 3 ≠ 0 := ⟨rfl, rfl, by decide⟩

theorem witness_Preconditions_unmet : Idle bare ∧ requirement .build bare.status = false ∧
    requirement .assign counted.status = false ∧ requirement .pack built.status = false ∧
    requirement .unpack assigned.status = false ∧ IsCommand .build ∧ IsCommand .assign ∧ IsCommand .pack ∧
    IsCommand .unpack := ⟨⟨rfl, rfl⟩, rfl, rfl, rfl, rfl, rfl, rfl, rfl, rfl⟩

theorem witness_Preconditions_met : requirement .clr bare.status = true ∧ requirement .build counted.status = true ∧
    requirement .assign built.status = true ∧ requirement .pack assigned.status = true ∧
    requirement .unpack headed.status = true ∧ ∃ t, exec .build counted = .next t :=
  ⟨rfl, rfl, rfl, rfl, rfl, (next_of_seen test_build).imp fun _ h => h.1⟩

/-- A state with output, in mid-operation, and what the host does next. -/
def midway (h : List HostAct) : State :=
  { walking with host := h, sink := { Sink.empty with mem := [(0, 0x61)], olen := 1 } }

/-- The reset input asserted in mid-operation with output, and while idle. -/
theorem witness_ResetInput : (midway [.resetInput true]).host = .resetInput true :: [] ∧
    (midway [.resetInput true]).status.busy = true ∧ (midway [.resetInput true]).sink.olen ≠ 0 ∧
    ({ bare with host := [.resetInput true] } : State).host = .resetInput true :: [] ∧ bare.status.busy = false :=
  ⟨rfl, rfl, by decide, rfl, rfl⟩

/-- The reset input held, and what the host does next. -/
def heldReset (h : List HostAct) : State := { bare with inReset := true, host := h }

theorem blockReset_held (h : List HostAct) : BlockReset (heldReset h) where
  pad := rfl
  nent := rfl
  cur := rfl
  root := rfl
  nn := rfl
  nleaf := rfl
  live := rfl
  ft := fun b => by simp [heldReset, bare, State.reset, tableGet]
  ct := fun b => by simp [heldReset, bare, State.reset, tableGet]
  acc := rfl
  nb := rfl
  holdV := rfl
  hpos := rfl
  plen := rfl
  stk := rfl

/-- Held, with a command written; held, and released. -/
theorem witness_ResetInput_held : (heldReset [.write 0 0x01]).inReset = true ∧ BlockReset (heldReset [.write 0 0x01]) ∧
    (heldReset [.write 0 0x01]).status = Status.reset ∧ (heldReset [.write 0 0x01]).host = .write 0 0x01 :: [] ∧
    (∃ t, step (heldReset [.write 0 0x01]) = .next t) ∧ (heldReset [.resetInput false]).status.busy = false ∧
    (heldReset [.resetInput false]).host = .resetInput false :: [] :=
  ⟨rfl, blockReset_held _, rfl, rfl, ⟨_, rfl⟩, rfl, rfl⟩

/-- 70 R195: a CLR written while the reset input is asserted starts nothing. -/
theorem test_clr_under_reset : seen registers (step (heldReset [.write 0 0x01])) = some (0x0000, 0, 0) := by
  decide +kernel

/-- Idle, running with nothing written yet, and running with a byte written. -/
theorem witness_HostChannels (a : Nat) (ts : List Token) : ({ bare with host := [.feed ts] } : State).host = .feed ts :: [] ∧
    ({ bare with host := [.drain] } : State).host = .drain :: [] ∧ bare.status.busy = false ∧ walking.sink.olen = 0 ∧
    ({ walking with host := [.seekSink a] } : State).host = .seekSink a :: [] ∧
    (midway [.seekSink a]).host = .seekSink a :: [] ∧ (midway [.takeSink]).host = .takeSink :: [] ∧
    (midway [.takeSink]).status.busy = true ∧ (midway [.takeSink]).sink.olen ≠ 0 :=
  ⟨rfl, rfl, rfl, rfl, rfl, rfl, rfl, rfl, by decide⟩

theorem witness_ClrResult : Idle assigned := ⟨rfl, rfl⟩

/-- A block that has run other commands, and one that has not. -/
theorem witness_EncDecStartFromNothing : Idle assigned ∧ Idle bare ∧ assigned.par = bare.par ∧ assigned.inq = bare.inq ∧
    assigned.sink = bare.sink ∧ assigned.host = bare.host ∧ assigned.pace = bare.pace ∧ assigned.rdata = bare.rdata ∧
    assigned.freeCtr = bare.freeCtr ∧ assigned.nent = bare.nent ∧ assigned.root ≠ bare.root :=
  ⟨⟨rfl, rfl⟩, ⟨rfl, rfl⟩, rfl, rfl, rfl, rfl, rfl, rfl, rfl, rfl, by decide⟩

/-! ### FREQ, BUILD, ASSIGN -/

/-- The block idle, with streams on the channel. -/
def given (q : List Token) : State := { bare with inq := q }

theorem witness_FreqResult : Ready (given (stream [0x3F])) ∧ (given (stream [0x3F])).inq = byteTokens [0x3F] ++ .eos :: [] ∧
    [0x61#8, 0x62#8].Perm [0x62#8, 0x61#8] := ⟨⟨⟨rfl, rfl⟩, rfl⟩, rfl, by decide⟩

/-- The empty input, an input of sentinels, and one with another byte. -/
theorem witness_FreqTable : Ready (given (stream [])) ∧ (given (stream [])).inq = byteTokens [] ++ .eos :: [] ∧
    ([] : List Byte).length < 2 ^ 64 ∧ (∀ b ∈ [0x00#8], b = bare.par.sentinel) ∧ ¬(∀ b ∈ [0x3F#8], b = bare.par.sentinel) ∧
    bare.par.sentinel ∉ [0x3F#8] ∧ tableGet (freqView bare.par.sentinel [0x3F#8]) bare.par.sentinel ≠ none :=
  ⟨⟨⟨rfl, rfl⟩, rfl⟩, rfl, by decide, by decide, by decide, by decide, by decide +kernel⟩

theorem witness_BuildResult : Ready counted ∧ counted.status.ftV = true ∧
    entriesOf counted.ft = [(0x61#8, 1), (0x62#8, 1), (0x63#8, 1)] ∧ [(0x61#8, (1 : Count)), (0x62#8, 1), (0x63#8, 1)] ≠ [] :=
  ⟨⟨⟨rfl, rfl⟩, rfl⟩, rfl, by decide +kernel, by decide⟩

/-- A table with one key only. -/
theorem witness_BuildResult_one : entriesOf (tableSet emptyTable 0x7A#8 (9 : Count)) = [(0x7A#8, 9)] := by decide +kernel

/-- After HDR of `00 00 00` (V8). -/
theorem witness_BuildEmptyTable : Ready { bare with status := goodStatus true false false true } ∧
    entriesOf ({ bare with status := goodStatus true false false true } : State).ft = [] :=
  ⟨⟨⟨rfl, rfl⟩, rfl⟩, by decide +kernel⟩

/-- A block after FREQ, and one after FREQ, BUILD and ASSIGN. -/
theorem witness_BuildDeterminism : Ready counted ∧ Ready assigned ∧ counted.status.ftV = true ∧
    assigned.status.ftV = true ∧ counted.ft = assigned.ft ∧
    entriesOf counted.ft ≠ [] ∧ (∃ t, exec .build counted = .next t) ∧
    ∃ t, exec .build assigned = .next t :=
  ⟨⟨⟨rfl, rfl⟩, rfl⟩, ⟨⟨rfl, rfl⟩, rfl⟩, rfl, rfl, rfl, by decide +kernel, (next_of_seen test_build).imp fun _ h => h.1,
    (next_of_seen (f := fun t => t.root) (x := 4) (by decide +kernel)).imp fun _ h => h.1⟩

/-- BUILD with two leaves made, before its merge. -/
def merging : State :=
  { bare with status := { Status.reset with busy := true, ftV := true, phase := .build }, work := .merge, nleaf := 2,
              node := [.leaf 0x00#8 0, .leaf 0x3F#8 1], live := 3, pace := some 1 }

theorem inv_merging : Inv merging where
  status := ⟨rfl, by decide, by decide⟩
  mem := ⟨rfl, fun _ h => absurd h (Nat.not_lt_zero _)⟩
  arena := ⟨by decide, fun i _ _ _ h => match i with
    | 0 | 1 | _ + 2 => nomatch h⟩
  build := ⟨by decide +kernel, by decide +kernel⟩
  tree := fun h => nomatch h
  assign := trivial
  acc := trivial
  unpack := trivial

theorem witness_MergeStep : Inv merging ∧ merging.host = [] ∧ merging.pace = some 1 ∧ merging.work = .merge ∧
    2 ≤ (liveNodes merging.node merging.live).length := ⟨inv_merging, rfl, rfl, rfl, by decide +kernel⟩

theorem abc_isTree : IsTree abcNodes 4 abcTree :=
  .node (l := 2) (r := 3) rfl (.leaf rfl) (.node (l := 0) (r := 1) rfl (.leaf rfl) (.leaf rfl))

theorem witness_AssignResult : Ready built ∧ built.status.treeV = true ∧ IsTree built.node built.root.toNat abcTree ∧
    abcTree.leaves ≤ 256 ∧ abcTree.symbols.Nodup := ⟨⟨⟨rfl, rfl⟩, rfl⟩, rfl, abc_isTree, by decide, by decide⟩

/-- A tree of two leaves, the fewest, with the shortest and the longest code word it can have. -/
theorem witness_CodeLengths : 2 ≤ (HTree.node 1 (.leaf 0x00#8 0) (.leaf 0x3F#8 1)).leaves ∧
    (0x3F#8, [true]) ∈ (HTree.node 1 (.leaf 0x00#8 0) (.leaf 0x3F#8 1)).codes ∧
    buildView (entriesOf abcTable) = some abcTree ∧ (0x62#8, [true, true]) ∈ abcTree.codes := by decide +kernel

theorem witness_PrefixProperty : abcTree.symbols.Nodup ∧ (0x61#8, [true, false]) ∈ abcTree.codes ∧
    [true, false] <+: [true, false] ∧ abcTree.leaves ≤ [true, false].length + 1 := by decide

/-! ### PACK, HDR, UNPACK -/

theorem sinkGood_bare : SinkGood bare := ⟨rfl, rfl⟩

/-- The empty input, and one of every symbol. -/
theorem witness_PackResult (l : List Byte) (h : l = [] ∨ l = [0x61, 0x62, 0x63]) :
    Ready { assigned with inq := stream l } ∧ SinkGood { assigned with inq := stream l } ∧
      assigned.status.ftV = true ∧ assigned.status.ctV = true ∧
      ({ assigned with inq := stream l } : State).inq = byteTokens l ++ .eos :: [] ∧
      ∀ b ∈ l, ∃ c, tableGet assigned.ct b = some c ∧ c.length ≤ 255 := by
  refine ⟨⟨⟨rfl, rfl⟩, rfl⟩, ⟨rfl, rfl⟩, rfl, rfl, rfl, ?_⟩
  rcases h with rfl | rfl
  · exact fun _ h => nomatch h
  · intro b hb
    rcases List.mem_cons.1 hb with rfl | hb
    · exact ⟨[true, false], by decide +kernel⟩
    rcases List.mem_cons.1 hb with rfl | hb
    · exact ⟨[true, true], by decide +kernel⟩
    obtain rfl := List.mem_singleton.1 hb
    exact ⟨[false], by decide +kernel⟩

/-- V17: `61` has a code word, `64` has none. -/
theorem witness_PackNoCode : Ready { assigned with inq := stream [0x61, 0x64] } ∧
    SinkGood { assigned with inq := stream [0x61, 0x64] } ∧
    ({ assigned with inq := stream [0x61, 0x64] } : State).inq = byteTokens ([0x61] ++ [0x64]) ++ [.eos] ∧
    tableGet assigned.ct 0x61 = some [true, false] ∧ tableGet assigned.ct 0x64 = none :=
  ⟨⟨⟨rfl, rfl⟩, rfl⟩, ⟨rfl, rfl⟩, rfl, by decide +kernel, by decide +kernel⟩

/-- PACK at a place of its pseudocode, and the sink about to report a failure. -/
def failing (w : Work) (nb : BitVec 3) : State :=
  { packing w with
    status := { (packing w).status with phase := phaseOf w }, nb := nb, sink := { Sink.empty with fails := [true, false] } }

theorem abc_arena : abcNodes.length ≤ 511 ∧ ∀ (i : Nat) (w : Count) (l r : Idx),
    abcNodes[i]? = some (.internal w l r) → l.toNat < i ∧ r.toNat < i :=
  ⟨by decide, fun i _ _ _ h => match i with
    | 0 | 1 | 2 | _ + 5 => nomatch h
    | 3 | 4 => by cases h; decide⟩

theorem inv_failing (w : Work) (nb : BitVec 3) (hw : phaseOf w = .packHdr ∨ phaseOf w = .packBody) :
    Inv (failing w nb) where
  status := ⟨rfl, ⟨fun _ e => by simp [show w = .rest from e, phaseOf] at hw, fun _ => rfl⟩, fun _ => ⟨rfl, rfl⟩⟩
  mem := ⟨rfl, fun _ h => absurd h (Nat.not_lt_zero _)⟩
  arena := abc_arena
  build := by cases w <;> first | trivial | simp [phaseOf] at hw
  tree := fun _ => ⟨(by decide : 4 < 5), (by decide : 0 < 5)⟩
  assign := by cases w <;> trivial
  acc := by cases w <;> first | trivial | exact Nat.two_pow_pos _
  unpack := by cases w <;> first | trivial | simp [phaseOf] at hw

/-- UNPACK in a walk over the tree of "abc", one symbol written, with the sink's coming answers. -/
def walkingOn (bits : List Bool) (fails : List Bool) : State :=
  { midway [] with pace := some 1, work := .walk bits none,
                   sink := { Sink.empty with mem := [(0, 0x61)], olen := 1, fails := fails } }

theorem inv_walkingOn (bits fails : List Bool) : Inv (walkingOn bits fails) where
  status := ⟨rfl, ⟨fun _ e => (nomatch e), fun _ => rfl⟩, fun _ => ⟨rfl, rfl⟩⟩
  mem := ⟨rfl, fun i hi => match i with
    | 0 => fun e => (nomatch e)
    | _ + 1 => absurd hi (by simp [walkingOn])⟩
  arena := abc_arena
  build := trivial
  tree := fun _ => ⟨(by decide : 4 < 5), (by decide : 4 < 5)⟩
  assign := trivial
  acc := trivial
  unpack := ⟨rfl, (by decide : 4 < 5)⟩

/-- Each of PACK's writes. -/
theorem witness_SinkFailure_pack (w : Work) (nb : BitVec 3)
    (hw : w = .packStart ∨ w = .packTail ∨ w = .packRewrite ∨ w = .packHdr [0x03] ∨ w = .packBits [true]) :
    Inv (failing w nb) ∧ (failing w nb).host = [] ∧ (failing w nb).pace = some 1 ∧ (failing w nb).sink.ready = true ∧
      (failing w nb).sink.fails = true :: [false] ∧ (failing w 7).nb = 7 :=
  ⟨inv_failing w nb (by rcases hw with rfl | rfl | rfl | rfl | rfl <;> simp [phaseOf]), rfl, rfl, rfl, rfl, rfl⟩

/-- A symbol's write. -/
theorem witness_SinkFailure_unpack : Inv (walkingOn [false] [true]) ∧ (walkingOn [false] [true]).host = [] ∧
    (walkingOn [false] [true]).pace = some 1 ∧ (walkingOn [false] [true]).sink.ready = true ∧
    (walkingOn [false] [true]).sink.fails = true :: [] ∧ (walkingOn [false] [true]).work = .walk (false :: []) none ∧
    (walkingOn [false] [true]).node[(walkingOn [false] [true]).cur.toNat]? = some (.internal 3 2#9 3#9) ∧
    (walkingOn [false] [true]).node[(if false then 3#9 else 2#9).toNat]? = some (.leaf 0x63#8 1) :=
  ⟨inv_walkingOn _ _, rfl, rfl, rfl, rfl, rfl, rfl, rfl⟩

/-- A header of no entry, and one of one. -/
theorem witness_HdrResult : Ready (given (stream [7, 0, 0])) ∧ (7#8).toNat ≤ 7 ∧
    ([] : List Byte).length = 9 * (fromLE16 0 0).toNat ∧
    (given (stream [7, 0, 0])).inq = byteTokens (7 :: 0 :: 0 :: []) ++ [.eos] ∧
    (entryOf 0x3F 1).length = 9 * (fromLE16 1 0).toNat := ⟨⟨⟨rfl, rfl⟩, rfl⟩, by decide, rfl, rfl, rfl⟩

/-- The end of the stream before the padding byte, inside the entry count, and one byte before the end of an entry. -/
theorem witness_HdrTruncated : Ready (given (stream [])) ∧ (∀ p ∈ ([] : List Byte).head?, p.toNat ≤ 7) ∧
    ([] : List Byte).length < 3 ∧ (∀ p ∈ [0x07#8, 0x01#8].head?, p.toNat ≤ 7) ∧ [0x07#8, 0x01#8].length < 3 ∧
    (([0, 1, 0] ++ entryOf 0x41 1).take 11).length < headerLength
      (fromLE16 ((([0, 1, 0] ++ entryOf 0x41 1).take 11).getD 1 0) ((([0, 1, 0] ++ entryOf 0x41 1).take 11).getD 2 0)) ∧
    (given (stream [])).inq = byteTokens [] ++ .eos :: [] :=
  ⟨⟨⟨rfl, rfl⟩, rfl⟩, fun _ h => (nomatch h), by decide, by decide, by decide, by decide, rfl⟩

theorem witness_HdrBadPad : Ready (given (stream [8])) ∧ 7 < (8#8).toNat ∧ (given (stream [8])).inq = .byte 8 :: [.eos] :=
  ⟨⟨⟨rfl, rfl⟩, rfl⟩, by decide, rfl⟩

theorem witness_HeaderRoundTrip : Ready (given (byteTokens (3 :: headerTail abcTable) ++ [.eos])) ∧ (3#8).toNat ≤ 7 ∧
    (given (byteTokens (3 :: headerTail abcTable) ++ [.eos])).inq = byteTokens (3 :: headerTail abcTable) ++ [.eos] :=
  ⟨⟨⟨rfl, rfl⟩, rfl⟩, by decide, rfl⟩

/-- V14: the body of "abc". -/
theorem witness_UnpackResult : Ready { headed with inq := stream [0x0D] } ∧ SinkGood { headed with inq := stream [0x0D] } ∧
    headed.status.treeV = true ∧ headed.status.hdrV = true ∧ IsTree headed.node headed.root.toNat abcTree ∧
    ({ headed with inq := stream [0x0D] } : State).inq = byteTokens [0x0D] ++ .eos :: [] ∧
    (walkView abcTree abcTree (examinedBits headed.pad [0x0D])).2 = .atRoot ∧
    (walkView abcTree abcTree (examinedBits headed.pad [])).2 = .atRoot :=
  ⟨⟨⟨rfl, rfl⟩, rfl⟩, ⟨rfl, rfl⟩, rfl, rfl, abc_isTree, rfl, by decide +kernel, by decide +kernel⟩

/-- V15: `PAD = 5`, with either `STRICT_END`. -/
theorem witness_UnpackDangling (strict : Bool) :
    Ready { headed with pad := 5, par := { sentinel := 0, strictEnd := strict }, inq := stream [0x0D] } ∧
    SinkGood { headed with pad := 5, par := { sentinel := 0, strictEnd := strict }, inq := stream [0x0D] } ∧
    headed.status.treeV = true ∧ headed.status.hdrV = true ∧ IsTree headed.node headed.root.toNat abcTree ∧
    (walkView abcTree abcTree (examinedBits 5 [0x0D])).2 = .inside (.node 2 (.leaf 0x61#8 1) (.leaf 0x62#8 1)) :=
  ⟨⟨⟨rfl, rfl⟩, rfl⟩, ⟨rfl, rfl⟩, rfl, rfl, abc_isTree, by decide +kernel⟩

/-- The tree of one leaf, and a body. -/
def oneLeaf (q : List Token) : State :=
  { headed with node := [.leaf 0x00#8 3], nleaf := 1, live := 1, root := 0, cur := 0, nent := 1, pad := 7, inq := q }

/-- A body of one byte, and one of two. -/
theorem witness_UnpackOneLeaf (l : List Byte) (_ : l = [] ∨ l = [0x01]) : Ready (oneLeaf (stream (0x00 :: l))) ∧
    (oneLeaf (stream (0x00 :: l))).status.treeV = true ∧ (oneLeaf (stream (0x00 :: l))).status.hdrV = true ∧
    (oneLeaf (stream (0x00 :: l))).node[(oneLeaf (stream (0x00 :: l))).root.toNat]? = some (.leaf 0x00#8 3) ∧
    (oneLeaf (stream (0x00 :: l))).inq = byteTokens (0x00 :: l) ++ .eos :: [] := ⟨⟨⟨rfl, rfl⟩, rfl⟩, rfl, rfl, rfl, rfl⟩

theorem witness_InvalidBitUnreachable : Idle { headed with inq := stream [0x0D] } ∧ headed.status.treeV = true ∧
    headed.status.hdrV = true ∧ IsInternal headed.node headed.root.toNat ∧
    ∃ t, exec .unpack { headed with inq := stream [0x0D] } = .next t :=
  ⟨⟨rfl, rfl⟩, rfl, rfl, ⟨3, 2, 3, rfl⟩, (next_of_seen test_unpack).imp fun _ h => h.1⟩

/-- V14: `0D` and `ED` differ in the three padding bits alone. -/
theorem witness_PaddingBitsIgnored : (∀ j, j < 8 - headed.pad.toNat → (0x0D#8).getLsbD j = (0xED#8).getLsbD j) ∧
    (0x0D#8 ≠ 0xED#8) ∧ (∃ t, exec .unpack { headed with inq := byteTokens ([] ++ [0x0D]) ++ .eos :: [] } = .next t) ∧
    Idle headed :=
  ⟨by decide, by decide, (next_of_seen test_unpack).imp fun _ h => h.1, ⟨rfl, rfl⟩⟩

/-! ### ENC and DEC -/

/-- Two equal passes, and two passes that differ (V17). -/
theorem witness_EncResult : Ready (given (stream [0x61, 0x62] ++ stream [0x62, 0x62, 0x61])) ∧
    SinkGood (given (stream [0x61, 0x62] ++ stream [0x62, 0x62, 0x61])) ∧
    (given (stream [0x61, 0x62] ++ stream [0x62, 0x62, 0x61])).inq =
      byteTokens [0x61, 0x62] ++ .eos :: (byteTokens [0x62, 0x62, 0x61] ++ .eos :: []) ∧
    (∀ b ∈ [0x62#8, 0x62#8, 0x61#8], tableGet (freqView bare.par.sentinel [0x61, 0x62]) b ≠ none) ∧
    (∀ b ∈ [0x61#8, 0x62#8], tableGet (freqView bare.par.sentinel [0x61, 0x62]) b ≠ none) :=
  ⟨⟨⟨rfl, rfl⟩, rfl⟩, ⟨rfl, rfl⟩, rfl, by decide +kernel, by decide +kernel⟩

/-- An end at the root, a dangling end under either `STRICT_END`, and a failure in each unit. -/
theorem witness_DecResult : Ready (given (stream (abcHeader 3 ++ [0x0D]))) ∧
    SinkGood (given (stream (abcHeader 3 ++ [0x0D]))) ∧
    (given (stream (abcHeader 3 ++ [0x0D]))).inq = byteTokens (abcHeader 3 ++ [0x0D]) ++ .eos :: [] ∧
    decodeView true (abcHeader 3 ++ [0x0D]) = .done [0x61, 0x62, 0x63] false ∧
    decodeView false (abcHeader 5 ++ [0x0D]) = .done [0x61] true ∧
    decodeView true (abcHeader 5 ++ [0x0D]) = .fail .danglingEnd ∧ decodeView true [] = .fail .truncHdr ∧
    decodeView true [0x23, 0x24] = .fail .badPad ∧ decodeView true [0, 0, 0] = .fail .emptyTable ∧
    decodeView true ([7, 1, 0] ++ entryOf 0x00 3 ++ [0]) = .fail .invalidBit :=
  ⟨⟨⟨rfl, rfl⟩, rfl⟩, ⟨rfl, rfl⟩, rfl, by decide +kernel, by decide +kernel, by decide +kernel, by decide +kernel,
    by decide +kernel, by decide +kernel, by decide +kernel⟩

/-- X2: "?" there, and back on a block with the other sentinel; `witness_SentinelGap` has an input of sentinels. -/
theorem witness_RoundTrip : ∃ s' t : State, Ready (given (stream [0x3F] ++ stream [0x3F])) ∧
    SinkGood (given (stream [0x3F] ++ stream [0x3F])) ∧ Ready s' ∧ SinkGood s' ∧
    ¬([0x3F#8] ≠ [] ∧ ∀ b ∈ [0x3F#8], b = bare.par.sentinel) ∧
    (given (stream [0x3F] ++ stream [0x3F])).inq = byteTokens [0x3F] ++ .eos :: (byteTokens [0x3F] ++ .eos :: []) ∧
    exec .enc (given (stream [0x3F] ++ stream [0x3F])) = .next t ∧ s'.inq = byteTokens t.sink.output ++ .eos :: [] ∧
    s'.par.sentinel ≠ bare.par.sentinel := by
  obtain ⟨t, ht, -⟩ := next_of_seen test_enc
  exact ⟨{ given (byteTokens t.sink.output ++ [.eos]) with par := { sentinel := 0xFF, strictEnd := true } }, t,
    ⟨⟨rfl, rfl⟩, rfl⟩, ⟨rfl, rfl⟩, ⟨⟨rfl, rfl⟩, rfl⟩, ⟨rfl, rfl⟩, by decide, rfl, ht, rfl,
    (by decide : (0xFF#8 : Byte) ≠ 0x00#8)⟩

/-- V9, with one sentinel byte, the fewest. -/
theorem witness_SentinelGap : ∃ s' t : State, Ready (given (stream [0x00] ++ stream [0x00])) ∧
    SinkGood (given (stream [0x00] ++ stream [0x00])) ∧ Ready s' ∧ SinkGood s' ∧ 1 ≤ 1 ∧
    (given (stream [0x00] ++ stream [0x00])).inq = byteTokens (List.replicate 1 bare.par.sentinel) ++ .eos ::
      (byteTokens (List.replicate 1 bare.par.sentinel) ++ .eos :: []) ∧
    exec .enc (given (stream [0x00] ++ stream [0x00])) = .next t ∧ s'.inq = byteTokens t.sink.output ++ .eos :: [] := by
  obtain ⟨t, ht, -⟩ := next_of_seen (f := registers) (o := exec .enc (given (stream [0x00] ++ stream [0x00])))
    (x := (0x003E, 0, 1)) (by decide +kernel)
  exact ⟨given (byteTokens t.sink.output ++ [.eos]), t, ⟨⟨rfl, rfl⟩, rfl⟩, ⟨rfl, rfl⟩, ⟨⟨rfl, rfl⟩, rfl⟩, ⟨rfl, rfl⟩, by decide, rfl,
    ht, rfl⟩

/-! ### The container's fields and the code bits -/

/-- The last legal padding count, and the first illegal one. -/
theorem witness_PaddingCountResult : (parsing 0).status.busy = true ∧ (parsing 0).work = .hdr 0 ∧ (parsing 0).hpos = 0 ∧
    (7#8).toNat ≤ 7 ∧ 7 < (8#8).toNat := ⟨rfl, rfl, rfl, by decide, by decide⟩

/-- No entry in HDR and in DEC, and one. -/
theorem witness_EntryCountResult : (parsing 1).status.busy = true ∧ (parsing 1).work = .hdr 0 ∧ (parsing 1).hpos = 1 ∧
    (1 : BitVec 16) ≠ 0 ∧ (parsing 1).op = .unit ∧ ({ parsing 1 with op := .dec } : State).op = .dec :=
  ⟨rfl, rfl, rfl, by decide, rfl, rfl⟩

/-- The first of two entries, and the last of the most a header can declare, in HDR and in DEC. -/
theorem witness_EntryResult : (parsing 3).status.busy = true ∧ (parsing 3).work = .hdr 0 ∧
    (parsing 3).hpos.toNat = 3 + 9 * 0 ∧ 0 < ({ parsing 3 with nent := 2 } : State).nent.toNat ∧
    0 + 1 < ({ parsing 3 with nent := 2 } : State).nent.toNat ∧ (parsing 589809).hpos.toNat = 3 + 9 * 65534 ∧
    65534 < ({ parsing 589809 with nent := 0xFFFF } : State).nent.toNat ∧
    65534 + 1 = ({ parsing 589809 with nent := 0xFFFF } : State).nent.toNat ∧ (parsing 589809).op = .unit ∧
    ({ parsing 589809 with op := .dec } : State).op = .dec :=
  ⟨rfl, rfl, by decide, by decide, by decide, by decide, by decide, by decide, rfl, rfl⟩

/-- The first byte of a body; a second one, after which the cursor is at the root; and one after which it is inside. -/
theorem witness_BodyByteResult : walking.status.busy = true ∧ walking.work = .pull ∧ walking.hold = none ∧
    SinkGood walking ∧ ({ walking with hold := some 0x0D#8 } : State).hold = some 0x0D ∧
    WalkAt walking.node walking.root walking.cur abcTree abcTree ∧
    (walkView abcTree abcTree (bitsOf 0x0D 8)).2 = .atRoot ∧
    (walkView abcTree abcTree (bitsOf 0x80 8)).2 = .inside (.node 2 (.leaf 0x61#8 1) (.leaf 0x62#8 1)) :=
  ⟨rfl, rfl, rfl, ⟨rfl, rfl⟩, rfl, ⟨abc_isTree, abc_isTree, .inl ⟨rfl, rfl⟩⟩, by decide +kernel, by decide +kernel⟩

/-- In the tree of "abc": 1 at the root leads inside, 0 to a leaf; on the one leaf there is no edge. The bit may be one
before another, the last of a byte with a successor, or the last of the body, under either `STRICT_END`. -/
theorem witness_CodeBitWalk (bits : List Bool) (next : Option Byte) (strict : Bool) :
    ({ walking with work := .walk bits next, par := { sentinel := 0, strictEnd := strict } } : State).status.busy = true ∧
    ({ walking with work := .walk bits next } : State).work = .walk bits next ∧
    walking.node[walking.cur.toNat]? = some (.internal 3 2#9 3#9) ∧
    walking.node[(if true then 3#9 else 2#9).toNat]? = some (.internal 2 0#9 1#9) ∧
    walking.node[(if false then 3#9 else 2#9).toNat]? = some (.leaf 0x63#8 1) ∧ SinkGood walking ∧
    (if true then 3#9 else 2#9) ≠ walking.root ∧ (oneLeaf []).node[(oneLeaf []).cur.toNat]? = some (.leaf 0x00#8 3) :=
  ⟨rfl, rfl, rfl, rfl, rfl, ⟨rfl, rfl⟩, by decide, rfl⟩

/-- The first bit of a byte, the last before the eighth, and the eighth, each in a code word and at its end. -/
theorem witness_CodeBitPack (bits : List Bool) : (packing (.packBits bits)).status.busy = true ∧
    (packing (.packBits bits)).work = .packBits bits ∧ (packing (.packBits bits)).nb ≠ 7 ∧
    ({ packing (.packBits bits) with nb := 6 } : State).nb ≠ 7 ∧
    ({ packing (.packBits bits) with nb := 7 } : State).nb = 7 ∧ SinkGood (packing (.packBits bits)) :=
  ⟨rfl, rfl, (by decide : 0#3 ≠ 7#3), (by decide : 6#3 ≠ 7#3), rfl, ⟨rfl, rfl⟩⟩

/-! ### Frames -/

theorem witness_FreqHdrFrame : (∃ t, exec .freq { bare with inq := stream [0x3F] } = .next t) ∧
    ∃ t, exec .hdr { bare with inq := stream [0, 1, 0, 0x41, 1, 0, 0, 0] } = .next t :=
  ⟨(next_of_seen test_freq).imp fun _ h => h.1, (next_of_seen test_hdr_truncated).imp fun _ h => h.1⟩

/-- BUILD, with the cursor inside the new tree and above it; ASSIGN. -/
theorem witness_BuildAssignFrame : (∃ t, exec .build counted = .next t) ∧
    (∃ t, exec .build { counted with cur := 9 } = .next t ∧ t.nn = 5) ∧ ∃ t, exec .assign built = .next t :=
  ⟨(next_of_seen test_build).imp fun _ h => h.1, next_of_seen (f := State.nn) (x := 5) (by decide +kernel),
    (next_of_seen test_assign).imp fun _ h => h.1⟩

theorem witness_PackUnpackFrame : (∃ t, exec .pack { assigned with inq := stream [0x61, 0x64] } = .next t) ∧
    ∃ t, exec .unpack { headed with pad := 5, inq := stream [0x0D] } = .next t :=
  ⟨(next_of_seen test_pack_no_code).imp fun _ h => h.1, (next_of_seen test_unpack_dangling).imp fun _ h => h.1⟩

/-- PACK stores 31 bytes from address 0: address 31 is outside them; FREQ stores none. -/
theorem witness_MemoryFrame : ∃ t, exec .pack { assigned with inq := stream [0x61, 0x62, 0x63] } = .next t ∧
    outputStart t = 31 := next_of_seen (by decide +kernel)

/-- V15: the symbol at address 0 is output of a failed operation. -/
theorem witness_FailedOutputIsFree : Idle { headed with pad := 5, inq := stream [0x0D] } ∧ IsCommand .unpack ∧
    ∃ t, exec .unpack { headed with pad := 5, inq := stream [0x0D] } = .next t ∧
      (t.status.busy, t.status.ok, outputStart { headed with pad := 5, inq := stream [0x0D] }, outputStart t) =
        (false, false, 0, 1) := ⟨⟨rfl, rfl⟩, rfl, next_of_seen (by decide +kernel)⟩

/-- A failure at a later turn: the last bit of the body leads inside the tree. -/
theorem witness_FailedOutputIsFree_later : Inv (walkingOn [true] []) ∧ (walkingOn [true] []).status.busy = true ∧
    ∃ t, step (walkingOn [true] []) = .next t ∧
      (t.status.busy, t.status.ok, t.sink.base, outputStart t) = (false, false, 0, 1) :=
  ⟨inv_walkingOn _ _, rfl, next_of_seen (by decide +kernel)⟩

/-! ### The machine -/

/-- Idle; without a token; with the sink not ready before the placeholder, a header byte, the eighth bit, the last
byte, the rewrite, and a symbol. -/
theorem witness_WaitingIsNoStep : bare.host = [] ∧ bare.status.busy = false ∧
    walking.inq = [] ∧ walking.work = .pull ∧ (parsing 0).inq = [] ∧ (parsing 0).work = .hdr 0 ∧
    ({ packing .packStart with sink := { Sink.empty with ready := false } } : State).sink.ready = false ∧
    (packing .packStart).work = .packStart ∧ (packing .packTail).work = .packTail ∧ (packing .packRewrite).work = .packRewrite ∧
    (packing (.packHdr [0x03])).work = .packHdr (0x03 :: []) ∧
    ({ packing (.packBits [true]) with nb := 7 } : State).work = .packBits (true :: []) ∧
    ({ walking with work := .walk [false] none } : State).work = .walk (false :: []) none ∧
    walking.node[walking.cur.toNat]? = some (.internal 3 2#9 3#9) ∧
    walking.node[(if false then 3#9 else 2#9).toNat]? = some (.leaf 0x63#8 1) :=
  ⟨rfl, rfl, rfl, rfl, rfl, rfl, rfl, rfl, rfl, rfl, rfl, rfl, rfl, rfl, rfl⟩

/-- The same with a pace of 0. -/
def mergingHeld : State := { merging with pace := some 0 }

/-- A pace of 0 holds nothing back when no host act is pending: the merge is made. -/
theorem witness_WaitingIsNoStep_moves : Inv mergingHeld ∧ mergingHeld.host = [] ∧ ¬Waits mergingHeld ∧
    ∃ t, step mergingHeld = .next t ∧ t.nn = 3 := by
  refine ⟨⟨inv_merging.status, inv_merging.mem, inv_merging.arena, ⟨by decide +kernel, by decide +kernel⟩, inv_merging.tree,
    inv_merging.assign, inv_merging.acc, inv_merging.unpack⟩, rfl, ?_,
    next_of_seen (f := State.nn) (x := 3) (by decide +kernel)⟩
  rintro (h | ⟨-, h | h | h | ⟨_, h⟩⟩ | ⟨h, -⟩)
  all_goals cases h

/-- BUILD, its last merge done. -/
theorem witness_PhaseOrder : Inv merging ∧ merging.host = [] ∧ merging.pace = some 1 ∧ merging.status.busy = true ∧
    ∃ t, step merging = .next t ∧ t.nn = 3 := ⟨inv_merging, rfl, rfl, rfl, next_of_seen (by decide +kernel)⟩

/-- FREQ running, and two bursts of tokens. -/
def counting (h : List HostAct) : State :=
  { bare with status := { Status.reset with busy := true, phase := .freq }, work := .freq, host := h }

theorem witness_ChunkIndependence : Unpaced (counting [.feed [.byte 0x61], .feed [.byte 0x62, .eos]]) ∧
    ∃ t u v, step (counting [.feed [.byte 0x61], .feed [.byte 0x62, .eos]]) = .next t ∧ step t = .next u ∧
      step (counting [.feed [.byte 0x61, .byte 0x62, .eos]]) = .next v ∧ tick u = .wait ∧ tick v = .wait := by
  obtain ⟨v, hv, wv⟩ := next_of_seen (f := tick) (x := .wait)
    (o := step (counting [.feed [.byte 0x61], .feed [.byte 0x62, .eos]] |> fun s =>
      { s with host := [.feed [.byte 0x61, .byte 0x62, .eos]] })) (by decide +kernel)
  obtain ⟨t, ht, wt⟩ := next_of_seen
    (f := fun t => seen (fun u => tick u) (step t)) (x := some .wait)
    (o := step (counting [.feed [.byte 0x61], .feed [.byte 0x62, .eos]])) (by decide +kernel)
  obtain ⟨u, hu, wu⟩ := next_of_seen wt
  exact ⟨rfl, t, u, v, ht, hu, hv, wu, wv⟩

theorem witness_StepKeepsInv : Inv merging ∧ ∃ t, step merging = .next t :=
  ⟨inv_merging, (next_of_seen (f := State.nn) (x := 3) (by decide +kernel)).imp fun _ h => h.1⟩

/-- UNPACK in mid-walk, the tree valid and the cursor inside it. -/
theorem witness_StepKeepsInv_cursor : Inv (walkingOn [true] []) ∧ (walkingOn [true] []).status.treeV = true ∧
    ∃ t, step (walkingOn [true] []) = .next t :=
  ⟨inv_walkingOn _ _, rfl, (next_of_seen (f := State.nn) (x := 5) (by decide +kernel)).imp fun _ h => h.1⟩

theorem witness_MachineGoesOn : Inv merging := inv_merging

end Sys2Proof.Tests
end

section
/-! The invariant of Safety.lean along a turn, under every instruction and under every act of the host: each of them
goes on, to a state with the invariant. -/

namespace Sys2Proof.Machine

/-! ### Outcomes -/

/-- The machine goes on, to a state with the invariant. -/
def SafeNext (o : Host.Outcome State Fault Refusal) : Prop := ∃ t, o = .next t ∧ Inv t

theorem SafeNext.next {s : State} (h : Inv s) : SafeNext (.next s) := ⟨s, rfl, h⟩

theorem SafeNext.goesOn {o : Host.Outcome State Fault Refusal} (h : SafeNext o) : GoesOn o := h.imp fun _ => And.left

theorem SafeNext.inv {o : Host.Outcome State Fault Refusal} {t : State} (h : SafeNext o) (e : o = .next t) : Inv t := by
  obtain ⟨u, hu, hi⟩ := h
  cases hu.symm.trans e
  exact hi

theorem drive_safeNext (n : Nat) {s : State} (h : Inv s) : SafeNext (drive n s) := by
  have keeps : ∀ s t, Inv s → tick s = .next t → Inv t := fun _ t hs => (tick_inv hs).2 t
  obtain ⟨t, ht⟩ := drive_goes_on keeps (fun _ f hs => (tick_inv hs).1 f) n h
  exact ⟨t, ht, drive_keeps keeps h ht⟩

theorem turn_safeNext {s : State} (h : Inv s) : SafeNext (turn s) := drive_safeNext _ h

/-! ### Commands -/

theorem Begun.fail {s : State} (h : Begun s) (c : Cause) : Inv (raiseCause c s) := .of_fail h.mem h.arena h.tree c

/-- The end actions on an operation that has no unit: CLR's (45 R161). -/
theorem Begun.finish {s : State} (h : Begun s) : Inv (endOk s) where
  status := ⟨rfl, by simp [Status.succeed], by simp [Status.succeed]⟩
  mem := h.mem
  arena := h.arena
  build := trivial
  tree := h.tree
  assign := trivial
  acc := trivial
  unpack := trivial

theorem issue_safeNext {op : Op} {ready : Status → Bool} {start : State → State} {s : State} (h : Inv s)
    (hstart : ∀ u, Begun u → ready u.status = true → Inv (start u)) : SafeNext (issue op ready start s) := by
  have hb : Begun (startOp s op) := .startOp h op
  rcases issue_cases op ready start s with ⟨_, e⟩ | ⟨_, _, e⟩ | ⟨_, hr, e⟩ <;> rw [e]
  · exact .next h
  · exact .next (hb.fail _)
  · exact turn_safeNext (hstart _ hb hr)

theorem execClr_safeNext {s : State} (h : Inv s) : SafeNext (execClr s) := by
  unfold execClr
  split
  · exact .next (Begun.startOp h .unit).clearBlock.finish
  · exact .next h

theorem execReserved_safeNext {s : State} (h : Inv s) : SafeNext (execReserved s) := by
  unfold execReserved
  split
  · exact .next ((Begun.startOp h .unit).fail _)
  · exact .next h

/-! ### The container's fields and the code bits -/

theorem Inv.feedHeader {s : State} (h : Inv s) (bytes : List Byte) : Inv (feedHeader bytes s) := by
  induction bytes generalizing s with
  | nil => exact h
  | cons b rest ih =>
    unfold Machine.feedHeader
    split
    · next hw => exact ih (h.hdrByte hw b)
    · exact h

theorem execBodyByte_safeNext {s : State} (h : Inv s) (b : Byte) : SafeNext (execBodyByte b s) := by
  unfold execBodyByte
  split
  · next hw => exact drive_safeNext _ (h.unpackToken hw (.byte b) s.inq)
  · exact .next h

theorem writeStep_ne_fault (s : State) (off : Nat) (b : Byte) (good bad : State) (f : Fault) :
    writeStep s off b good bad ≠ .fault f := by
  rcases writeStep_cases s off b good bad with ⟨_, e⟩ | ⟨_, _, e⟩ | ⟨_, e⟩ <;> simp [e]

theorem packBit_ne_fault (v : Bool) (rest : List Bool) (s : State) (f : Fault) : packBit v rest s ≠ .fault f := by
  simp only [packBit]
  split
  · exact writeStep_ne_fault _ _ _ _ _ f
  · simp

theorem stepOrStay_safeNext {t : Tick} {stay : State} (hf : ∀ f, t ≠ .fault f) (hn : ∀ u, t = .next u → Inv u)
    (hs : Inv stay) : SafeNext (stepOrStay t stay) := by
  cases t with
  | wait => exact .next hs
  | next u => exact .next (hn u rfl)
  | fault f => exact absurd rfl (hf f)

theorem execCodeBit_safeNext {s : State} (h : Inv s) (v : Bool) : SafeNext (execCodeBit v s) := by
  unfold execCodeBit
  split
  · next bits next _ hw =>
    obtain ⟨ht, hc⟩ : s.status.treeV = true ∧ s.cur.toNat < s.node.length := by
      simpa only [UnpackInv, hw] using h.unpack
    have stay : Inv { s with work := .walk (v :: bits) next } :=
      h.unpackAt (k := s.sink) (h.phase_eq hw) (by simp [hw]) h.mem rfl ht hc
    obtain ⟨hf, hn⟩ := h.walkBit hw v bits next
    exact stepOrStay_safeNext hf hn stay
  · next bits _ hw =>
    have hacc : s.acc.toNat < 2 ^ s.nb.toNat := by simpa only [AccInv, hw] using h.acc
    have stay : Inv { s with work := .packBits (v :: bits) } :=
      h.packAt (by simp [hw]) ((h.phase_eq hw).trans rfl) (.inr rfl) (.inr (.inr hacc))
    exact stepOrStay_safeNext (packBit_ne_fault v bits s) (fun _ => h.packBit hw v bits) stay
  · exact .next h

/-! ### Every instruction -/

theorem exec_safeNext {s : State} (h : Inv s) (i : Instr) : SafeNext (exec i s) := by
  have field : ∀ place bytes, SafeNext (if hdrAt place s then .next (feedHeader bytes s) else .next s) := by
    intro place bytes
    split
    · exact .next (h.feedHeader bytes)
    · exact .next h
  cases i with
  | clr => exact execClr_safeNext h
  | freq => exact issue_safeNext h fun _ hu _ => hu.startFreq
  | build => exact issue_safeNext h fun _ hu _ => hu.startBuild
  | assign => exact issue_safeNext h fun _ hu ht => hu.startAssign ht
  | pack => exact issue_safeNext h fun _ hu _ => hu.startPack
  | hdr => exact issue_safeNext h fun _ hu _ => hu.startHdr
  | unpack => exact issue_safeNext h fun _ hu hr => hu.startUnpack (Bool.and_eq_true_iff.1 hr).1
  | enc => exact issue_safeNext h fun _ hu _ => hu.clearBlock.startFreq
  | dec => exact issue_safeNext h fun _ hu _ => hu.clearBlock.startHdr
  | paddingCount p => exact field .padding [p]
  | entryCount n => exact field .countLo (le16 n)
  | entry sym count => exact field .symbol (sym :: le64 count)
  | bodyByte b => exact execBodyByte_safeNext h b
  | codeBit v => exact execCodeBit_safeNext h v

/-! ### The host's acts -/

/-- A sink in canonical form whose operation has written nothing. -/
theorem MemInv.of_noOutput {s : State} (hm : memWf s.sink.mem = true) (h0 : s.sink.olen = 0) : MemInv s :=
  ⟨hm, fun i hi => absurd (h0 ▸ hi) (Nat.not_lt_zero i)⟩

/-- The invariant says nothing of the host's own fields. -/
theorem Inv.hostFields {s : State} (h : Inv s) (q : List Token) (acts : List HostAct) (p : Option Nat) (d : BitVec 16)
    (r : Bool) : Inv { s with inq := q, host := acts, pace := p, rdata := d, inReset := r } :=
  ⟨h.status, h.mem, h.arena, h.build, h.tree, h.assign, h.acc, h.unpack⟩

/-- The sink when the reset input is asserted: the output of a running operation is void (70 R196). -/
def abandonedSink (s : State) : Sink := if s.status.busy then s.sink.voidOutput s.freeCtr else s.sink

@[simp] theorem abandonedSink_mem (s : State) : (abandonedSink s).mem = s.sink.mem := by
  unfold abandonedSink; split <;> simp
@[simp] theorem abandonedSink_base (s : State) : (abandonedSink s).base = s.sink.base := by
  unfold abandonedSink; split <;> simp
@[simp] theorem abandonedSink_olen (s : State) : (abandonedSink s).olen = s.sink.olen := by
  unfold abandonedSink; split <;> simp

/-- What asserting the reset input comes to (70 R195, R196). -/
theorem resetBlock_eq (s : State) : ∃ n, resetBlock s =
    { clearBlock s with status := Status.reset, op := .unit, sink := abandonedSink s, freeCtr := n } := by
  unfold resetBlock abandonedSink
  cases s.status.busy <;> exact ⟨_, rfl⟩

theorem Inv.resetBlock {s : State} (h : Inv s) : Inv (resetBlock s) := by
  obtain ⟨n, e⟩ := resetBlock_eq s
  rw [e]
  refine ⟨⟨rfl, by simp [Status.reset], by simp [Status.reset]⟩, ?_, ⟨by simp, by simp⟩, trivial, ?_, trivial, trivial,
    trivial⟩
  · simpa only [MemInv, abandonedSink_mem, abandonedSink_base, abandonedSink_olen] using h.mem
  · simp [TreeInv, Status.reset]

theorem Inv.hostAct {s : State} (h : Inv s) (a : HostAct) : Inv (hostAct a s) := by
  cases a with
  | write n v => exact h
  | read n => exact h.hostFields s.inq s.host s.pace _ s.inReset
  | feed ts => exact h.hostFields _ s.host s.pace s.rdata s.inReset
  | drain => exact h.hostFields _ s.host s.pace s.rdata s.inReset
  | setPace p => exact h.hostFields s.inq s.host p s.rdata s.inReset
  | takeSink =>
    simp only [Machine.hostAct]
    split
    · exact h.withSink (.of_noOutput rfl rfl)
    · exact h
  | seekSink a =>
    simp only [Machine.hostAct]
    split
    · exact h.withSink (.of_noOutput ((memWf_settle s.sink).trans h.mem.1) rfl)
    · exact h
  | sinkReady r => exact h.withSink h.mem
  | sinkFails fs => exact h.withSink h.mem
  | resetInput asserted =>
    cases asserted with
    | true => exact h.resetBlock.hostFields (Machine.resetBlock s).inq _ _ _ true
    | false => exact h.hostFields s.inq s.host s.pace s.rdata false

theorem writeCmd_safeNext {s : State} (h : Inv s) (c : Byte) : SafeNext (writeCmd c s) := by
  unfold writeCmd
  split
  · exact exec_safeNext h _
  · exact execReserved_safeNext h

/-- An act other than a register write is done, and the sequencer has its turn. -/
theorem serve_of_not_write {a : HostAct} (ha : ∀ n v, a ≠ .write n v) (s : State) : serve a s = turn (hostAct a s) := by
  cases a with
  | write n v => exact absurd rfl (ha n v)
  | read _ | feed _ | drain | takeSink | seekSink _ | sinkReady _ | sinkFails _ | resetInput _ | setPace _ => rfl

theorem serve_safeNext {s : State} (h : Inv s) (a : HostAct) : SafeNext (serve a s) := by
  by_cases ha : ∃ n v, a = .write n v
  · obtain ⟨n, v, rfl⟩ := ha
    cases n with
    | zero => exact writeCmd_safeNext h v
    | succ n => exact turn_safeNext h
  · rw [serve_of_not_write (fun n v e => ha ⟨n, v, e⟩)]
    exact turn_safeNext (h.hostAct a)

theorem step_nil {s : State} (h : s.host = []) : step s = ownTurn s := by simp only [step, advance, h]

theorem step_cons {s : State} {a : HostAct} {rest : List HostAct} (h : s.host = a :: rest) :
    step s = serve a { s with host := rest } := by simp only [step, advance, h]

theorem step_safeNext {s : State} (h : Inv s) : SafeNext (step s) := by
  cases hh : s.host with
  | nil => rw [step_nil hh]; exact drive_safeNext _ h
  | cons a rest => rw [step_cons hh]; exact serve_safeNext (h.hostFields s.inq rest s.pace s.rdata s.inReset) a

/-! ### The obligations on the invariant -/

/-- Settles O59: whatever the host's act, the step leads to a state with the invariant. -/
theorem stepKeepsInv : Obligations.StepKeepsInv := fun _ _ h ht => (step_safeNext h).inv ht

/-- Settles O60: the invariant is kept along every turn, and no step of the sequencer meets a fault where it holds. -/
theorem machineGoesOn : Obligations.MachineGoesOn := fun _ h =>
  ⟨(step_safeNext h).goesOn, fun i => (exec_safeNext h i).goesOn⟩

/-- Settles O58: the block is idle, with an empty arena and an empty sink. -/
theorem resetInv : Obligations.ResetInv where
  status := ⟨rfl, by simp [State.reset, Status.reset], by simp [State.reset, Status.reset]⟩
  mem := .of_noOutput rfl rfl
  arena := ⟨by simp [State.reset], by simp [State.reset]⟩
  build := trivial
  tree := by simp [TreeInv, State.reset, Status.reset]
  assign := trivial
  acc := trivial
  unpack := trivial

end Sys2Proof.Machine
end

section
/-! The host's port: what a register read returns, the bits of `STATUS`, and the reset input. -/

namespace Sys2Proof.Machine

/-! ### Registers -/

theorem readRegister_eq (s : State) (n : Nat) : readRegister s n =
    if n = 0 then 0 else if n = 1 then s.status.word else if n = 2 then BitVec.ofNat 16 s.pad.toNat
    else if n = 3 then s.nent else 0 := by
  match n with
  | 0 => rfl
  | 1 => rfl
  | 2 => exact (BitVec.ofNat_toNat 16 s.pad).symm
  | 3 => rfl
  | n + 4 => simp [readRegister]

/-- Settles O11: a read is done and answers `readRegister`; a write to a register other than `CMD` is no act at all. -/
theorem registerAccess : Obligations.RegisterAccess := by
  refine ⟨fun s n h hh => ?_, fun s n v h hn hh => ?_⟩
  · rw [step_cons hh, ← readRegister_eq s n]
    rfl
  · obtain ⟨m, rfl⟩ := Nat.exists_eq_succ_of_ne_zero hn
    rw [step_cons hh]
    rfl

theorem getLsbD_append_ofBool {w : Nat} (x : BitVec w) (b : Bool) (i : Nat) :
    (x ++ BitVec.ofBool b).getLsbD i = if i = 0 then b else x.getLsbD (i - 1) := by
  rw [BitVec.getLsbD_append]
  cases i <;> simp

/-- Bit `i` of `STATUS` (10 R15). -/
theorem getLsbD_word (t : Status) (i : Nat) : t.word.getLsbD i =
    if i = 0 then t.busy else if i = 1 then t.done else if i = 2 then t.ok else if i = 3 then t.ftV
    else if i = 4 then t.treeV else if i = 5 then t.ctV else if i = 6 then t.hdrV else if i = 7 then t.dangling
    else if i - 8 < 4 then t.cause.code.getLsbD (i - 8) else t.phase.code.getLsbD (i - 8 - 4) := by
  unfold Status.word
  iterate 8 rw [getLsbD_append_ofBool]
  rw [BitVec.getLsbD_append]
  match i with
  | 0 | 1 | 2 | 3 | 4 | 5 | 6 | 7 | i + 8 => simp

/-- A field of `STATUS` is known by its bits. -/
theorem extractLsb'_word {t : Status} {k : Nat} {c : BitVec 4} (h : ∀ i < 4, t.word.getLsbD (k + i) = c.getLsbD i) :
    t.word.extractLsb' k 4 = c := by
  refine BitVec.eq_of_getLsbD_eq fun i hi => ?_
  rw [BitVec.getLsbD_extractLsb', h i hi]
  simp [hi]

/-- Settles O12: `word` is the concatenation of the two codes and the eight flags. -/
theorem statusWord : Obligations.StatusWord := by
  refine ⟨fun t => ⟨getLsbD_word t 0, getLsbD_word t 1, getLsbD_word t 2, getLsbD_word t 3, getLsbD_word t 4,
    getLsbD_word t 5, getLsbD_word t 6, getLsbD_word t 7, ?_, ?_⟩, by decide, by decide⟩
  · refine extractLsb'_word fun i hi => ?_
    rw [Nat.add_comm, getLsbD_word]
    simp [hi]
  · refine extractLsb'_word fun i hi => ?_
    rw [Nat.add_comm, getLsbD_word]
    simp

/-! ### Reset -/

/-- The registers and tables that 10 R33 gives a reset value, `STATUS` aside. -/
def resetFields (s : State) :=
  (s.pad, s.nent, s.cur, s.root, s.node, s.nleaf, s.live, s.ft, s.ct, s.acc, s.nb, s.hold, s.hpos, s.path, s.stk)

theorem BlockReset.congr {s t : State} (h : BlockReset s) (e : resetFields t = resetFields s) : BlockReset t := by
  simp only [resetFields, Prod.mk.injEq] at e
  obtain ⟨pad, nent, cur, root, node, nleaf, live, ft, ct, acc, nb, hold, hpos, path, stk⟩ := e
  exact ⟨pad.trans h.pad, nent.trans h.nent, cur.trans h.cur, root.trans h.root,
    (congrArg List.length node).trans h.nn, nleaf.trans h.nleaf, live.trans h.live, fun b => by rw [ft]; exact h.ft b,
    fun b => by rw [ct]; exact h.ct b, acc.trans h.acc, nb.trans h.nb, hold.trans h.holdV, hpos.trans h.hpos,
    path.trans h.plen, stk.trans h.stk⟩

theorem blockReset_clearBlock (s : State) : BlockReset (clearBlock s) :=
  ⟨rfl, rfl, rfl, rfl, rfl, rfl, rfl, tableGet_emptyTable, tableGet_emptyTable, rfl, rfl, rfl, rfl, rfl, rfl⟩

/-- After reset the registers and tables stand as CLR leaves them. -/
theorem blockReset_reset : BlockReset State.reset :=
  (blockReset_clearBlock State.reset).congr rfl

theorem blockReset_resetBlock (s : State) : BlockReset (resetBlock s) := by
  obtain ⟨n, e⟩ := resetBlock_eq s
  rw [e]
  exact (blockReset_clearBlock s).congr rfl

theorem word_reset : Status.reset.word = 0x0000#16 := rfl

/-- A word written to `CMD` while the block takes none does nothing (45 R156, 70 R195). -/
theorem writeCmd_discarded {s : State} (h : takesCommand s = false) (c : Byte) : writeCmd c s = .next s := by
  have command : ∀ i, decodeCommand c = .ok i → i.space = .command := by
    intro i hi
    unfold decodeCommand at hi
    split_ifs at hi <;> cases hi <;> rfl
  unfold writeCmd
  cases hd : decodeCommand c with
  | ok i => simpa [decode, hd, Except.map] using exec_discarded (command i hd) h
  | error e => simp [decode, hd, Except.map, execReserved, h]

/-- An act other than a register write on a block that is idle after it is the whole step. -/
theorem step_of_act {s : State} {a : HostAct} {h : List HostAct} (hh : s.host = a :: h) (ha : ∀ n v, a ≠ .write n v)
    (hb : (hostAct a { s with host := h }).status.busy = false) : step s = .next (hostAct a { s with host := h }) := by
  rw [step_cons hh, serve_of_not_write ha, turn_of_idle hb]

/-- The step that asserts the reset input (70 R195, R196). -/
theorem step_resetInput {s : State} {h : List HostAct} (hh : s.host = .resetInput true :: h) :
    step s = .next { resetBlock { s with host := h } with inReset := true } :=
  step_of_act hh (by simp) rfl

/-- While the reset input is asserted the block keeps its reset values, whatever the host does (70 R195). -/
theorem reset_held {s t : State} (hr : s.inReset = true) (hb : BlockReset s) (hs : s.status = Status.reset)
    (ht : step s = .next t) :
    BlockReset t ∧ t.status = Status.reset ∧ (t.inReset = true ∨ ∃ h, s.host = .resetInput false :: h) := by
  have idle : s.status.busy = false := by rw [hs]; rfl
  cases hh : s.host with
  | nil =>
    rw [step_nil hh, ownTurn_of_idle idle] at ht
    cases ht
    exact ⟨hb, hs, .inl hr⟩
  | cons a rest =>
    by_cases hv : ∃ v, a = .resetInput v
    · obtain ⟨v, rfl⟩ := hv
      cases v with
      | true =>
        cases (step_resetInput hh).symm.trans ht
        exact ⟨(blockReset_resetBlock { s with host := rest }).congr rfl, rfl, .inl rfl⟩
      | false =>
        cases (step_of_act hh (by simp) idle).symm.trans ht
        exact ⟨hb.congr rfl, hs, .inr ⟨rest, rfl⟩⟩
    · have hlevel : ∀ v, a ≠ .resetInput v := fun v e => hv ⟨v, e⟩
      by_cases hw : ∃ n v, a = .write n v
      · obtain ⟨n, v, rfl⟩ := hw
        have same : step s = .next { s with host := rest } := by
          rw [step_cons hh]
          cases n with
          | zero => exact writeCmd_discarded (by simp [takesCommand, hr]) v
          | succ n => exact turn_of_idle idle
        cases same.symm.trans ht
        exact ⟨hb.congr rfl, hs, .inl hr⟩
      · obtain ⟨q, k, p, d, e⟩ := hostAct_block hlevel { s with host := rest }
        cases (step_of_act hh (fun n v e => hw ⟨n, v, e⟩) (by rw [e]; exact idle)).symm.trans ht
        rw [e]
        exact ⟨hb.congr rfl, hs, .inl hr⟩

/-- Settles O14: the block is idle from the step that asserts the reset input until a command is taken, so that no
turn changes it, and no command is taken while the input is asserted. -/
theorem resetInput : Obligations.ResetInput := by
  refine ⟨⟨blockReset_reset, rfl, rfl⟩, fun s h hh => ?_, fun s t => reset_held, fun s h hb hh => ?_,
    fun s c h hr hh => ?_⟩
  · obtain ⟨n, e⟩ := resetBlock_eq { s with host := h }
    refine ⟨_, step_resetInput hh, (blockReset_resetBlock { s with host := h }).congr rfl, rfl, word_reset, rfl, ?_⟩
    rw [e]
    refine ⟨rfl, by simp, by simp, by simp, rfl, rfl, fun hb ho => ?_, fun hb => ?_⟩
    · simp [abandonedSink, hb, Sink.voidOutput, ho]
    · simp [abandonedSink, hb]
  · exact step_of_act hh (by simp) hb
  · rw [step_cons hh]
    exact writeCmd_discarded (by simp [takesCommand, hr]) c

end Sys2Proof.Machine
end

section
/-! `PHASE` under one step of the sequencer, unit by unit (spec/10_state.md R18; spec/45_commands.md R162, R163). -/

namespace Sys2Proof.Machine

/-- Where `PHASE` goes from `p` in one step of an operation: nowhere, to 0, from PACK's header to its body, or to the
next unit of ENC or of DEC. -/
def PhaseMove (op : Op) (p q : Phase) : Prop :=
  q = p ∨ q = .idle ∨ (p = .packHdr ∧ q = .packBody) ∨
    (op = .enc ∧ ((p = .freq ∧ q = .build) ∨ (p = .build ∧ q = .assign) ∨ (p = .assign ∧ q = .packHdr))) ∨
    (op = .dec ∧ ((p = .hdr ∧ q = .build) ∨ (p = .build ∧ q = .unpack)))

@[simp] theorem PhaseMove.refl (op : Op) (p : Phase) : PhaseMove op p p := .inl rfl

@[simp] theorem PhaseMove.toIdle (op : Op) (p : Phase) : PhaseMove op p .idle := .inr (.inl rfl)

@[simp] theorem phase_fail (t : Status) (c : Cause) : (t.fail c).phase = .idle := rfl

@[simp] theorem phase_succeed (t : Status) : t.succeed.phase = .idle := rfl

/-! ### What follows a unit -/

theorem afterFreq_phase {s : State} (h : s.status.phase = .freq) :
    PhaseMove s.op s.status.phase (afterFreq s).status.phase := by
  unfold afterFreq
  split <;> simp [PhaseMove, *]

theorem afterBuild_phase {s : State} (h : s.status.phase = .build) :
    PhaseMove s.op s.status.phase (afterBuild s).status.phase := by
  unfold afterBuild
  split <;> simp [PhaseMove, *]

theorem afterAssign_phase {s : State} (h : s.status.phase = .assign) :
    PhaseMove s.op s.status.phase (afterAssign s).status.phase := by
  unfold afterAssign
  split <;> simp [PhaseMove, *]

theorem afterHdr_phase {s : State} (h : s.status.phase = .hdr) :
    PhaseMove s.op s.status.phase (afterHdr s).status.phase := by
  unfold afterHdr
  split <;> simp [PhaseMove, *]

/-! ### The units -/

theorem writeStep_phase {s good bad t : State} {off : Nat} {b : Byte} {op : Op} {p : Phase}
    (ht : writeStep s off b good bad = .next t) (hg : PhaseMove op p good.status.phase) :
    PhaseMove op p t.status.phase := by
  rcases writeStep_cases s off b good bad with ⟨_, e⟩ | ⟨_, _, e⟩ | ⟨_, e⟩ <;> cases e.symm.trans ht
  · simp
  · exact hg

theorem freqTick_phase {s t : State} (h : s.status.phase = .freq) (ht : freqTick s = .next t) :
    PhaseMove s.op s.status.phase t.status.phase := by
  unfold freqTick at ht
  split at ht <;> cases ht
  next tok rest _ =>
    cases tok with
    | byte b => exact .refl _ _
    | eos => exact afterFreq_phase h

theorem leavesTick_phase {s t : State} {keys : List (Byte × Count)} (ht : leavesTick keys s = .next t) :
    PhaseMove s.op s.status.phase t.status.phase := by
  unfold leavesTick at ht
  split at ht
  · cases ht; simp
  · dsimp only at ht
    split at ht <;> cases ht <;> simp

theorem mergeTick_phase {s t : State} (h : s.status.phase = .build) (ht : mergeTick s = .next t) :
    PhaseMove s.op s.status.phase t.status.phase := by
  unfold mergeTick at ht
  split at ht
  · cases ht
  · cases ht; exact afterBuild_phase h
  · split at ht
    · cases ht
    · split at ht <;> cases ht
      simp

theorem visitTick_phase {s t : State} (ht : visitTick s = .next t) : t.status.phase = s.status.phase := by
  unfold visitTick at ht
  split at ht
  · cases ht
  · split at ht <;> cases ht <;> rfl

theorem unwindTick_phase {s t : State} (h : s.status.phase = .assign) (ht : unwindTick s = .next t) :
    PhaseMove s.op s.status.phase t.status.phase := by
  unfold unwindTick at ht
  split at ht
  · cases ht; exact afterAssign_phase h
  · split at ht <;> cases ht
    simp
  · cases ht; simp

theorem packHdrTick_phase {s t : State} {bytes : List Byte} (h : s.status.phase = .packHdr)
    (ht : packHdrTick bytes s = .next t) : PhaseMove s.op s.status.phase t.status.phase := by
  have body : PhaseMove s.op s.status.phase (startBody s).status.phase := .inr (.inr (.inl ⟨h, rfl⟩))
  unfold packHdrTick at ht
  split at ht
  · cases ht; exact body
  · exact writeStep_phase ht body
  · exact writeStep_phase ht (.refl _ _)

theorem packPullTick_phase {s t : State} (ht : packPullTick s = .next t) :
    PhaseMove s.op s.status.phase t.status.phase := by
  unfold packPullTick at ht
  split at ht <;> cases ht
  next tok rest _ =>
    cases tok with
    | byte b => simp only [packToken]; split <;> simp
    | eos => exact .refl _ _

theorem packBitsTick_phase {s t : State} {bits : List Bool} (ht : packBitsTick bits s = .next t) :
    PhaseMove s.op s.status.phase t.status.phase := by
  unfold packBitsTick at ht
  split at ht
  · cases ht; simp
  · simp only [packBit] at ht
    split at ht
    · exact writeStep_phase ht (.refl _ _)
    · cases ht; simp

theorem hdrCheckEnd_phase {s : State} (h : s.status.phase = .hdr) :
    PhaseMove s.op s.status.phase (hdrCheckEnd s).status.phase := by
  unfold hdrCheckEnd
  split
  · exact afterHdr_phase h
  · simp

theorem hdrByte_phase {s : State} (h : s.status.phase = .hdr) (lo b : Byte) :
    PhaseMove s.op s.status.phase (hdrByte lo b s).status.phase := by
  simp only [hdrByte]
  split
  · unfold hdrPadding
    split <;> simp
  · simp
  · exact hdrCheckEnd_phase h
  · simp
  · simp only [hdrCount]
    split
    · exact hdrCheckEnd_phase h
    · simp

theorem hdrTick_phase {s t : State} {lo : Byte} (h : s.status.phase = .hdr) (ht : hdrTick lo s = .next t) :
    PhaseMove s.op s.status.phase t.status.phase := by
  unfold hdrTick at ht
  split at ht <;> cases ht
  · simp
  · next b rest _ => exact hdrByte_phase (s := { s with inq := rest }) h lo b

theorem unpackEnd_phase (s : State) : (unpackEnd s).status.phase = .idle := by
  simp only [unpackEnd]
  split <;> rfl

theorem walkEnd_phase (op : Op) (next : Option Byte) (s : State) :
    PhaseMove op s.status.phase (walkEnd next s).status.phase := by
  cases next <;> simp [walkEnd, unpackEnd_phase]

theorem walkFrom_phase (op : Op) (bits : List Bool) (next : Option Byte) (s : State) :
    PhaseMove op s.status.phase (walkFrom bits next s).status.phase := by
  unfold walkFrom
  split
  · exact walkEnd_phase op next s
  · simp

theorem unpackToken_phase (op : Op) (tok : Token) (s : State) :
    PhaseMove op s.status.phase (unpackToken tok s).status.phase := by
  unfold unpackToken
  split
  · simp
  · exact walkFrom_phase ..
  · simp [unpackEnd_phase]
  · exact walkFrom_phase ..

theorem walkTick_phase {s t : State} {bits : List Bool} {next : Option Byte} (ht : walkTick bits next s = .next t) :
    PhaseMove s.op s.status.phase t.status.phase := by
  unfold walkTick at ht
  split at ht
  · cases ht; exact walkEnd_phase ..
  · simp only [walkBit] at ht
    split at ht
    · cases ht
    · cases ht; simp
    · split at ht
      · cases ht
      · cases ht; exact walkFrom_phase s.op _ next { s with cur := _ }
      · split at ht <;> cases ht
        · simp
        · exact walkFrom_phase s.op _ next { s with cur := s.root, sink := _ }

/-! ### The sequencer -/

theorem tick_phase {s t : State} (h : s.status.phase = phaseOf s.work) (ht : tick s = .next t) :
    PhaseMove s.op s.status.phase t.status.phase := by
  unfold tick at ht
  split at ht
  · cases hw : s.work <;> simp only [hw, phaseOf] at h ht
    case rest => cases ht
    case freq => exact freqTick_phase h ht
    case leaves => exact leavesTick_phase ht
    case merge => exact mergeTick_phase h ht
    case visit => rw [visitTick_phase ht]; exact .refl _ _
    case unwind => exact unwindTick_phase h ht
    case packStart => exact writeStep_phase ht (.refl _ _)
    case packHdr => exact packHdrTick_phase h ht
    case packPull => exact packPullTick_phase ht
    case packBits => exact packBitsTick_phase ht
    case packTail => exact writeStep_phase ht (.refl _ _)
    case packRewrite => exact writeStep_phase ht (.toIdle _ _)
    case hdr => exact hdrTick_phase h ht
    case pull =>
      unfold pullTick at ht
      split at ht <;> cases ht
      exact unpackToken_phase s.op _ { s with inq := _ }
    case walk => exact walkTick_phase ht
  · cases ht

/-- Settles O56: at a pace of one step the machine's step is one of the sequencer, or none. -/
theorem phaseOrder : Obligations.PhaseOrder := by
  intro s t h hh hp _ hst
  rw [step_of_pace hh hp] at hst
  cases ht : tick s with
  | wait =>
    rw [drive_wait ht] at hst
    cases hst
    exact .inl rfl
  | next u =>
    rw [drive_succ ht] at hst
    cases hst
    exact tick_phase h.status.1 ht
  | fault f => exact absurd ht ((tick_inv h).1 f)

end Sys2Proof.Machine
end

section
/-! BUILD and ASSIGN: the state BUILD ends in (spec/41_tree_builder.md R89 to R99), and what the two leave unchanged
(R89; spec/42_code_assigner.md R104). -/

namespace Sys2Proof.Machine

/-! ### The result of BUILD -/

/-- Settles O20: the turn of BUILD is the run over the table's keys, which its bound of steps covers. -/
theorem buildResult : Obligations.BuildResult := by
  rintro s es ⟨hidle, hpace⟩ hft hes hne
  have hlen : es.length ≤ 256 := hes ▸ length_entriesOf_le s.ft
  have hwork : (startBuild (startOp s .unit)).work = .leaves es := by simp [hes]
  obtain ⟨node, t, htree, hrun⟩ := run_build rfl hwork rfl rfl hne hlen
  refine ⟨node, t, htree, ?_⟩
  have hpaced : (startBuild (startOp s .unit)).pace = none := hpace
  have hbound : 2 * es.length + 1 ≤ stepBound (startBuild (startOp s .unit)) := by unfold stepBound; omega
  have hexec : exec .build s = turn (startBuild (startOp s .unit)) := issue_run hidle hft
  refine hexec.trans ((turn_of_run hpaced hrun rfl hbound).trans ?_)
  simp [afterBuild, endOk, startBuild, startOp, Status.start, Status.clearTree, Status.succeed, goodStatus, hft]

/-! ### Frames -/

/-- What neither BUILD nor ASSIGN writes. -/
def outsideTree (s : State) :=
  ((s.pad, s.nent, s.ft, s.acc, s.nb, s.hold, s.hpos, s.hsym, s.hacc),
    s.inq, s.sink.mem, s.par, s.host, s.pace, s.rdata, s.inReset, s.status.ftV, s.status.hdrV)

/-- What BUILD does not write: ASSIGN's table and scratch besides. -/
def outsideBuild (s : State) := (outsideTree s, s.ct, s.path, s.stk)

/-- What ASSIGN does not write: the tree, `TREE_V` and the cursor besides. -/
def outsideAssign (s : State) := (outsideTree s, s.cur, s.node, s.nleaf, s.live, s.root, s.status.treeV)

theorem outsideTree_raiseCause (c : Cause) (s : State) : outsideTree (raiseCause c s) = outsideTree s := by
  simp [outsideTree, Status.fail]

theorem outsideBuild_raiseCause (c : Cause) (s : State) : outsideBuild (raiseCause c s) = outsideBuild s := by
  simp [outsideBuild, outsideTree_raiseCause]

theorem outsideAssign_raiseCause (c : Cause) (s : State) : outsideAssign (raiseCause c s) = outsideAssign s := by
  simp [outsideAssign, outsideTree_raiseCause, Status.fail]

/-- What a command that answers a next state comes to. -/
theorem issue_next {op : Op} {ready : Status → Bool} {start : State → State} {s t : State}
    (h : issue op ready start s = .next t) :
    t = s ∨ t = raiseCause .precond (startOp s op) ∨ turn (start (startOp s op)) = .next t := by
  rcases issue_cases op ready start s with ⟨_, e⟩ | ⟨_, _, e⟩ | ⟨_, _, e⟩ <;> rw [e] at h
  · cases h; exact .inl rfl
  · cases h; exact .inr (.inl rfl)
  · exact .inr (.inr h)

/-- The cursor after a BUILD: as it was, unless it is no entry of the tree BUILD ended with (log 21). -/
def CursorKept (s t : State) : Prop :=
  t.cur = s.cur ∨ (t.status.treeV = true ∧ t.nn ≤ s.cur.toNat ∧ t.cur.toNat < t.nn)

/-- From `s`, a BUILD of its own has come to `t`. -/
structure BuildFrame (s t : State) : Prop where
  outside : outsideBuild t = outsideBuild s
  op : t.op = .unit
  place : (phaseOf t.work = .build ∧ t.cur = s.cur) ∨ (t.work = .rest ∧ CursorKept s t)

theorem BuildFrame.leavesTick {s t u : State} {keys : List (Byte × Count)} (h : BuildFrame s t) (hc : t.cur = s.cur)
    (hu : leavesTick keys t = .next u) : BuildFrame s u := by
  unfold Machine.leavesTick at hu
  split at hu
  · cases hu
    exact ⟨h.outside, h.op, .inl ⟨rfl, hc⟩⟩
  · dsimp only at hu
    split at hu <;> cases hu
    · exact ⟨(outsideBuild_raiseCause _ _).trans h.outside, rfl, .inr ⟨rfl, .inl hc⟩⟩
    · exact ⟨h.outside, h.op, .inl ⟨rfl, hc⟩⟩

theorem BuildFrame.mergeTick {s t u : State} (h : BuildFrame s t) (hw : t.work = .merge) (hc : t.cur = s.cur)
    (hu : mergeTick t = .next u) : BuildFrame s u := by
  unfold Machine.mergeTick at hu
  split at hu
  · cases hu
  · next r hr =>
    simp only [afterBuild, h.op] at hu
    cases hu
    refine ⟨h.outside, rfl, .inr ⟨rfl, ?_⟩⟩
    have hpos : 0 < t.nn := Nat.zero_lt_of_lt (mem_liveNodes.1 (hr ▸ List.mem_singleton_self r)).1
    by_cases hlt : t.cur.toNat < t.nn
    · exact .inl ((boundCursor_of_lt hlt).trans hc)
    · exact .inr ⟨rfl, hc ▸ Nat.le_of_not_lt hlt, boundCursor_lt hpos t.cur⟩
  · split at hu
    · cases hu
    · split at hu <;> cases hu
      exact ⟨h.outside, h.op, .inl ⟨congrArg phaseOf hw, hc⟩⟩

theorem BuildFrame.tick {s t u : State} (h : BuildFrame s t) (hu : tick t = .next u) : BuildFrame s u := by
  unfold Machine.tick at hu
  split at hu
  · rcases h.place with ⟨hp, hc⟩ | ⟨hw, _⟩
    · cases hw : t.work <;> simp only [hw, phaseOf, reduceCtorEq] at hp hu
      case leaves => exact h.leavesTick hc hu
      case merge => exact h.mergeTick hw hc hu
    · rw [hw] at hu
      cases hu
  · cases hu

theorem execBuild_frame {s t : State} (h : exec .build s = .next t) :
    outsideBuild t = outsideBuild s ∧ CursorKept s t := by
  rcases issue_next h with rfl | rfl | ht
  · exact ⟨rfl, .inl rfl⟩
  · exact ⟨outsideBuild_raiseCause _ _, .inl rfl⟩
  · have start : BuildFrame s (startBuild (startOp s .unit)) := ⟨rfl, rfl, .inl ⟨rfl, rfl⟩⟩
    obtain ⟨outside, -, ⟨-, hc⟩ | ⟨-, hc⟩⟩ := turn_keeps (fun _ _ hf => hf.tick) start ht
    · exact ⟨outside, .inl hc⟩
    · exact ⟨outside, hc⟩

/-- From `s`, an ASSIGN of its own has come to `t`. -/
structure AssignFrame (s t : State) : Prop where
  outside : outsideAssign t = outsideAssign s
  op : t.op = .unit
  place : phaseOf t.work = .assign ∨ t.work = .rest

theorem AssignFrame.visitTick {s t u : State} (h : AssignFrame s t) (hu : visitTick t = .next u) : AssignFrame s u := by
  unfold Machine.visitTick at hu
  split at hu
  · cases hu
  · split at hu <;> cases hu
    · exact ⟨h.outside, h.op, .inl rfl⟩
    · exact ⟨h.outside, h.op, h.place⟩

theorem AssignFrame.unwindTick {s t u : State} (h : AssignFrame s t) (hu : unwindTick t = .next u) :
    AssignFrame s u := by
  unfold Machine.unwindTick at hu
  split at hu
  · simp only [afterAssign, h.op] at hu
    cases hu
    exact ⟨h.outside, rfl, .inr rfl⟩
  · split at hu <;> cases hu
    exact ⟨h.outside, h.op, .inl rfl⟩
  · cases hu
    exact ⟨h.outside, h.op, h.place⟩

theorem AssignFrame.tick {s t u : State} (h : AssignFrame s t) (hu : tick t = .next u) : AssignFrame s u := by
  unfold Machine.tick at hu
  split at hu
  · rcases h.place with hp | hw
    · cases hw : t.work <;> simp only [hw, phaseOf, reduceCtorEq] at hp hu
      case visit => exact h.visitTick hu
      case unwind => exact h.unwindTick hu
    · rw [hw] at hu
      cases hu
  · cases hu

theorem execAssign_frame {s t : State} (h : exec .assign s = .next t) : outsideAssign t = outsideAssign s := by
  rcases issue_next h with rfl | rfl | ht
  · rfl
  · exact outsideAssign_raiseCause _ _
  · have start : AssignFrame s (startAssign (startOp s .unit)) := ⟨rfl, rfl, .inl rfl⟩
    exact (turn_keeps (fun _ _ hf => hf.tick) start ht).outside

/-- Settles O51: every step of the two units keeps what stands outside them. -/
theorem buildAssignFrame : Obligations.BuildAssignFrame := by
  rintro s t i (rfl | rfl) h
  · obtain ⟨outside, cursor⟩ := execBuild_frame h
    simp only [outsideBuild, outsideTree, Prod.mk.injEq] at outside
    obtain ⟨⟨registers, channels⟩, scratch⟩ := outside
    exact ⟨registers, channels, fun _ => ⟨scratch.1, scratch.2.1, scratch.2.2, cursor⟩, fun e => by cases e⟩
  · have outside := execAssign_frame h
    simp only [outsideAssign, outsideTree, Prod.mk.injEq] at outside
    obtain ⟨⟨registers, channels⟩, tree⟩ := outside
    exact ⟨registers, channels, fun e => (by cases e), fun _ => tree⟩

end Sys2Proof.Machine
end

section
/-! Encodings: the little-endian fields (spec/20_memory.md R44; spec/30_encoding.md R65, R66), and the body's bits in its
bytes, packed and examined (spec/20_memory.md R45; spec/43_bit_packer.md R128; spec/44_bit_unpacker.md R139). -/

namespace Sys2Proof.Machine

/-! ### Little-endian fields -/

/-- With the low part a byte: this form matches an append whose width is written as one numeral. -/
theorem extractLsb'_append_byte {w : Nat} (x : BitVec w) (y : Byte) : (x ++ y).extractLsb' 0 8 = y :=
  BitVec.extractLsb'_append_eq_right

theorem extractLsb'_append_above {w : Nat} (x : BitVec w) (y : Byte) (k : Nat) :
    (x ++ y).extractLsb' (k + 8) 8 = x.extractLsb' k 8 :=
  BitVec.extractLsb'_append_eq_of_le (Nat.le_add_left 8 k)

theorem le16_fromLE16 (lo hi : Byte) : le16 (fromLE16 lo hi) = [lo, hi] := by
  simp [le16, fromLE16, extractLsb'_append_byte, extractLsb'_append_above]

theorem le64_fromLE64 (a b c d e f g h : Byte) : le64 (fromLE64 a b c d e f g h) = [a, b, c, d, e, f, g, h] := by
  simp [le64, fromLE64, extractLsb'_append_byte, extractLsb'_append_above]

theorem toNat_fromLE64 (a b c d e f g h : Byte) : (fromLE64 a b c d e f g h).toNat =
    a.toNat + 256 * (b.toNat + 256 * (c.toNat + 256 * (d.toNat + 256 * (e.toNat +
      256 * (f.toNat + 256 * (g.toNat + 256 * h.toNat)))))) := by
  simp only [fromLE64, toNat_append8]
  omega

/-- Settles O4: both fields are appends of bytes, the first byte of the stream lowest. -/
theorem littleEndian : Obligations.LittleEndian :=
  ⟨fun lo hi => ⟨toNat_fromLE16 lo hi, le16_fromLE16 lo hi⟩,
    fun a b c d e f g h => ⟨toNat_fromLE64 a b c d e f g h, le64_fromLE64 a b c d e f g h⟩⟩

/-! ### The bits of the body -/

theorem padView_lt (n : Nat) : padView n < 8 := Nat.mod_lt _ (by omega)

/-- The bits examined of a body's one byte are as many as were packed into it (44 R139, 43 R121). -/
theorem lastBits_padView {n : Nat} (h0 : 0 < n) (h8 : n ≤ 8) : lastBits (BitVec.ofNat 3 (padView n)) = n := by
  have hlt := padView_lt n
  simp only [lastBits, BitVec.toNat_ofNat]
  unfold padView at *
  omega

theorem padView_add_eight (n : Nat) : padView (8 + n) = padView n := by simp [padView]

/-- The first bits of body byte 0 are the first bits of the sequence. -/
theorem bitsOf_bodyByteAt {p : List Bool} (h : p.length ≤ 8) : bitsOf (bodyByteAt p 0) p.length = p := by
  apply List.ext_getElem (by simp)
  intro i _ hi
  have hi8 : i < 8 := by omega
  simp [bitsOf, getLsbD_bodyByteAt _ _ _ hi8, hi]

/-- A whole byte off the front of a bit sequence. -/
theorem bodyBytes_append {p : List Bool} (hp : p.length = 8) (r : List Bool) :
    bodyBytes (p ++ r) = bodyByteAt p 0 :: bodyBytes r := by
  have hlen : ((p ++ r).length + 7) / 8 = (r.length + 7) / 8 + 1 := by simp; omega
  rw [bodyBytes, hlen, List.range_succ_eq_map]
  simp [bodyBytes, bodyByteAt_append_zero _ _ hp, bodyByteAt_append_succ _ _ hp]

theorem bodyBytes_single {q : List Bool} (h0 : 0 < q.length) (h8 : q.length ≤ 8) : bodyBytes q = [bodyByteAt q 0] := by
  have hlen : (q.length + 7) / 8 = 1 := by omega
  simp [bodyBytes, hlen]

theorem examinedBits_cons {bs : List Byte} (h : bs ≠ []) (pad : BitVec 3) (x : Byte) :
    examinedBits pad (x :: bs) = bitsOf x 8 ++ examinedBits pad bs := by
  cases bs with
  | nil => exact absurd rfl h
  | cons y rest => rfl

/-- Unpacking what was packed: the examined bits of a sequence's bytes are the sequence (43 R128, 44 R139). -/
theorem examinedBits_bodyBytes (q : List Bool) :
    examinedBits (BitVec.ofNat 3 (padView q.length)) (bodyBytes q) = q := by
  by_cases h8 : q.length ≤ 8
  · rcases Nat.eq_zero_or_pos q.length with h0 | h0
    · simp [List.length_eq_zero_iff.1 h0, bodyBytes, examinedBits]
    · rw [bodyBytes_single h0 h8, examinedBits, lastBits_padView h0 h8, bitsOf_bodyByteAt h8]
  · have hp : (q.take 8).length = 8 := by simp; omega
    have hr : (q.drop 8).length < q.length := by simp; omega
    have hne : bodyBytes (q.drop 8) ≠ [] := by simp [bodyBytes]; omega
    have hlen : q.length = 8 + (q.drop 8).length := by simp; omega
    have hbits : bitsOf (bodyByteAt (q.take 8) 0) 8 = q.take 8 := by simpa only [hp] using bitsOf_bodyByteAt hp.le
    calc examinedBits (BitVec.ofNat 3 (padView q.length)) (bodyBytes q)
        = examinedBits (BitVec.ofNat 3 (padView (q.drop 8).length))
            (bodyByteAt (q.take 8) 0 :: bodyBytes (q.drop 8)) := by
          rw [hlen, padView_add_eight, ← bodyBytes_append hp, List.take_append_drop]
      _ = q.take 8 ++ q.drop 8 := by rw [examinedBits_cons hne, hbits, examinedBits_bodyBytes (q.drop 8)]
      _ = q := List.take_append_drop 8 q
termination_by q.length

@[simp] theorem length_bodyBytes (q : List Bool) : (bodyBytes q).length = (q.length + 7) / 8 := by simp [bodyBytes]

theorem getLsbD_bodyBytes {q : List Bool} {k : Nat} (h : k < 8 * (bodyBytes q).length) :
    ((bodyBytes q).getD (k / 8) 0).getLsbD (k % 8) = q.getD k false := by
  have hbyte : (bodyBytes q).getD (k / 8) 0 = bodyByteAt q (k / 8) := by
    have : k / 8 < (q.length + 7) / 8 := by rw [length_bodyBytes] at h; omega
    simp [bodyBytes, this]
  rw [hbyte, getLsbD_bodyByteAt _ _ _ (Nat.mod_lt k (by omega)), Nat.div_add_mod]

/-- Settles O5: by recursion on the whole bytes of the sequence, the last byte examined without its padding. -/
theorem bodyBits : Obligations.BodyBits :=
  fun q => ⟨length_bodyBytes q, fun _ => getLsbD_bodyBytes, examinedBits_bodyBytes q⟩

end Sys2Proof.Machine
end

section
/-! The host's acts on the channels (spec/20_memory.md R41; spec/70_reset_and_hazards.md R199, R208), and a stream cut
into bursts (spec/20_memory.md R54). -/

namespace Sys2Proof.Machine

/-! ### Acts on the channels -/

theorem sinkFree_iff {s : State} : sinkFree s = true ↔ s.status.busy = false ∨ s.sink.olen = 0 := by
  simp [sinkFree]

/-- Settles O15: each act is done, then the sequencer has its turn; the acts on the sink where it is the host's. -/
theorem hostChannels : Obligations.HostChannels := by
  refine ⟨fun s ts h e => step_cons e, fun s h e => step_cons e, fun s a h e => ⟨fun free => ?_, fun hb ho => ?_⟩,
    fun s h e => ⟨fun free => ?_, fun hb ho => ?_⟩⟩
  · refine ⟨s.sink.seek a, ?_, rfl, rfl, rfl, rfl, observe_settle s.sink⟩
    have hf : sinkFree { s with host := h } = true := sinkFree_iff.2 free
    simp [step_cons e, serve, hostAct, hf]
  · have hf : sinkFree { s with host := h } = false := by simp [sinkFree, hb, ho]
    simp [step_cons e, serve, hostAct, hf]
  · have hf : sinkFree { s with host := h } = true := sinkFree_iff.2 free
    simp [step_cons e, serve, hostAct, hf, Sink.emptied]
  · have hf : sinkFree { s with host := h } = false := by simp [sinkFree, hb, ho]
    simp [step_cons e, serve, hostAct, hf]

/-! ### Bursts -/

/-- No step of the sequencer reads the host's coming acts, so none changes them. -/
theorem tick_host {s t : State} (ht : tick s = .next t) : t.host = s.host := by
  have same : s.behind [] s.host = s := by simp [State.behind]
  have again : t = t.behind [] s.host := by simpa [same, ht] using tick_behind ht [] s.host
  exact (congrArg State.host again :)

theorem Run.host {n : Nat} {s t : State} (r : Run n s t) : t.host = s.host := by
  induction r with
  | refl => rfl
  | cons ht _ ih => exact ih.trans (tick_host ht)

/-- The step that serves a burst is a run with the burst behind the tokens waiting. -/
theorem run_of_feed {s t : State} {ts : List Token} {h : List HostAct} (hh : s.host = .feed ts :: h)
    (ht : step s = .next t) : ∃ n, Run n (s.behind ts h) t := by
  rw [step_cons hh] at ht
  obtain ⟨n, -, r⟩ := run_of_drive ht
  exact ⟨n, r⟩

/-- Settles O57: the two bursts' runs, the later burst put behind the first run's tokens, are one run of the whole
burst; and runs to where the sequencer has no step agree. -/
theorem chunkIndependence : Obligations.ChunkIndependence := by
  intro s t u v ts us _ hh hst htu hsv hu hv
  obtain ⟨m, first⟩ := run_of_feed hh hst
  obtain ⟨n, second⟩ := run_of_feed first.host htu
  obtain ⟨k, whole⟩ := run_of_feed rfl hsv
  have e : (s.behind ts [.feed us]).behind us [] = State.behind { s with host := [.feed (ts ++ us)] } (ts ++ us) [] := by
    simp [State.behind]
  exact ((e ▸ first.behind us []).trans second).unique whole hu hv

end Sys2Proof.Machine
end

section
/-! A write the sink reports failed (spec/20_memory.md R58; spec/43_bit_packer.md R126; spec/60_exceptions.md R180,
R184). -/

namespace Sys2Proof.Machine

/-- A write to the sink is due at the next step: the placeholder, the last byte, the rewrite of offset 0, a header byte,
a full body byte, or a symbol (20 R58, 43 R126). -/
def WriteDue (s : State) : Prop :=
  s.work = .packStart ∨ s.work = .packTail ∨ s.work = .packRewrite ∨ (∃ b bs, s.work = .packHdr (b :: bs)) ∨
    (∃ v bits, s.work = .packBits (v :: bits) ∧ s.nb = 7) ∨
    (∃ v bits x w i j sym w', s.work = .walk (v :: bits) x ∧ s.node[s.cur.toNat]? = some (.internal w i j) ∧
      s.node[(if v then j else i).toNat]? = some (.leaf sym w'))

theorem WriteDue.work_ne_rest {s : State} (h : WriteDue s) : s.work ≠ .rest := by
  rcases h with e | e | e | ⟨_, _, e⟩ | ⟨_, _, e, _⟩ | ⟨_, _, _, _, _, _, _, _, e, _⟩ <;> simp [e]

/-- The state in which a failed write ends the operation: `bad` is the state at the point of failure (60 R180). -/
theorem writeStep_fails {s : State} {r : List Bool} (hr : s.sink.ready = true) (hf : s.sink.fails = true :: r)
    (off : Nat) (b : Byte) (good bad : State) : writeStep s off b good bad =
      .next (raiseCause .sinkErr { bad with sink := { s.sink with fails := r } }) := by
  simp [writeStep, Sink.put_fails hr hf]

/-- Where a due write fails, the step raises `SINK_ERR`; besides the sink's answers it changes at most `ACC`, `NB` and
the cursor (43 R126, 44 R142). -/
theorem tick_of_failed_write {s : State} {r : List Bool} (hb : s.status.busy = true) (hr : s.sink.ready = true)
    (hf : s.sink.fails = true :: r) (due : WriteDue s) :
    ∃ acc nb cur, tick s = .next (raiseCause .sinkErr { s with
      acc := acc, nb := nb, cur := cur, sink := { s.sink with fails := r } }) := by
  have write := writeStep_fails hr hf
  unfold tick
  rw [if_pos hb]
  rcases due with hw | hw | hw | ⟨b, bs, hw⟩ | ⟨v, bits, hw, h7⟩ | ⟨v, bits, x, w, i, j, sym, w', hw, hc, hn⟩ <;>
    rw [hw] <;> dsimp only
  · exact ⟨_, _, _, write ..⟩
  · exact ⟨_, _, _, write ..⟩
  · exact ⟨_, _, _, write ..⟩
  · cases bs <;> exact ⟨_, _, _, write ..⟩
  · simp only [packBitsTick, packBit, if_pos h7]
    exact ⟨_, _, _, write ..⟩
  · simp only [walkTick, walkBit, hc, hn, Sink.put_fails hr hf]
    exact ⟨_, _, _, rfl⟩

theorem StatusInv.fail_eq {s : State} (h : StatusInv s) (hb : s.status.busy = true) (c : Cause) :
    s.status.fail c =
      failStatus c s.status.ftV s.status.treeV s.status.ctV s.status.hdrV s.status.dangling := by
  obtain ⟨-, -, hok⟩ := h
  simp [Status.fail, failStatus, (hok hb).2]

/-- Settles O29: at a pace of one step the machine's step is that failure, and an idle block has no step. -/
theorem sinkFailure : Obligations.SinkFailure := by
  intro s r h hh hp hr hf due
  obtain ⟨-, hbusy, -⟩ := h.status
  have hb : s.status.busy = true := hbusy.2 (WriteDue.work_ne_rest due)
  obtain ⟨acc, nb, cur, ht⟩ := tick_of_failed_write hb hr hf due
  have hst := (step_of_pace hh hp).trans (drive_succ ht)
  refine ⟨_, hst, h.status.fail_eq hb _, by simp, by simp, by simp, by simp, rfl, rfl, rfl, rfl, rfl, rfl, ?_⟩
  refine (step_nil ?_).trans (ownTurn_of_idle rfl)
  exact hh

end Sys2Proof.Machine
end

section
/-! The sink's memory under every instruction (spec/20_memory.md R43, R52): what one step of the sequencer writes, and
where a run writes. -/

namespace Sys2Proof.Machine

/-! ### Updates that write no byte -/

/-- What the sink holds and how far the running operation's output goes; not its answers, nor what is void in it. -/
def Sink.written (k : Sink) := (k.mem, k.base, k.olen)

theorem written_eq_iff {k k' : Sink} :
    k'.written = k.written ↔ k'.mem = k.mem ∧ k'.base = k.base ∧ k'.olen = k.olen := by
  simp [Sink.written]

/-- A failure marks its output void, which leaves what was written (60 R184). -/
@[simp] theorem written_voidOutput (k : Sink) (n : Nat) : (k.voidOutput n).written = k.written := by
  simp [Sink.written]

@[simp] theorem sink_afterFreq (s : State) : (afterFreq s).sink = s.sink := by unfold afterFreq; split <;> rfl
@[simp] theorem sink_afterBuild (s : State) : (afterBuild s).sink = s.sink := by unfold afterBuild; split <;> rfl
@[simp] theorem sink_afterAssign (s : State) : (afterAssign s).sink = s.sink := by unfold afterAssign; split <;> rfl
@[simp] theorem sink_afterHdr (s : State) : (afterHdr s).sink = s.sink := by unfold afterHdr; split <;> rfl

@[simp] theorem sink_freqToken (tok : Token) (s : State) : (freqToken tok s).sink = s.sink := by
  cases tok <;> simp [freqToken]

@[simp] theorem written_packToken (tok : Token) (s : State) : (packToken tok s).sink.written = s.sink.written := by
  cases tok with
  | byte b => simp only [packToken]; split <;> simp
  | eos => rfl

@[simp] theorem sink_hdrCheckEnd (s : State) : (hdrCheckEnd s).sink = s.sink := by
  unfold hdrCheckEnd; split <;> simp

@[simp] theorem written_hdrByte (lo b : Byte) (s : State) : (hdrByte lo b s).sink.written = s.sink.written := by
  simp only [hdrByte]
  split
  · unfold hdrPadding; split <;> simp
  · rfl
  · simp
  · rfl
  · simp only [hdrCount]; split <;> simp

@[simp] theorem written_feedHeader (bytes : List Byte) (s : State) :
    (feedHeader bytes s).sink.written = s.sink.written := by
  induction bytes generalizing s with
  | nil => rfl
  | cons b rest ih => unfold feedHeader; split <;> simp [ih]

@[simp] theorem written_unpackEnd (s : State) : (unpackEnd s).sink.written = s.sink.written := by
  simp only [unpackEnd]; split <;> simp

@[simp] theorem written_walkEnd (next : Option Byte) (s : State) : (walkEnd next s).sink.written = s.sink.written := by
  cases next <;> simp [walkEnd]

@[simp] theorem written_walkFrom (bits : List Bool) (next : Option Byte) (s : State) :
    (walkFrom bits next s).sink.written = s.sink.written := by
  unfold walkFrom; split <;> simp

@[simp] theorem written_unpackToken (tok : Token) (s : State) : (unpackToken tok s).sink.written = s.sink.written := by
  unfold unpackToken; split <;> simp

/-! ### What one step of the sequencer writes -/

/-- What one step of the sequencer from `s` does to the sink (20 R43): it writes no byte; or appends one; or, PACK's last
step alone, rewrites the byte at offset 0 (43 R122). -/
inductive SinkMove (s : State) (k : Sink) : Prop where
  | keep (same : k.written = s.sink.written)
  | store (off : Nat) (b : Byte) (place : off = s.sink.olen ∨ (off = 0 ∧ s.work = .packRewrite))
      (wrote : k.written = (s.sink.store off b).written)

theorem writeStep_sinkMove {s good bad t : State} {off : Nat} {b : Byte} (ht : writeStep s off b good bad = .next t)
    (place : off = s.sink.olen ∨ (off = 0 ∧ s.work = .packRewrite)) : SinkMove s t.sink := by
  rcases writeStep_cases s off b good bad with ⟨_, e⟩ | ⟨_, _, e⟩ | ⟨_, e⟩ <;> cases e.symm.trans ht
  · exact .keep (written_voidOutput ..)
  · exact .store off b place rfl

theorem leavesTick_written {s t : State} {keys : List (Byte × Count)} (ht : leavesTick keys s = .next t) :
    t.sink.written = s.sink.written := by
  unfold leavesTick at ht
  split at ht
  · cases ht; rfl
  · dsimp only at ht
    split at ht <;> cases ht <;> simp

theorem mergeTick_written {s t : State} (ht : mergeTick s = .next t) : t.sink.written = s.sink.written := by
  unfold mergeTick at ht
  split at ht
  · cases ht
  · cases ht; simp
  · split at ht
    · cases ht
    · split at ht <;> cases ht
      rfl

theorem visitTick_written {s t : State} (ht : visitTick s = .next t) : t.sink.written = s.sink.written := by
  unfold visitTick at ht
  split at ht
  · cases ht
  · split at ht <;> cases ht <;> rfl

theorem unwindTick_written {s t : State} (ht : unwindTick s = .next t) : t.sink.written = s.sink.written := by
  unfold unwindTick at ht
  split at ht
  · cases ht; simp
  · split at ht <;> cases ht
    rfl
  · cases ht; rfl

theorem hdrTick_written {s t : State} {lo : Byte} (ht : hdrTick lo s = .next t) :
    t.sink.written = s.sink.written := by
  unfold hdrTick at ht
  split at ht <;> cases ht <;> simp

theorem packHdrTick_sinkMove {s t : State} {bytes : List Byte} (ht : packHdrTick bytes s = .next t) :
    SinkMove s t.sink := by
  unfold packHdrTick at ht
  split at ht
  · cases ht; exact .keep rfl
  · exact writeStep_sinkMove ht (.inl rfl)
  · exact writeStep_sinkMove ht (.inl rfl)

theorem packBit_sinkMove {s t : State} {v : Bool} {rest : List Bool} (ht : packBit v rest s = .next t) :
    SinkMove s t.sink := by
  simp only [packBit] at ht
  split at ht
  · exact writeStep_sinkMove ht (.inl rfl)
  · cases ht; exact .keep rfl

theorem walkBit_sinkMove {s t : State} {v : Bool} {rest : List Bool} {next : Option Byte}
    (ht : walkBit v rest next s = .next t) : SinkMove s t.sink := by
  simp only [walkBit] at ht
  split at ht
  · cases ht
  · cases ht; exact .keep (by simp)
  · split at ht
    · cases ht
    · cases ht; exact .keep (by simp)
    · next sym _ _ =>
      rcases s.sink.put_cases s.sink.olen sym with ⟨_, e⟩ | ⟨_, _, _, e⟩ | ⟨_, _, e⟩ <;> rw [e] at ht <;> cases ht
      · exact .keep (written_voidOutput ..)
      · exact .store _ sym (.inl rfl) (written_walkFrom ..)

theorem tick_sinkMove {s t : State} (ht : tick s = .next t) : SinkMove s t.sink := by
  unfold tick at ht
  split at ht
  · cases hw : s.work <;> simp only [hw] at ht
    case rest => cases ht
    case freq =>
      unfold freqTick at ht
      split at ht <;> cases ht
      exact .keep (by simp)
    case leaves => exact .keep (leavesTick_written ht)
    case merge => exact .keep (mergeTick_written ht)
    case visit => exact .keep (visitTick_written ht)
    case unwind => exact .keep (unwindTick_written ht)
    case packStart => exact writeStep_sinkMove ht (.inl rfl)
    case packHdr => exact packHdrTick_sinkMove ht
    case packPull =>
      unfold packPullTick at ht
      split at ht <;> cases ht
      exact .keep (by simp)
    case packBits =>
      unfold packBitsTick at ht
      split at ht
      · cases ht; exact .keep rfl
      · exact packBit_sinkMove ht
    case packTail => exact writeStep_sinkMove ht (.inl rfl)
    case packRewrite => exact writeStep_sinkMove ht (.inr ⟨rfl, hw⟩)
    case hdr => exact .keep (hdrTick_written ht)
    case pull =>
      unfold pullTick at ht
      split at ht <;> cases ht
      exact .keep (by simp)
    case walk =>
      unfold walkTick at ht
      split at ht
      · cases ht; exact .keep (by simp)
      · exact walkBit_sinkMove ht
  · cases ht

/-! ### Where a run writes -/

/-- Of the bytes `m`, the sink `k` holds every one below `start` and every one at or above where its next goes. -/
structure WroteFrom (m : List Host.Cell) (start : Nat) (k : Sink) : Prop where
  start_le : start ≤ k.base + k.olen
  frame : ∀ a, a < start ∨ k.base + k.olen ≤ a → memRead k.mem a = memRead m a

theorem WroteFrom.of_mem {m : List Host.Cell} {start : Nat} {k : Sink} (hm : k.mem = m)
    (h : start ≤ k.base + k.olen) : WroteFrom m start k := ⟨h, fun _ _ => by rw [hm]⟩

theorem WroteFrom.of_written {m : List Host.Cell} {start : Nat} {k k' : Sink} (h : WroteFrom m start k)
    (e : k'.written = k.written) : WroteFrom m start k' := by
  obtain ⟨hm, hb, ho⟩ := written_eq_iff.1 e
  exact ⟨by rw [hb, ho]; exact h.start_le, by rw [hm, hb, ho]; exact h.frame⟩

theorem WroteFrom.store {m : List Host.Cell} {start : Nat} {k : Sink} {off : Nat} (h : WroteFrom m start k)
    (hs : start ≤ k.base + off) (ho : off ≤ k.olen) (b : Byte) : WroteFrom m start (k.store off b) := by
  obtain ⟨start_le, frame⟩ := h
  have hend : k.base + k.olen ≤ (k.store off b).base + (k.store off b).olen ∧
      k.base + off < (k.store off b).base + (k.store off b).olen := by
    simp only [Sink.store_base, Sink.store_olen]; split <;> omega
  refine ⟨by omega, fun a ha => ?_⟩
  rw [Sink.store_mem, memRead_memWrite_ne _ _ (by omega)]
  exact frame a (by omega)

/-- A step writes behind `start`, if it does not rewrite a byte from before. -/
theorem WroteFrom.move {m : List Host.Cell} {start : Nat} {s : State} {k : Sink} (h : WroteFrom m start s.sink)
    (hm : SinkMove s k) (hr : s.work = .packRewrite → start ≤ s.sink.base) : WroteFrom m start k := by
  cases hm with
  | keep same => exact h.of_written same
  | store off b place wrote =>
    refine WroteFrom.of_written ?_ wrote
    rcases place with rfl | ⟨rfl, hw⟩
    · exact h.store h.start_le (Nat.le_refl _) b
    · exact h.store (hr hw) (Nat.zero_le _) b

theorem SinkMove.base {s : State} {k : Sink} (h : SinkMove s k) : k.base = s.sink.base := by
  cases h with
  | keep same => exact (written_eq_iff.1 same).2.1
  | store off b _ wrote => exact (written_eq_iff.1 wrote).2.1

/-- An operation, however far its turn brings it, writes from its own offset 0 on. -/
theorem turn_wroteFrom {m : List Host.Cell} {start : Nat} {s t : State} (hb : s.sink.base = start)
    (h : WroteFrom m start s.sink) (ht : turn s = .next t) : WroteFrom m start t.sink := by
  have keeps : ∀ u v : State, u.sink.base = start ∧ WroteFrom m start u.sink → tick u = .next v →
      v.sink.base = start ∧ WroteFrom m start v.sink := by
    rintro u v ⟨hb, h⟩ hv
    exact ⟨(tick_sinkMove hv).base.trans hb, h.move (tick_sinkMove hv) fun _ => hb.ge⟩
  exact (turn_keeps keeps ⟨hb, h⟩ ht).2

theorem issue_wroteFrom {op : Op} {ready : Status → Bool} {start : State → State} {s t : State}
    (ht : issue op ready start s = .next t) (hstart : ∀ u, (start u).sink = u.sink) :
    WroteFrom s.sink.mem (outputStart s) t.sink := by
  rcases issue_next ht with rfl | rfl | ht
  · exact .of_mem rfl (Nat.le_refl _)
  · exact .of_mem (by simp) (by simp [outputStart])
  · exact turn_wroteFrom (by rw [hstart]; rfl) (.of_mem (by rw [hstart]; rfl) (by rw [hstart]; exact Nat.le_refl _)) ht

/-! ### A body byte -/

/-- UNPACK stands at a place of its own, or has ended. -/
def InUnpack (s : State) : Prop := phaseOf s.work = .unpack ∨ s.work = .rest

theorem inUnpack_unpackEnd (s : State) : InUnpack (unpackEnd s) := by
  simp only [unpackEnd]; split <;> exact .inr rfl

theorem inUnpack_walkEnd (next : Option Byte) (s : State) : InUnpack (walkEnd next s) := by
  cases next
  · exact inUnpack_unpackEnd _
  · exact .inl rfl

theorem inUnpack_walkFrom (bits : List Bool) (next : Option Byte) (s : State) : InUnpack (walkFrom bits next s) := by
  unfold walkFrom
  split
  · exact inUnpack_walkEnd next s
  · exact .inl rfl

theorem inUnpack_unpackToken {tok : Token} {s : State} (h : InUnpack s) : InUnpack (unpackToken tok s) := by
  unfold unpackToken
  split
  · exact h
  · exact inUnpack_walkFrom ..
  · exact inUnpack_unpackEnd s
  · exact inUnpack_walkFrom ..

theorem inUnpack_walkBit {v : Bool} {rest : List Bool} {next : Option Byte} {s t : State}
    (ht : walkBit v rest next s = .next t) : InUnpack t := by
  simp only [walkBit] at ht
  split at ht
  · cases ht
  · cases ht; exact .inr rfl
  · split at ht
    · cases ht
    · cases ht; exact inUnpack_walkFrom ..
    · split at ht <;> cases ht
      · exact .inr rfl
      · exact inUnpack_walkFrom ..

theorem inUnpack_tick {s t : State} (h : InUnpack s) (ht : tick s = .next t) : InUnpack t := by
  unfold tick at ht
  split at ht
  · rcases h with hp | hw
    · cases hw : s.work <;> simp only [hw, phaseOf, reduceCtorEq] at hp ht
      case pull =>
        unfold pullTick at ht
        split at ht <;> cases ht
        exact inUnpack_unpackToken (.inl (congrArg phaseOf hw))
      case walk =>
        unfold walkTick at ht
        split at ht
        · cases ht; exact inUnpack_walkEnd ..
        · exact inUnpack_walkBit ht
    · rw [hw] at ht
      cases ht
  · cases ht

/-- UNPACK appends, and never rewrites. -/
theorem drive_wroteFrom_of_inUnpack {m : List Host.Cell} {start n : Nat} {s t : State} (hs : InUnpack s)
    (h : WroteFrom m start s.sink) (ht : drive n s = .next t) : WroteFrom m start t.sink := by
  have keeps : ∀ u v : State, InUnpack u ∧ WroteFrom m start u.sink → tick u = .next v →
      InUnpack v ∧ WroteFrom m start v.sink := by
    rintro u v ⟨hu, h⟩ hv
    have noRewrite : u.work ≠ .packRewrite := fun e => by simp [InUnpack, e, phaseOf] at hu
    exact ⟨inUnpack_tick hu hv, h.move (tick_sinkMove hv) fun e => absurd e noRewrite⟩
  exact (drive_keeps keeps ⟨hs, h⟩ ht).2

theorem execBodyByte_wroteFrom {b : Byte} {s t : State} (ht : execBodyByte b s = .next t) :
    WroteFrom s.sink.mem (outputStart s) t.sink := by
  have here : WroteFrom s.sink.mem (outputStart s) s.sink := .of_mem rfl (Nat.le_refl _)
  unfold execBodyByte at ht
  split at ht
  · next hw =>
    exact drive_wroteFrom_of_inUnpack (inUnpack_unpackToken (.inl (congrArg phaseOf hw)))
      (here.of_written (written_unpackToken ..)) ht
  · cases ht; exact here

/-! ### A code bit -/

theorem stepOrStay_next {k : Tick} {stay t : State} (h : stepOrStay k stay = .next t) :
    t = stay ∨ k = .next t := by
  cases k with
  | wait => cases h; exact .inl rfl
  | next u => cases h; exact .inr rfl
  | fault f => cases h

theorem execCodeBit_wroteFrom {v : Bool} {s t : State} (ht : execCodeBit v s = .next t) :
    WroteFrom s.sink.mem (outputStart s) t.sink := by
  have here : WroteFrom s.sink.mem (outputStart s) s.sink := .of_mem rfl (Nat.le_refl _)
  unfold execCodeBit at ht
  split at ht
  · next hw =>
    rcases stepOrStay_next ht with rfl | ht
    · exact here
    · exact here.move (walkBit_sinkMove ht) fun e => by simp [hw] at e
  · next hw =>
    rcases stepOrStay_next ht with rfl | ht
    · exact here
    · exact here.move (packBit_sinkMove ht) fun e => by simp [hw] at e
  · cases ht; exact here

/-! ### Every instruction -/

theorem execField_written {i : Instr} {s t : State}
    (hi : i.space = .padding ∨ i.space = .entryCount ∨ i.space = .entry) (ht : exec i s = .next t) :
    t.sink.written = s.sink.written := by
  have field : ∀ place bytes, (if hdrAt place s then .next (feedHeader bytes s) else .next s) = exec i s →
      t.sink.written = s.sink.written := by
    intro place bytes e
    rw [← e] at ht
    split at ht <;> cases ht
    · exact written_feedHeader bytes s
    · rfl
  cases i with
  | paddingCount p => exact field .padding [p] rfl
  | entryCount n => exact field .countLo (le16 n) rfl
  | entry sym count => exact field .symbol (sym :: le64 count) rfl
  | clr | freq | build | assign | pack | hdr | unpack | enc | dec | bodyByte _ | codeBit _ => simp [Instr.space] at hi

theorem execClr_sink {s t : State} (ht : execClr s = .next t) :
    t.sink = s.sink ∨ t.sink = s.sink.rebase := by
  unfold execClr at ht
  split at ht <;> cases ht
  · exact .inr rfl
  · exact .inl rfl

theorem exec_wroteFrom {i : Instr} {s t : State} (ht : exec i s = .next t) :
    WroteFrom s.sink.mem (outputStart s) t.sink := by
  have here : WroteFrom s.sink.mem (outputStart s) s.sink := .of_mem rfl (Nat.le_refl _)
  cases i with
  | clr =>
    rcases execClr_sink ht with e | e <;> rw [e]
    · exact here
    · exact .of_mem rfl (Nat.le_refl _)
  | freq | build | assign | pack | hdr | unpack => exact issue_wroteFrom ht fun _ => rfl
  | enc | dec =>
    simp only [exec, execEnc, execDec] at ht
    exact issue_wroteFrom ht fun _ => rfl
  | paddingCount _ | entryCount _ | entry _ _ => exact here.of_written (execField_written (by simp [Instr.space]) ht)
  | bodyByte b => exact execBodyByte_wroteFrom ht
  | codeBit v => exact execCodeBit_wroteFrom ht

/-! ### The instructions that write no byte -/

/-- FREQ or HDR of its own runs or has ended, the sink's memory as it was. -/
structure Scanning (m : List Host.Cell) (s : State) : Prop where
  mem : s.sink.mem = m
  op : s.op = .unit
  place : s.work = .freq ∨ (∃ lo, s.work = .hdr lo) ∨ s.work = .rest

theorem Scanning.hdrCheckEnd {m : List Host.Cell} {s : State} (h : Scanning m s) : Scanning m (hdrCheckEnd s) := by
  unfold Machine.hdrCheckEnd
  split
  · simp only [afterHdr, h.op]
    exact ⟨h.mem, rfl, .inr (.inr rfl)⟩
  · exact h

theorem Scanning.hdrByte {m : List Host.Cell} {s : State} (h : Scanning m s) (lo b : Byte) :
    Scanning m (hdrByte lo b s) := by
  have keep : ∀ {u : State}, u.sink.mem = s.sink.mem → u.op = s.op → u.work = s.work → Scanning m u :=
    fun hm ho hw => ⟨hm.trans h.mem, ho.trans h.op, hw ▸ h.place⟩
  simp only [Machine.hdrByte]
  split
  · unfold hdrPadding
    split
    · exact keep rfl rfl rfl
    · exact ⟨by simpa using h.mem, rfl, .inr (.inr rfl)⟩
  · exact ⟨h.mem, h.op, .inr (.inl ⟨_, rfl⟩)⟩
  · exact Scanning.hdrCheckEnd (keep rfl rfl rfl)
  · exact keep rfl rfl rfl
  · simp only [hdrCount]
    split
    · exact Scanning.hdrCheckEnd (keep rfl rfl rfl)
    · exact keep rfl rfl rfl

theorem Scanning.tick {m : List Host.Cell} {s t : State} (h : Scanning m s) (ht : tick s = .next t) : Scanning m t := by
  obtain ⟨hm, ho, hp⟩ := h
  unfold Machine.tick at ht
  split at ht
  · rcases hp with hw | ⟨lo, hw⟩ | hw <;> simp only [hw] at ht
    · unfold freqTick at ht
      split at ht <;> cases ht
      next tok _ _ =>
        cases tok with
        | byte b => exact ⟨hm, ho, .inl hw⟩
        | eos => simp only [freqToken, afterFreq, ho]; exact ⟨hm, rfl, .inr (.inr rfl)⟩
    · unfold hdrTick at ht
      split at ht <;> cases ht
      · exact ⟨by simpa using hm, rfl, .inr (.inr rfl)⟩
      · refine Scanning.hdrByte ?_ lo _
        exact ⟨hm, ho, .inr (.inl ⟨lo, hw⟩)⟩
    · cases ht
  · cases ht

theorem issue_mem_of_scanning {ready : Status → Bool} {start : State → State} {s t : State}
    (hstart : Scanning s.sink.mem (start (startOp s .unit))) (ht : issue .unit ready start s = .next t) :
    t.sink.mem = s.sink.mem := by
  rcases issue_next ht with rfl | rfl | ht
  · rfl
  · simp
  · exact (turn_keeps (fun _ _ h => h.tick) hstart ht).mem

/-- Settles O53: an operation writes from its own start on, a body byte and a code bit at the end of the output, and the
units without output write nothing. -/
theorem memoryFrame : Obligations.MemoryFrame := by
  refine fun s t i ht => ⟨(exec_wroteFrom ht).frame, fun quiet => ?_⟩
  suffices e : t.sink.mem = s.sink.mem by simp [e]
  cases i with
  | clr => rcases execClr_sink ht with e | e <;> rw [e]; rfl
  | freq => exact issue_mem_of_scanning ⟨rfl, rfl, .inl rfl⟩ ht
  | hdr => exact issue_mem_of_scanning ⟨rfl, rfl, .inr (.inl ⟨0, rfl⟩)⟩ ht
  | build | assign =>
    obtain ⟨-, ⟨-, hmem, -⟩, -⟩ := buildAssignFrame s t _ (by simp) ht
    exact hmem
  | paddingCount _ | entryCount _ | entry _ _ =>
    exact (written_eq_iff.1 (execField_written (by simp [Instr.space]) ht)).1
  | pack | unpack | enc | dec | bodyByte _ | codeBit _ => simp [Instr.space] at quiet

end Sys2Proof.Machine
end

section
/-! Decoding and encoding are inverse to each other, instruction by instruction and space by space
(spec/30_encoding.md R60 to R68, R71). -/

namespace Sys2Proof.Machine

/-! ### Little-endian fields, assembled from their own bytes -/

theorem fromLE16_le16 (v : BitVec 16) : fromLE16 (v.extractLsb' 0 8) (v.extractLsb' 8 8) = v := by
  apply BitVec.eq_of_toNat_eq
  have hv := v.isLt
  simp only [toNat_fromLE16, BitVec.extractLsb'_toNat, Nat.shiftRight_eq_div_pow]
  omega

theorem fromLE64_le64 (v : Count) :
    fromLE64 (v.extractLsb' 0 8) (v.extractLsb' 8 8) (v.extractLsb' 16 8) (v.extractLsb' 24 8)
      (v.extractLsb' 32 8) (v.extractLsb' 40 8) (v.extractLsb' 48 8) (v.extractLsb' 56 8) = v := by
  apply BitVec.eq_of_toNat_eq
  have hv := v.isLt
  simp only [toNat_fromLE64, BitVec.extractLsb'_toNat, Nat.shiftRight_eq_div_pow]
  omega

/-! ### Command words -/

/-- The command words of R61 and no others. -/
theorem decodeCommand_eq_ok {c : Byte} {i : Instr} :
    decodeCommand c = .ok i ↔ i.space = .command ∧ encode i = [c] := by
  constructor
  · intro h
    unfold decodeCommand at h
    split_ifs at h <;> cases h <;> exact ⟨rfl, by simp [encode, *]⟩
  · rintro ⟨hs, he⟩
    cases i <;> cases hs <;> cases he <;> rfl

/-- Outside R61's range a command word is reserved (R62). -/
theorem decodeCommand_reserved {c : Byte} (h : c.toNat = 0 ∨ 10 ≤ c.toNat) :
    decodeCommand c = .error (.reservedCommand c) := by
  have hne : ∀ k : Byte, 1 ≤ k.toNat → k.toNat ≤ 9 → c ≠ k := by
    rintro k h1 h9 rfl
    omega
  simp [decodeCommand, hne]

/-! ### The two directions -/

/-- R64's bound is the one thing well-formedness asks. -/
theorem wellFormed_paddingCount {p : Byte} : (Instr.paddingCount p).WellFormed ↔ p.toNat ≤ 7 := by
  simp [Instr.WellFormed, Instr.paddingInRange]

theorem wellFormed_of_space {i : Instr} (h : i.space ≠ .padding) : i.WellFormed := by
  cases i with
  | paddingCount p => exact absurd rfl h
  | _ => rfl

/-- Settles O1: a command by its word, a field by the bytes of its own operand. -/
theorem decodeOfEncode : Obligations.DecodeOfEncode := by
  intro i rest hwf
  cases i with
  | clr | freq | build | assign | pack | hdr | unpack | enc | dec => rfl
  | paddingCount p =>
    simp [Instr.space, encode, decode, decodePadding_ok (wellFormed_paddingCount.1 hwf), Except.map]
  | entryCount n => simp [Instr.space, encode, decode, le16, fromLE16_le16]
  | entry sym count => simp [Instr.space, encode, decode, le64, fromLE64_le64]
  | bodyByte b => rfl
  | codeBit v => cases v <;> rfl

/-- Settles O2: by the cases of the decoder, one for each space and shape of the bytes it accepts. -/
theorem encodeOfDecode : Obligations.EncodeOfDecode := by
  intro sp bytes rest i h
  fun_cases decode sp bytes with
  | case1 c tail =>
    cases hd : decodeCommand c with
    | error e => simp [decode, hd, Except.map] at h
    | ok j =>
      simp only [decode, hd] at h
      cases h
      obtain ⟨hs, he⟩ := decodeCommand_eq_ok.1 hd
      exact ⟨wellFormed_of_space (by simp [hs]), hs, by simp [he]⟩
  | case2 p tail =>
    by_cases hp : p.toNat ≤ 7
    · simp only [decode, decodePadding_ok hp] at h
      cases h
      exact ⟨wellFormed_paddingCount.2 hp, rfl, rfl⟩
    · simp [decode, decodePadding_bad (not_le.1 hp), Except.map] at h
  | case3 lo hi tail =>
    cases h
    exact ⟨rfl, rfl, by simp [encode, le16_fromLE16]⟩
  | case4 s a b c d e f g h' tail =>
    cases h
    exact ⟨rfl, rfl, by simp [encode, le64_fromLE64]⟩
  | case5 b tail | case6 tail | case7 tail =>
    cases h
    exact ⟨rfl, rfl, rfl⟩
  | case8 b tail h0 h1 => simp [decode, h0, h1] at h
  | case9 | case10 | case11 | case12 | case13 | case14 => cases h
  | case15 => simp [decode] at h

/-- Settles O3: the words by evaluation, the reserved commands and the padding counts above 7 by their range. -/
theorem encodedWords : Obligations.EncodedWords := by
  refine ⟨⟨rfl, rfl, rfl, rfl, rfl, rfl, rfl, rfl, rfl⟩, fun c hc => ?_, ⟨rfl, rfl, rfl, rfl, rfl, rfl, rfl, rfl⟩,
    fun p hp => ?_⟩
  · simp [decode, decodeCommand_reserved hc, Except.map]
  · simp [decode, decodePadding_bad hp, Except.map]

end Sys2Proof.Machine
end

section
/-! FREQ: the state it ends in and its table's keys (spec/40_frequency_counter.md R80 to R87); what FREQ and HDR leave
unchanged (R80; spec/44_bit_unpacker.md R130; spec/20_memory.md R52). -/

namespace Sys2Proof.Machine

/-! ### The result of FREQ -/

theorem execFreq_result {s : State} {l : List Byte} {rest : List Token} (h : Ready s)
    (hq : s.inq = byteTokens l ++ .eos :: rest) : exec .freq s = .next { s with
      status := goodStatus true false false false, ft := freqView s.par.sentinel l, inq := rest,
      sink := s.sink.rebase, op := .unit, work := .rest } := by
  obtain ⟨hidle, hpace⟩ := h
  have hexec : exec .freq s = turn (startFreq (startOp s .unit)) := issue_run hidle rfl
  have hpaced : (startFreq (startOp s .unit)).pace = none := hpace
  have hrun := run_freq (s := startFreq (startOp s .unit)) rfl rfl rfl hq
  have hbound : l.length + 1 ≤ stepBound (startFreq (startOp s .unit)) := by
    simp [stepBound, hq, byteTokens]
    omega
  refine hexec.trans ((turn_of_run hpaced hrun rfl hbound).trans ?_)
  simp [afterFreq, endOk, startFreq, startOp, Status.start, Status.clearAll, Status.succeed, goodStatus]

/-- `freq(S)` asks of the input only what occurs in it and how often (40 R87). -/
theorem freqView_perm {l l' : List Byte} (h : l.Perm l') (sentinel : Byte) :
    freqView sentinel l = freqView sentinel l' := by
  simp only [freqView, h.mem_iff, h.count_eq, h.dedup.length_eq]

/-- Settles O18: the turn of FREQ is the run over the stream, which its bound of steps covers. -/
theorem freqResult : Obligations.FreqResult :=
  ⟨fun _ _ _ => execFreq_result, fun sentinel _ _ h => freqView_perm h sentinel⟩

/-! ### The keys of the table -/

theorem mem_keys {α : Type} {t : Table α} {b : Byte} : b ∈ (entriesOf t).map Prod.fst ↔ tableGet t b ≠ none := by
  simp [keys_entriesOf, Option.isSome_iff_ne_none]

/-- Distinct keys of a table are at most as many as it has. -/
theorem length_le_keyCount {α : Type} {t : Table α} {ks : List Byte} (hn : ks.Nodup)
    (h : ∀ b ∈ ks, tableGet t b ≠ none) : ks.length ≤ keyCount t := by
  have hsub : ks ⊆ (entriesOf t).map Prod.fst := fun b hb => mem_keys.2 (h b hb)
  simpa [keyCount] using (List.subperm_of_subset hn hsub).length_le

/-- A list with every key of a table is at least as long as they are many. -/
theorem keyCount_le_length {α : Type} {t : Table α} {ks : List Byte} (h : ∀ b, tableGet t b ≠ none → b ∈ ks) :
    keyCount t ≤ ks.length := by
  have hsub : (entriesOf t).map Prod.fst ⊆ ks := fun b hb => h b (mem_keys.1 hb)
  simpa [keyCount] using (List.subperm_of_subset (nodup_keys t) hsub).length_le

theorem tableGet_freqView_of_mem {sentinel b : Byte} {l : List Byte} (h : b ∈ l) :
    tableGet (freqView sentinel l) b = some (BitVec.ofNat 64 (l.count b)) := by
  simp [freqView, h]

theorem tableGet_freqView_of_not_mem {sentinel b : Byte} {l : List Byte} (h : b ∉ l) :
    tableGet (freqView sentinel l) b = if b = sentinel ∧ l.dedup.length < 2 then some 0 else none := by
  simp [freqView, h]

/-- With fewer than two byte values in the input the sentinel is a key, seeded or counted (40 R83). -/
theorem sentinel_key {sentinel : Byte} {l : List Byte} (h : l.dedup.length < 2) :
    tableGet (freqView sentinel l) sentinel ≠ none := by
  by_cases hs : sentinel ∈ l
  · simp [tableGet_freqView_of_mem hs]
  · simp [tableGet_freqView_of_not_mem hs, h]

/-- A key that does not occur in the input is the sentinel with count 0 (40 R86). -/
theorem freqView_added_key {sentinel b : Byte} {l : List Byte} (hb : b ∉ l)
    (h : tableGet (freqView sentinel l) b ≠ none) :
    b = sentinel ∧ tableGet (freqView sentinel l) b = some 0 ∧ l.dedup.length < 2 := by
  rw [tableGet_freqView_of_not_mem hb] at h ⊢
  split at h
  · next hc => exact ⟨hc.1, if_pos hc, hc.2⟩
  · exact absurd rfl h

/-- The byte values of the input are keys. -/
theorem length_dedup_le_keyCount (sentinel : Byte) (l : List Byte) : l.dedup.length ≤ keyCount (freqView sentinel l) :=
  length_le_keyCount l.nodup_dedup fun b hb => by simp [tableGet_freqView_of_mem (List.mem_dedup.1 hb)]

theorem one_le_keyCount_freqView (sentinel : Byte) (l : List Byte) : 1 ≤ keyCount (freqView sentinel l) := by
  by_cases h : l.dedup.length < 2
  · exact length_le_keyCount (ks := [sentinel]) (List.nodup_singleton _) (by simpa using sentinel_key h)
  · have := length_dedup_le_keyCount sentinel l
    omega

/-- One key: the sentinel, and no other byte in the input (40 R84). -/
theorem keyCount_freqView_eq_one_iff (sentinel : Byte) (l : List Byte) :
    keyCount (freqView sentinel l) = 1 ↔ ∀ b ∈ l, b = sentinel := by
  constructor
  · intro h b hb
    by_contra hne
    have hfew : l.dedup.length < 2 := by
      have := length_dedup_le_keyCount sentinel l
      omega
    have keys : ∀ c ∈ [b, sentinel], tableGet (freqView sentinel l) c ≠ none := by
      simp [tableGet_freqView_of_mem hb, sentinel_key hfew]
    have htwo : 2 ≤ keyCount (freqView sentinel l) := length_le_keyCount (by simpa using hne) keys
    omega
  · intro h
    have hone : keyCount (freqView sentinel l) ≤ [sentinel].length := keyCount_le_length fun b hb => by
      by_cases hm : b ∈ l
      · exact List.mem_singleton.2 (h b hm)
      · exact List.mem_singleton.2 (freqView_added_key hm hb).1
    exact Nat.le_antisymm hone (one_le_keyCount_freqView sentinel l)

/-- An input shorter than a count's range gives none of its bytes the count 0 (40 R85, R86). -/
theorem not_mem_of_freqView_zero {sentinel b : Byte} {l : List Byte} (hl : l.length < 2 ^ 64)
    (h : tableGet (freqView sentinel l) b = some 0) : b ∉ l := by
  intro hb
  rw [tableGet_freqView_of_mem hb, Option.some.injEq] at h
  have hmod : l.count b % 2 ^ 64 = 0 := by simpa using congrArg BitVec.toNat h
  rw [Nat.mod_eq_of_lt (List.count_le_length.trans_lt hl)] at hmod
  exact (List.count_pos_iff.2 hb).ne' hmod

/-- Settles O19: the table is `freq(S)`, whose keys are the bytes of the input and the sentinel, if it was added. -/
theorem freqTable : Obligations.FreqTable := fun _ _ _ hs hq hl =>
  ⟨_, execFreq_result hs hq, one_le_keyCount_freqView _ _, keyCount_freqView_eq_one_iff _ _,
    fun _ => tableGet_freqView_of_mem, fun _ => freqView_added_key, fun _ => not_mem_of_freqView_zero hl⟩

/-! ### Frames -/

/-- What neither FREQ nor HDR writes, the sink's memory aside. -/
def outsideScan (s : State) :=
  ((s.node, s.nleaf, s.live, s.root, s.ct, s.cur, s.acc, s.nb, s.hold, s.path, s.stk),
    s.par, s.host, s.pace, s.rdata, s.inReset)

/-- The registers HDR writes besides `FT`. -/
def headerRegisters (s : State) := (s.pad, s.nent, s.hpos, s.hsym, s.hacc)

/-- What a step of a FREQ of its own comes to: a byte counted, or the end of the operation (40 R80). -/
theorem freqTick_cases {s t : State} (ho : s.op = .unit) (ht : freqTick s = .next t) :
    ∃ q ft, t = { s with inq := q, ft := ft } ∨
      t = endOk { s with inq := q, ft := ft, status := { s.status with ftV := true } } := by
  unfold freqTick at ht
  split at ht <;> cases ht
  next tok rest _ =>
    cases tok with
    | byte b => exact ⟨rest, _, .inl rfl⟩
    | eos => exact ⟨rest, seedSentinel s.par.sentinel s.ft, .inr (by simp only [freqToken, afterFreq, ho])⟩

theorem outsideScan_freqTick {s t : State} (ho : s.op = .unit) (ht : freqTick s = .next t) :
    outsideScan t = outsideScan s := by
  obtain ⟨_, _, rfl | rfl⟩ := freqTick_cases ho ht <;> rfl

theorem outsideScan_hdrCheckEnd {s : State} (ho : s.op = .unit) : outsideScan (hdrCheckEnd s) = outsideScan s := by
  unfold hdrCheckEnd
  split
  · simp only [afterHdr, ho]
    rfl
  · rfl

theorem outsideScan_hdrByte {s : State} (ho : s.op = .unit) (lo b : Byte) :
    outsideScan (hdrByte lo b s) = outsideScan s := by
  simp only [hdrByte]
  split
  · unfold hdrPadding
    split <;> rfl
  · rfl
  · exact outsideScan_hdrCheckEnd ho
  · rfl
  · simp only [hdrCount]
    split
    · exact outsideScan_hdrCheckEnd ho
    · rfl

theorem outsideScan_hdrTick {s t : State} {lo : Byte} (ho : s.op = .unit) (ht : hdrTick lo s = .next t) :
    outsideScan t = outsideScan s := by
  unfold hdrTick at ht
  split at ht <;> cases ht
  · rfl
  · next rest _ => exact outsideScan_hdrByte (s := { s with inq := rest }) ho lo _

theorem Scanning.outsideScan_tick {m : List Host.Cell} {s t : State} (h : Scanning m s)
    (ht : Machine.tick s = .next t) : outsideScan t = outsideScan s := by
  unfold Machine.tick at ht
  split at ht
  · rcases h.place with hw | ⟨lo, hw⟩ | hw <;> rw [hw] at ht
    · exact outsideScan_freqTick h.op ht
    · exact outsideScan_hdrTick h.op ht
    · cases ht
  · cases ht

/-- A command whose unit is FREQ or HDR keeps what stands outside them, and the sink's memory. -/
theorem issue_frame_of_scanning {ready : Status → Bool} {start : State → State} {s t : State}
    (hstart : Scanning s.sink.mem (start (startOp s .unit)))
    (hout : outsideScan (start (startOp s .unit)) = outsideScan s) (ht : issue .unit ready start s = .next t) :
    outsideScan t = outsideScan s ∧ t.sink.mem = s.sink.mem := by
  refine ⟨?_, issue_mem_of_scanning hstart ht⟩
  have keeps : ∀ u v : State, Scanning s.sink.mem u ∧ outsideScan u = outsideScan s → tick u = .next v →
      Scanning s.sink.mem v ∧ outsideScan v = outsideScan s :=
    fun _ _ ⟨hu, e⟩ hv => ⟨hu.tick hv, (hu.outsideScan_tick hv).trans e⟩
  rcases issue_next ht with rfl | rfl | ht
  · rfl
  · rfl
  · exact (turn_keeps keeps ⟨hstart, hout⟩ ht).2

/-- From `s`, a FREQ of its own has come to `t`, HDR's registers as they were. -/
structure FreqFrame (s t : State) : Prop where
  registers : headerRegisters t = headerRegisters s
  op : t.op = .unit
  place : t.work = .freq ∨ t.work = .rest

theorem FreqFrame.tick {s t u : State} (h : FreqFrame s t) (hu : tick t = .next u) : FreqFrame s u := by
  unfold Machine.tick at hu
  split at hu
  · rcases h.place with hw | hw <;> rw [hw] at hu
    · obtain ⟨_, _, rfl | rfl⟩ := freqTick_cases h.op hu
      · exact ⟨h.registers, h.op, .inl hw⟩
      · exact ⟨h.registers, rfl, .inr rfl⟩
    · cases hu
  · cases hu

theorem execFreq_headerRegisters {s t : State} (h : exec .freq s = .next t) :
    headerRegisters t = headerRegisters s := by
  rcases issue_next h with rfl | rfl | ht
  · rfl
  · rfl
  · have start : FreqFrame s (startFreq (startOp s .unit)) := ⟨rfl, rfl, .inl rfl⟩
    exact (turn_keeps (fun _ _ hf => hf.tick) start ht).registers

/-- Settles O50: every step of the two units keeps what stands outside them. -/
theorem freqHdrFrame : Obligations.FreqHdrFrame := by
  intro s t i hi h
  have frame : outsideScan t = outsideScan s ∧ t.sink.mem = s.sink.mem := by
    rcases hi with rfl | rfl
    · exact issue_frame_of_scanning ⟨rfl, rfl, .inl rfl⟩ rfl h
    · exact issue_frame_of_scanning ⟨rfl, rfl, .inr (.inl ⟨0, rfl⟩)⟩ rfl h
  obtain ⟨outside, mem⟩ := frame
  simp only [outsideScan, Prod.mk.injEq] at outside
  obtain ⟨registers, channels⟩ := outside
  refine ⟨registers, ⟨mem, channels⟩, ?_⟩
  rintro rfl
  simpa only [headerRegisters, Prod.mk.injEq] using execFreq_headerRegisters h

end Sys2Proof.Machine
end

section
/-! BUILD, the rest: a table without a key (spec/41_tree_builder.md R97), the order of a merge (R91 to R93), and that
the tree is a function of the table alone (R98). -/

namespace Sys2Proof.Machine

/-! ### A table without a key -/

/-- A run of BUILD's steps from its start to an idle block is the command's whole turn, if the turn is long enough. -/
theorem execBuild_of_run {n : Nat} {s u : State} (h : Ready s) (hft : s.status.ftV = true)
    (hrun : Run n (startBuild (startOp s .unit)) u) (hidle : u.status.busy = false) (hn : n ≤ 8192) :
    exec .build s = .next u :=
  (issue_run h.1 hft).trans (turn_of_run h.2 hrun hidle (hn.trans (Nat.le_add_right 8192 _)))

/-- Settles O21: the leaf loop has no key to take, and its end is the one step of the turn. -/
theorem buildEmptyTable : Obligations.BuildEmptyTable := by
  intro s hs hft hes
  have htick : tick (startBuild (startOp s .unit)) =
      .next (raiseCause .emptyTable { startBuild (startOp s .unit) with nleaf := 0 }) := by
    simp [tick, leavesTick, hes, startBuild, startOp, Status.start, Status.clearTree]
  refine (execBuild_of_run hs hft (.one htick) rfl (by omega)).trans ?_
  simp [raiseCause, voidSink, Sink.voidOutput, Sink.rebase, startBuild, startOp, Status.start, Status.clearTree,
    Status.fail, failStatus, hes, hft]

/-! ### The order of a merge -/

/-- A least live node comes before every other one (41 R91). -/
theorem argminLive_spec {ns : List Node} {live : BitVec 511} (h : liveNodes ns live ≠ []) :
    ∃ a, argminLive ns live = some a ∧ a ∈ liveNodes ns live ∧
      ∀ c ∈ liveNodes ns live, c ≠ a → lighter ns a c = true := by
  obtain ⟨a, ha, hmem, hmin⟩ := argmin_spec ns h
  refine ⟨a, ha, hmem, fun c hc hne => ?_⟩
  exact (lighter_total hne).resolve_left (by simp [hmin c hc])

theorem mem_liveNodes_clearLive {ns : List Node} (h : ns.length ≤ 511) {live : BitVec 511} {a c : Nat} :
    c ∈ liveNodes ns (clearLive live a) ↔ c ∈ liveNodes ns live ∧ c ≠ a := by
  simp [liveNodes_clearLive h]

theorem mem_liveNodes_add {ns : List Node} (h : ns.length < 511) {live : BitVec 511} {n : Node} {c : Nat} :
    c ∈ liveNodes (ns ++ [n]) (setLive live ns.length) ↔ c = ns.length ∨ c ∈ liveNodes ns live := by
  simp [liveNodes_add h, or_comm]

/-- The two nodes a merge step removes (41 R92): the second is the least of what the first leaves. -/
structure MergePair (ns : List Node) (live : BitVec 511) (a b : Nat) : Prop where
  first : argminLive ns live = some a
  second : argminLive ns (clearLive live a) = some b
  memFirst : a ∈ liveNodes ns live
  memSecond : b ∈ liveNodes ns live
  order : lighter ns a b = true
  least : ∀ c ∈ liveNodes ns live, c = a ∨ c = b ∨ lighter ns b c = true

theorem exists_mergePair {ns : List Node} {live : BitVec 511} (hlen : ns.length ≤ 511)
    (h2 : 2 ≤ (liveNodes ns live).length) : ∃ a b, MergePair ns live a b := by
  obtain ⟨a, ha, hma, hmina⟩ :=
    argminLive_spec (List.ne_nil_of_length_pos (by omega : 0 < (liveNodes ns live).length))
  have hcount := length_liveNodes_clear hlen hma
  obtain ⟨b, hb, hmb, hminb⟩ :=
    argminLive_spec (List.ne_nil_of_length_pos (by omega : 0 < (liveNodes ns (clearLive live a)).length))
  obtain ⟨hbl, hba⟩ := (mem_liveNodes_clearLive hlen).1 hmb
  refine ⟨a, b, ha, hb, hma, hbl, hmina b hbl hba, fun c hc => ?_⟩
  by_cases hca : c = a
  · exact .inl hca
  by_cases hcb : c = b
  · exact .inr (.inl hcb)
  · exact .inr (.inr (hminb c ((mem_liveNodes_clearLive hlen).2 ⟨hc, hca⟩) hcb))

theorem MergePair.mergeTick {s : State} {a b : Nat} (h : MergePair s.node s.live a b)
    (h2 : 2 ≤ (liveNodes s.node s.live).length) :
    mergeTick s = .next (addNode (mergeNode s.node a b) { s with live := clearLive (clearLive s.live a) b }) := by
  unfold Machine.mergeTick
  split
  · next hl => simp [hl] at h2
  · next hl => simp [hl] at h2
  · simp only [h.first, h.second]

/-- In the leaf loop the sequencer's step is a leaf step. -/
theorem tick_of_leaves {s : State} {keys : List (Byte × Count)} (hb : s.status.busy = true)
    (hw : s.work = .leaves keys) : tick s = leavesTick keys s := by
  simp [tick, hb, hw]

/-- In the merge loop it is a merge step. -/
theorem tick_of_merge {s : State} (hb : s.status.busy = true) (hw : s.work = .merge) : tick s = mergeTick s := by
  simp [tick, hb, hw]

/-- Settles O23: the step of the machine is one of the sequencer, and it merges the pair of `argmin_live`. -/
theorem mergeStep : Obligations.MergeStep := by
  intro s hinv hhost hpace hwork h2
  have hbuild := hinv.build
  simp only [BuildInv, hwork] at hbuild
  have hlt : s.node.length < 511 := by omega
  have hbusy : s.status.busy = true := hinv.busy (by simp [hwork])
  obtain ⟨a, b, hp⟩ := exists_mergePair hinv.arena.1 h2
  have htick := (tick_of_merge hbusy hwork).trans (hp.mergeTick h2)
  have hstep := (step_of_pace hhost hpace).trans (drive_succ htick)
  refine ⟨a, b, hp.memFirst, hp.memSecond, hp.order, hp.least, _, hstep, rfl, fun c => ?_⟩
  simp only [addNode_node, addNode_live, mem_liveNodes_add hlt, mem_liveNodes_clearLive hinv.arena.1, and_assoc]

/-! ### The tree is a function of the table -/

/-- What the steps of BUILD read and pass on, beside the registers they only write. -/
def treeWork (s : State) := (s.status.busy, s.op, s.work, s.node, s.live)

theorem treeWork_eq_iff {s s' : State} : treeWork s' = treeWork s ↔ s'.status.busy = s.status.busy ∧ s'.op = s.op ∧
    s'.work = s.work ∧ s'.node = s.node ∧ s'.live = s.live := by
  simp [treeWork]

/-- Two states stand at the same place of a BUILD of its own, on the same nodes, whatever else they hold. -/
structure SameBuild (s s' : State) : Prop where
  same : treeWork s' = treeWork s
  op : s.op = .unit
  place : (∃ keys, s.work = .leaves keys) ∨ s.work = .merge ∨ s.work = .rest

theorem SameBuild.leavesTick {s s' t : State} {keys : List (Byte × Count)} (h : SameBuild s s')
    (ht : leavesTick keys s = .next t) : ∃ t', leavesTick keys s' = .next t' ∧ SameBuild t t' := by
  obtain ⟨hbusy, hop, -, hnode, hlive⟩ := treeWork_eq_iff.1 h.same
  cases keys with
  | cons e rest =>
    cases ht
    exact ⟨_, rfl, treeWork_eq_iff.2 (by simp [hbusy, hop, hnode, hlive]), h.op, .inl ⟨rest, rfl⟩⟩
  | nil =>
    simp only [Machine.leavesTick, hnode] at ht ⊢
    split at ht <;> cases ht
    · next hn => exact ⟨_, if_pos hn, treeWork_eq_iff.2 (by simp [Status.fail, hlive]), rfl, .inr (.inr rfl)⟩
    · next hn => exact ⟨_, if_neg hn, treeWork_eq_iff.2 ⟨hbusy, hop, rfl, rfl, hlive⟩, h.op, .inr (.inl rfl)⟩

theorem SameBuild.mergeTick {s s' t : State} (h : SameBuild s s') (hw : s.work = .merge)
    (ht : mergeTick s = .next t) : ∃ t', mergeTick s' = .next t' ∧ SameBuild t t' := by
  obtain ⟨hbusy, hop, hwork, hnode, hlive⟩ := treeWork_eq_iff.1 h.same
  unfold Machine.mergeTick at ht ⊢
  rw [hnode, hlive]
  split at ht
  · cases ht
  · simp only [afterBuild, h.op] at ht
    cases ht
    simp only [afterBuild, hop, h.op]
    exact ⟨_, rfl, treeWork_eq_iff.2 ⟨rfl, rfl, rfl, rfl, rfl⟩, rfl, .inr (.inr rfl)⟩
  · split at ht
    · cases ht
    · split at ht <;> cases ht
      exact ⟨_, rfl, treeWork_eq_iff.2 (by simp [hbusy, hop, hwork]), h.op, .inr (.inl hw)⟩

theorem SameBuild.tick {s s' t : State} (h : SameBuild s s') (ht : tick s = .next t) :
    ∃ t', tick s' = .next t' ∧ SameBuild t t' := by
  obtain ⟨hbusy, -, hwork, -⟩ := treeWork_eq_iff.1 h.same
  cases hb : s.status.busy with
  | false => rw [tick_idle hb] at ht; cases ht
  | true =>
    rcases h.place with ⟨keys, hw⟩ | hw | hw
    · rw [tick_of_leaves hb hw] at ht
      rw [tick_of_leaves (hbusy.trans hb) (hwork.trans hw)]
      exact h.leavesTick ht
    · rw [tick_of_merge hb hw] at ht
      rw [tick_of_merge (hbusy.trans hb) (hwork.trans hw)]
      exact h.mergeTick hw ht
    · simp [Machine.tick, hw] at ht

theorem SameBuild.run {n : Nat} {s s' t : State} (h : SameBuild s s') (r : Run n s t) :
    ∃ t', Run n s' t' ∧ SameBuild t t' := by
  induction r generalizing s' with
  | refl => exact ⟨s', .refl s', h⟩
  | cons ht _ ih =>
    obtain ⟨u', hu', hu⟩ := h.tick ht
    obtain ⟨t', r', hst⟩ := ih hu
    exact ⟨t', .cons hu' r', hst⟩

/-- At its start BUILD has taken from the state nothing but the table's keys (41 R89). -/
theorem sameBuild_start {s s' : State} (h : s.ft = s'.ft) :
    SameBuild (startBuild (startOp s .unit)) (startBuild (startOp s' .unit)) :=
  ⟨treeWork_eq_iff.2 ⟨rfl, rfl, congrArg (Work.leaves <| entriesOf ·) h.symm, rfl, rfl⟩, rfl, .inl ⟨_, rfl⟩⟩

/-- BUILD on the same table leaves the same nodes: the two runs take the same steps. -/
theorem execBuild_node_eq {s s' t t' : State} (hs : Ready s) (hs' : Ready s') (hft : s.status.ftV = true)
    (hft' : s'.status.ftV = true) (h : s.ft = s'.ft) (hne : entriesOf s.ft ≠ []) (ht : exec .build s = .next t)
    (ht' : exec .build s' = .next t') : t.node = t'.node := by
  have hlen : (entriesOf s.ft).length ≤ 256 := length_entriesOf_le s.ft
  obtain ⟨node, _, -, hrun⟩ :=
    run_build (s := startBuild (startOp s .unit)) (es := entriesOf s.ft) rfl rfl rfl rfl hne hlen
  obtain ⟨u', hrun', hsame⟩ := (sameBuild_start h).run hrun
  obtain ⟨hbusy, -, -, hnode, -⟩ := treeWork_eq_iff.1 hsame.same
  cases ht.symm.trans (execBuild_of_run hs hft hrun rfl (by omega))
  cases ht'.symm.trans (execBuild_of_run hs' hft' hrun' hbusy (by omega))
  exact hnode.symm

/-- Settles O22: O20 gives the registers as functions of the number of keys, and the runs give the nodes. -/
theorem buildDeterminism : Obligations.BuildDeterminism := by
  intro s s' t t' hs hs' hft hft' h hne ht ht'
  have hnode := execBuild_node_eq hs hs' hft hft' h hne ht ht'
  obtain ⟨_, _, -, e⟩ := buildResult s _ hs hft rfl hne
  obtain ⟨_, _, -, e'⟩ := buildResult s' _ hs' hft' (congrArg entriesOf h.symm) hne
  cases ht.symm.trans e
  cases ht'.symm.trans e'
  exact ⟨hnode, congrArg List.length hnode, rfl, rfl, rfl, rfl⟩

end Sys2Proof.Machine
end

section
/-! ASSIGN: the state it ends in (spec/42_code_assigner.md R104 to R106), and the code words of a tree: their lengths
(R108), no one a prefix of another, every long enough bit sequence beginning with one (R109). -/

namespace Sys2Proof.Machine

/-! ### The code words of a tree, bit by bit -/

@[simp] theorem mem_codes_leaf {b x : Byte} {w : Count} {c : Code} :
    (b, c) ∈ (HTree.leaf x w).codes ↔ b = x ∧ c = [] := by simp [HTree.codes]

@[simp] theorem nil_not_mem_codes_node {b : Byte} {w : Count} {l r : HTree} :
    (b, []) ∉ (HTree.node w l r).codes := by simp [HTree.codes]

/-- The first bit of a code word chooses the child, and the others are a code word of that child (30 R71). -/
@[simp] theorem cons_mem_codes_node {b : Byte} {v : Bool} {c : Code} {w : Count} {l r : HTree} :
    (b, v :: c) ∈ (HTree.node w l r).codes ↔ (b, c) ∈ (if v then r else l).codes := by
  cases v <;> simp [HTree.codes]

theorem leaves_child_lt (v : Bool) (w : Count) (l r : HTree) :
    (if v then r else l).leaves < (HTree.node w l r).leaves := by
  cases v with
  | false => exact Nat.lt_add_of_pos_right r.leaves_pos
  | true => exact Nat.lt_add_of_pos_left l.leaves_pos

theorem two_le_leaves_node (w : Count) (l r : HTree) : 2 ≤ (HTree.node w l r).leaves :=
  Nat.add_le_add l.leaves_pos r.leaves_pos

theorem length_code_lt_leaves {t : HTree} {b : Byte} {c : Code} (h : (b, c) ∈ t.codes) : c.length < t.leaves := by
  induction c generalizing t with
  | nil => exact t.leaves_pos
  | cons v c ih =>
    cases t with
    | leaf => simp at h
    | node w l r =>
      have hc := ih (cons_mem_codes_node.1 h)
      have hv := leaves_child_lt v w l r
      rw [List.length_cons]
      omega

theorem length_code_pos {t : HTree} {b : Byte} {c : Code} (ht : 2 ≤ t.leaves) (h : (b, c) ∈ t.codes) :
    0 < c.length := by
  cases t with
  | leaf => simp [HTree.leaves] at ht
  | node => exact List.length_pos_iff.2 fun hc => nil_not_mem_codes_node (hc ▸ h)

/-- A code word that begins another is that other, and the leaf is the same: both words lead down the same path, which
ends at the first leaf it meets (42 R109). -/
theorem eq_of_code_prefix {t : HTree} {b b' : Byte} {c c' : Code} (h : (b, c) ∈ t.codes) (h' : (b', c') ∈ t.codes)
    (hp : c <+: c') : b = b' ∧ c = c' := by
  induction c generalizing t c' with
  | nil =>
    cases t with
    | leaf =>
      obtain ⟨rfl, -⟩ := mem_codes_leaf.1 h
      obtain ⟨rfl, rfl⟩ := mem_codes_leaf.1 h'
      exact ⟨rfl, rfl⟩
    | node => exact absurd h nil_not_mem_codes_node
  | cons v c ih =>
    cases t with
    | leaf => simp at h
    | node w l r =>
      obtain ⟨d, rfl, hd⟩ := List.cons_prefix_iff.1 hp
      obtain ⟨hb, hc⟩ := ih (cons_mem_codes_node.1 h) (cons_mem_codes_node.1 h') hd
      exact ⟨hb, congrArg (v :: ·) hc⟩

/-- A bit sequence as long as the tree can be deep leads to a leaf (42 R109). -/
theorem exists_code_prefix {t : HTree} {q : List Bool} (h : t.leaves ≤ q.length + 1) :
    ∃ p ∈ t.codes, p.2 <+: q := by
  induction q generalizing t with
  | nil =>
    cases t with
    | leaf x w => exact ⟨(x, []), by simp, List.nil_prefix⟩
    | node w l r =>
      have htwo := two_le_leaves_node w l r
      rw [List.length_nil] at h
      omega
  | cons v q ih =>
    cases t with
    | leaf x w => exact ⟨(x, []), by simp, List.nil_prefix⟩
    | node w l r =>
      have hv := leaves_child_lt v w l r
      rw [List.length_cons] at h
      obtain ⟨⟨b, c⟩, hmem, hpre⟩ := ih (t := if v then r else l) (by omega)
      exact ⟨(b, v :: c), cons_mem_codes_node.2 hmem, (List.prefix_cons_inj v).2 hpre⟩

/-! ### The obligations on the code -/

/-- Settles O25: the tree of a table has no more leaves than there are bytes. -/
theorem codeLengths : Obligations.CodeLengths := by
  refine ⟨fun t b c ht h => ⟨length_code_pos ht h, length_code_lt_leaves h⟩, fun ft t b c ht h => ?_⟩
  have hc := length_code_lt_leaves h
  have hleaves := buildView_leaves ht
  have hkeys := length_entriesOf_le ft
  omega

/-- Settles O26: of two code words that begin the same sequence, one begins the other. -/
theorem prefixProperty : Obligations.PrefixProperty := by
  refine ⟨fun _ _ _ _ _ _ h h' hp => eq_of_code_prefix h h' hp, fun t q _ hq => ?_⟩
  obtain ⟨p, hp, hpre⟩ := exists_code_prefix hq
  refine ⟨p, ⟨hp, hpre⟩, fun p' ⟨hp', hpre'⟩ => ?_⟩
  rcases List.prefix_or_prefix_of_prefix hpre' hpre with hle | hle
  · exact Prod.ext_iff.2 (eq_of_code_prefix hp' hp hle)
  · exact (Prod.ext_iff.2 (eq_of_code_prefix hp hp' hle)).symm

/-! ### The result of ASSIGN -/

/-- In a tree whose symbols are distinct, the code table holds the tree's code words and nothing else (42 R106). -/
theorem tableGet_codeTable_iff {t : HTree} (hn : t.symbols.Nodup) {b : Byte} {c : Code} :
    tableGet (codeTable t) b = some c ↔ (b, c) ∈ t.codes := by
  refine ⟨fun h => ?_, codeTable_of_mem hn⟩
  by_cases hb : b ∈ t.symbols
  · obtain ⟨d, hd⟩ := exists_code hb
    cases h.symm.trans (codeTable_of_mem hn hd)
    exact hd
  · cases h.symm.trans (codeTable_of_not_mem hb)

/-- Settles O24: the turn of ASSIGN is the run over the tree, which its bound of steps covers. -/
theorem assignResult : Obligations.AssignResult := by
  rintro s t ⟨hidle, hpace⟩ htv htree hleaves hn
  refine ⟨codeTable t, fun b c => tableGet_codeTable_iff hn, ?_⟩
  have hexec : exec .assign s = turn (startAssign (startOp s .unit)) := issue_run hidle htv
  have hpaced : (startAssign (startOp s .unit)).pace = none := hpace
  have hrun := run_assign (s := startAssign (startOp s .unit)) htree rfl rfl rfl rfl rfl
  have hbound : assignSteps t.leaves + 1 ≤ stepBound (startAssign (startOp s .unit)) := by
    unfold assignSteps stepBound
    omega
  refine hexec.trans ((turn_of_run hpaced hrun rfl hbound).trans ?_)
  simp [afterAssign, endOk, startAssign, startOp, Status.start, Status.clearCode, Status.succeed, goodStatus, htv]

end Sys2Proof.Machine
end

section
/-! PACK: the state it ends in (spec/43_bit_packer.md R113 to R122, R128), one code bit appended (R117, R118;
spec/10_state.md R24), and what PACK and UNPACK leave unchanged (R127; spec/44_bit_unpacker.md R137; spec/20_memory.md
R56). -/

namespace Sys2Proof.Machine

/-! ### The result of PACK -/

/-- What PACK does to the sink: it appends the placeholder and the bytes behind it, then rewrites offset 0 (43 R114,
R122). -/
theorem wrote_rewritten (k : Sink) (x b : Byte) (bs : List Byte) :
    Wrote k ((appendAll k.rebase (x :: bs)).store 0 b) (b :: bs) := by
  have hlen : (appendAll k.rebase (x :: bs)).olen = bs.length + 1 := by rw [appendAll_olen]; exact Nat.zero_add _
  have hkept : ((appendAll k.rebase (x :: bs)).store 0 b).olen = bs.length + 1 := by
    rw [Sink.store_olen, hlen, if_neg (by omega)]
  have hbase : (appendAll k.rebase (x :: bs)).base = k.base + k.olen := appendAll_base ..
  constructor
  case base => exact hbase
  case olen => exact hkept
  case output =>
    have hout : (appendAll k.rebase (x :: bs)).output = x :: bs := by rw [output_appendAll, output_rebase]; rfl
    have hfirst : memRead (appendAll k.rebase (x :: bs)).mem (appendAll k.rebase (x :: bs)).base = some x := by
      rw [hbase, appendAll_cons, memRead_appendAll _ _ (by simp)]
      simp
    exact Sink.output_rewrite _ b x bs hout hfirst (by omega)
  case ready => simp
  case fails => simp
  case voids => simp
  case frame =>
    intro a ha
    rw [hkept, Sink.store_base, hbase] at ha
    rw [Sink.store_mem, hbase, memRead_memWrite_ne _ _ (by omega)]
    exact memRead_appendAll k.rebase _ ha

/-- With code words of at most 255 bits (42 R108), the bits of an input are at most 255 a byte. -/
theorem length_inputBits_le {ct : Table Code} {l : List Byte}
    (h : ∀ b ∈ l, ∃ c, tableGet ct b = some c ∧ c.length ≤ 255) : (inputBits ct l).length ≤ 255 * l.length := by
  induction l with
  | nil => simp [inputBits]
  | cons b l ih =>
    obtain ⟨c, hc, hlen⟩ := h b (List.mem_cons_self ..)
    have hrest := ih fun x hx => h x (List.mem_cons_of_mem b hx)
    have hbits : inputBits ct (b :: l) = c ++ inputBits ct l := by simp [inputBits, hc]
    rw [hbits, List.length_append, List.length_cons]
    omega

/-- Settles O27: the turn of PACK is the run over the header and then the body, which its bound of steps covers. -/
theorem packResult : Obligations.PackResult := by
  rintro s l rest ⟨hidle, hpace⟩ ⟨hready, hfails⟩ hft hct hq hcode
  refine ⟨_, wrote_rewritten s.sink 0x00#8 _ _, ?_⟩
  have hready' : Status.packReady s.status.start = true := by simp [Status.packReady, Status.start, hft, hct]
  have hexec : exec .pack s = turn (startPack (startOp s .unit)) := issue_run hidle hready'
  have hheader := run_packHeader (s := startPack (startOp s .unit)) rfl rfl hready hfails
  have hsome : ∀ b ∈ l, (tableGet s.ct b).isSome := fun b hb => by
    obtain ⟨c, hc, -⟩ := hcode b hb
    simp [hc]
  obtain ⟨n, hn, hbody⟩ := run_packBody (s := startBody { startPack (startOp s .unit) with
      nent := BitVec.ofNat 16 (keyCount s.ft), sink := appendAll s.sink.rebase (0x00#8 :: headerTail s.ft) })
    rfl rfl rfl rfl (by simpa using hready) (by simpa using hfails) hsome hq
  have hpaced : (startPack (startOp s .unit)).pace = none := hpace
  have hbound : 1 + (headerTail s.ft).length + n ≤ stepBound (startPack (startOp s .unit)) := by
    have hkeys := keyCount_le s.ft
    have hbits := length_inputBits_le hcode
    simp only [startBody_ct, startPack_ct, startOp_ct] at hn
    simp only [length_headerTail, stepBound, startPack_inq, startOp_inq, hq, byteTokens, List.length_append,
      List.length_map, List.length_cons]
    omega
  refine hexec.trans ((turn_of_run hpaced (hheader.trans hbody) rfl hbound).trans ?_)
  simp [endOk, startBody, startPack, startOp, Status.start, Status.clearHdr, Status.succeed, goodStatus, hft, hct,
    ← appendAll_append]

/-! ### A code bit appended -/

/-- Settles O49: the bit's place is `placeBit`'s, and a good sink takes the byte it completes. -/
theorem codeBitPack : Obligations.CodeBitPack := by
  intro s v bits hb hw
  have hexec : exec (.codeBit v) s = stepOrStay (packBit v bits s) { s with work := .packBits (v :: bits) } := by
    simp only [exec, execCodeBit, hb, hw]
  refine ⟨placeBit s.acc s.nb v, fun j hj => getLsbD_placeBit s.acc s.nb v j hj, ?_, ?_⟩
  · intro hnb
    have hbit : packBit v bits s =
        .next { s with acc := placeBit s.acc s.nb v, nb := s.nb + 1, work := packWork bits } := if_neg hnb
    rw [hexec, hbit]
    rfl
  · rintro hnb ⟨hready, hfails⟩
    have hbit : packBit v bits s = .next { s with
        acc := 0, nb := 0, work := packWork bits, sink := s.sink.store s.sink.olen (placeBit s.acc s.nb v) } :=
      (if_pos hnb).trans (writeStep_good hready hfails ..)
    rw [hexec, hbit]
    rfl

/-! ### Frames -/

/-- What neither PACK nor UNPACK writes. -/
def outsideBits (s : State) :=
  ((s.ft, s.node, s.nleaf, s.live, s.root, s.ct, s.hpos, s.hsym, s.hacc, s.path, s.stk),
    s.par, s.host, s.pace, s.rdata, s.status.ftV, s.status.treeV, s.status.ctV, s.inReset)

/-- What PACK does not write: the cursor and the held byte besides. -/
def outsidePack (s : State) := (outsideBits s, s.cur, s.hold)

/-- What UNPACK does not write: PACK's registers and `HDR_V` besides. -/
def outsideUnpack (s : State) := (outsideBits s, s.pad, s.nent, s.acc, s.nb, s.status.hdrV)

/-- PACK stands at a place of its own, or has ended. -/
def InPack (w : Work) : Prop := phaseOf w = .packHdr ∨ phaseOf w = .packBody ∨ w = .rest

theorem inPack_packWork (bits : List Bool) : InPack (packWork bits) := .inr (.inl (phaseOf_packWork bits))

/-- From `s`, a PACK has come to `t`. -/
structure PackFrame (s t : State) : Prop where
  outside : outsidePack t = outsidePack s
  place : InPack t.work

theorem PackFrame.writeStep {s t good bad u : State} {off : Nat} {b : Byte}
    (hu : writeStep t off b good bad = .next u) (hgood : PackFrame s good) (hbad : outsidePack bad = outsidePack s) :
    PackFrame s u := by
  rcases writeStep_cases t off b good bad with ⟨_, e⟩ | ⟨_, _, e⟩ | ⟨_, e⟩ <;> cases e.symm.trans hu
  · exact ⟨hbad, .inr (.inr rfl)⟩
  · exact ⟨hgood.outside, hgood.place⟩

theorem PackFrame.packHdrTick {s t u : State} {bytes : List Byte} (h : PackFrame s t)
    (hu : packHdrTick bytes t = .next u) : PackFrame s u := by
  have body : PackFrame s (startBody t) := ⟨h.outside, .inr (.inl rfl)⟩
  unfold Machine.packHdrTick at hu
  split at hu
  · cases hu; exact body
  · exact .writeStep hu body h.outside
  · exact .writeStep hu ⟨h.outside, .inl rfl⟩ h.outside

theorem PackFrame.packToken {s t : State} (h : PackFrame s t) (tok : Token) : PackFrame s (packToken tok t) := by
  cases tok with
  | byte b =>
    simp only [Machine.packToken]
    split
    · exact ⟨h.outside, .inr (.inr rfl)⟩
    · exact ⟨h.outside, inPack_packWork _⟩
  | eos =>
    refine ⟨h.outside, .inr (.inl ?_)⟩
    simp only [Machine.packToken]
    split <;> rfl

theorem PackFrame.packBit {s t u : State} {v : Bool} {bits : List Bool} (h : PackFrame s t)
    (hu : packBit v bits t = .next u) : PackFrame s u := by
  simp only [Machine.packBit] at hu
  split at hu
  · exact .writeStep hu ⟨h.outside, inPack_packWork bits⟩ h.outside
  · cases hu
    exact ⟨h.outside, inPack_packWork bits⟩

theorem PackFrame.tick {s t u : State} (h : PackFrame s t) (hu : tick t = .next u) : PackFrame s u := by
  have place := h.place
  unfold Machine.tick at hu
  split at hu
  · cases hw : t.work <;> simp only [hw, InPack, phaseOf, reduceCtorEq, or_self] at place hu
    case packStart => exact .writeStep hu ⟨h.outside, .inl rfl⟩ h.outside
    case packHdr => exact h.packHdrTick hu
    case packPull =>
      unfold packPullTick at hu
      split at hu <;> cases hu
      next tok rest _ => exact PackFrame.packToken (t := { t with inq := rest }) ⟨h.outside, h.place⟩ tok
    case packBits =>
      unfold packBitsTick at hu
      split at hu
      · cases hu; exact ⟨h.outside, .inr (.inl rfl)⟩
      · exact h.packBit hu
    case packTail => exact .writeStep hu ⟨h.outside, .inr (.inl rfl)⟩ h.outside
    case packRewrite => exact .writeStep hu ⟨h.outside, .inr (.inr rfl)⟩ h.outside
  · cases hu

theorem execPack_frame {s t : State} (h : exec .pack s = .next t) : outsidePack t = outsidePack s := by
  rcases issue_next h with rfl | rfl | ht
  · rfl
  · rfl
  · have start : PackFrame s (startPack (startOp s .unit)) := ⟨rfl, .inl rfl⟩
    exact (turn_keeps (fun _ _ hf => hf.tick) start ht).outside

theorem outsideUnpack_unpackEnd (s : State) : outsideUnpack (unpackEnd s) = outsideUnpack s := by
  simp only [unpackEnd]
  split <;> rfl

theorem outsideUnpack_walkEnd (next : Option Byte) (s : State) :
    outsideUnpack (walkEnd next s) = outsideUnpack s := by
  cases next with
  | none => exact outsideUnpack_unpackEnd _
  | some b => rfl

theorem outsideUnpack_walkFrom (bits : List Bool) (next : Option Byte) (s : State) :
    outsideUnpack (walkFrom bits next s) = outsideUnpack s := by
  unfold walkFrom
  split
  · exact outsideUnpack_walkEnd next s
  · rfl

theorem outsideUnpack_unpackToken (tok : Token) (s : State) :
    outsideUnpack (unpackToken tok s) = outsideUnpack s := by
  unfold unpackToken
  split
  · rfl
  · exact outsideUnpack_walkFrom ..
  · exact outsideUnpack_unpackEnd s
  · exact outsideUnpack_walkFrom ..

theorem outsideUnpack_walkBit {v : Bool} {bits : List Bool} {next : Option Byte} {s t : State}
    (ht : walkBit v bits next s = .next t) : outsideUnpack t = outsideUnpack s := by
  simp only [walkBit] at ht
  split at ht
  · cases ht
  · cases ht; rfl
  · split at ht
    · cases ht
    · cases ht; exact outsideUnpack_walkFrom ..
    · split at ht <;> cases ht
      · rfl
      · exact outsideUnpack_walkFrom ..

theorem outsideUnpack_tick {s t : State} (h : InUnpack s) (ht : tick s = .next t) :
    outsideUnpack t = outsideUnpack s := by
  unfold tick at ht
  split at ht
  · rcases h with hp | hw
    · cases hw : s.work <;> simp only [hw, phaseOf, reduceCtorEq] at hp ht
      case pull =>
        unfold pullTick at ht
        split at ht <;> cases ht
        exact outsideUnpack_unpackToken ..
      case walk =>
        unfold walkTick at ht
        split at ht
        · cases ht; exact outsideUnpack_walkEnd ..
        · exact outsideUnpack_walkBit ht
    · rw [hw] at ht
      cases ht
  · cases ht

theorem execUnpack_frame {s t : State} (h : exec .unpack s = .next t) : outsideUnpack t = outsideUnpack s := by
  have keeps : ∀ u v : State, InUnpack u ∧ outsideUnpack u = outsideUnpack s → tick u = .next v →
      InUnpack v ∧ outsideUnpack v = outsideUnpack s :=
    fun _ _ ⟨hu, e⟩ hv => ⟨inUnpack_tick hu hv, (outsideUnpack_tick hu hv).trans e⟩
  rcases issue_next h with rfl | rfl | ht
  · rfl
  · rfl
  · have start : InUnpack (startUnpack (startOp s .unit)) := .inl rfl
    exact (turn_keeps keeps ⟨start, rfl⟩ ht).2

/-- Settles O52: every step of the two units keeps what stands outside them. -/
theorem packUnpackFrame : Obligations.PackUnpackFrame := by
  rintro s t i (rfl | rfl) h
  · have outside := execPack_frame h
    simp only [outsidePack, outsideBits, Prod.mk.injEq] at outside
    obtain ⟨⟨tables, channels⟩, walk⟩ := outside
    exact ⟨tables, channels, fun _ => walk, fun e => by cases e⟩
  · have outside := execUnpack_frame h
    simp only [outsideUnpack, outsideBits, Prod.mk.injEq] at outside
    obtain ⟨⟨tables, channels⟩, registers⟩ := outside
    exact ⟨tables, channels, fun e => (by cases e), fun _ => registers⟩

end Sys2Proof.Machine
end

section
/-! HDR: the state it ends in and the header PACK wrote (spec/44_bit_unpacker.md R130 to R135), and the header's fields
as instructions (R131 to R133; spec/20_memory.md R48, R50). -/

namespace Sys2Proof.Machine

/-! ### The result of HDR -/

/-- HDR on a whole header (44 R130 to R133). -/
theorem execHdr_result {s : State} {p lo hi : Byte} {bytes : List Byte} {rest : List Token} (h : Ready s)
    (hpad : p.toNat ≤ 7) (hl : bytes.length = 9 * (fromLE16 lo hi).toNat)
    (hq : s.inq = byteTokens (p :: lo :: hi :: bytes) ++ rest) :
    ∃ (sym : Byte) (acc : Count), exec .hdr s = .next { s with
      status := goodStatus true false false true, pad := p.setWidth 3, nent := fromLE16 lo hi,
      ft := readEntries (fromLE16 lo hi).toNat bytes emptyTable,
      hpos := BitVec.ofNat 20 (headerLength (fromLE16 lo hi)), hsym := sym, hacc := acc, inq := rest,
      sink := s.sink.rebase, op := .unit, work := .rest } := by
  obtain ⟨hidle, hpace⟩ := h
  have hexec : exec .hdr s = turn (startHdr (startOp s .unit)) := issue_run hidle rfl
  obtain ⟨sym, acc, hrun⟩ := run_hdr (s := startHdr (startOp s .unit)) rfl rfl rfl hpad hl hq
  have hpaced : (startHdr (startOp s .unit)).pace = none := hpace
  have hbound : headerLength (fromLE16 lo hi) ≤ stepBound (startHdr (startOp s .unit)) := by
    simp only [headerLength, stepBound, startHdr_inq, startOp_inq, hq, byteTokens, List.length_append, List.length_map,
      List.length_cons, hl]
    omega
  refine ⟨sym, acc, hexec.trans ((turn_of_run hpaced hrun rfl hbound).trans ?_)⟩
  simp [afterHdr, endOk, startHdr, startOp, Status.start, Status.clearAll, Status.succeed, goodStatus]

/-- Settles O30: the turn of HDR is the run over the header, which its bound of steps covers. -/
theorem hdrResult : Obligations.HdrResult := fun _ _ _ _ _ _ => execHdr_result

/-! ### A header PACK wrote -/

/-- Entries read as PACK wrote them are stored in order (44 R135). -/
theorem readEntries_entryBytes (es : List (Byte × Count)) (t : Table Count) :
    readEntries es.length (es.flatMap entryBytes) t = es.foldl (fun t e => tableSet t e.1 e.2) t := by
  induction es generalizing t with
  | nil => rfl
  | cons e es ih => simp [readEntries, entryBytes, le64, fromLE64_le64, ih]

/-- Entries of a table stored over another one show at their keys (44 R133, R135). -/
theorem tableGet_storeEntries {ft : Table Count} {es : List (Byte × Count)} (h : ∀ e ∈ es, tableGet ft e.1 = some e.2)
    (t : Table Count) (b : Byte) : tableGet (es.foldl (fun t e => tableSet t e.1 e.2) t) b =
      if b ∈ es.map Prod.fst then tableGet ft b else tableGet t b := by
  induction es generalizing t with
  | nil => simp
  | cons e es ih =>
    rw [List.foldl_cons, ih (fun e' he' => h e' (List.mem_cons_of_mem e he')), tableGet_tableSet]
    by_cases hb : e.1 = b
    · simp [← hb, h e (List.mem_cons_self ..)]
    · simp [hb, Ne.symm hb]

/-- All the entries of a table, stored over no entry, are the table (44 R135). -/
theorem storeEntries_entriesOf (ft : Table Count) :
    (entriesOf ft).foldl (fun t e => tableSet t e.1 e.2) emptyTable = ft := by
  refine table_ext fun b => ?_
  rw [tableGet_storeEntries (fun e he => mem_entriesOf.1 he), tableGet_emptyTable]
  split
  · rfl
  · next hb => simpa [mem_keys] using Eq.symm (not_not.1 (mt mem_keys.2 hb))

theorem length_flatMap_entryBytes (es : List (Byte × Count)) : (es.flatMap entryBytes).length = 9 * es.length := by
  simp [List.length_flatMap, length_entryBytes, Nat.mul_comm]

/-- The entry count PACK writes is the number of keys, at most 256 (43 R115). -/
theorem toNat_keyCount (ft : Table Count) : (BitVec.ofNat 16 (keyCount ft)).toNat = keyCount ft := by
  have := keyCount_le ft
  rw [BitVec.toNat_ofNat, Nat.mod_eq_of_lt (by omega)]

/-- The entry count's bytes, as PACK writes them, are read as that count (43 R115; 44 R132). -/
theorem fromLE16_keyCount (ft : Table Count) :
    fromLE16 ((BitVec.ofNat 16 (keyCount ft)).extractLsb' 0 8) ((BitVec.ofNat 16 (keyCount ft)).extractLsb' 8 8) =
      BitVec.ofNat 16 (keyCount ft) := fromLE16_le16 _

/-- The entries PACK writes are as many as the entry count before them says (43 R116). -/
theorem length_entriesBytes (ft : Table Count) :
    ((entriesOf ft).flatMap entryBytes).length = 9 * (BitVec.ofNat 16 (keyCount ft)).toNat := by
  rw [length_flatMap_entryBytes, toNat_keyCount, keyCount]

/-- The bytes PACK writes for a table are read as that table (44 R135). -/
theorem readEntries_entriesOf (ft : Table Count) :
    readEntries (keyCount ft) ((entriesOf ft).flatMap entryBytes) emptyTable = ft :=
  (readEntries_entryBytes _ _).trans (storeEntries_entriesOf ft)

/-- Settles O33: the bytes behind PACK's entry count are read as the entries they were written from. -/
theorem headerRoundTrip : Obligations.HeaderRoundTrip := by
  intro s ft p rest hs hpad hq
  obtain ⟨sym, acc, hexec⟩ :=
    execHdr_result (bytes := (entriesOf ft).flatMap entryBytes) hs hpad
      (by rw [fromLE16_keyCount, length_entriesBytes]) hq
  rw [fromLE16_keyCount, toNat_keyCount, readEntries_entriesOf] at hexec
  have hpadding : (p.setWidth 3).toNat = p.toNat := by
    rw [BitVec.toNat_setWidth]
    omega
  exact ⟨_, hexec, rfl, toNat_keyCount ft, hpadding, rfl, rfl⟩

/-! ### The bytes of a field -/

/-- The places at which a header byte completes no field: HDR goes on to the next byte (44 R130). -/
def midField : HeaderPlace → Prop
  | .countLo | .symbol => True
  | .count j => j ≠ 7
  | .padding | .countHi => False

/-- HDR's step on a byte reads no further token. -/
theorem hdrByte_inq (lo b : Byte) (s : State) (q : List Token) :
    hdrByte lo b { s with inq := q } = { hdrByte lo b s with inq := q } := by
  have checkEnd : ∀ u : State, hdrCheckEnd { u with inq := q } = { hdrCheckEnd u with inq := q } := by
    intro u
    simp only [hdrCheckEnd, afterHdr]
    split
    · cases u.op <;> rfl
    · rfl
  simp only [hdrByte]
  cases headerPlace s.hpos.toNat with
  | padding => simp only [hdrPadding]; cases decodePadding b <;> rfl
  | countLo | symbol => rfl
  | countHi => exact checkEnd { s with hpos := s.hpos + 1, nent := fromLE16 lo b }
  | count j =>
    simp only [hdrCount]
    split
    · exact checkEnd { s with hpos := s.hpos + 1, hacc := addCountByte s.hacc b j,
                              ft := tableSet s.ft s.hsym (addCountByte s.hacc b j) }
    · rfl

/-- A byte that completes no field leaves HDR running, one position further. -/
theorem hdrByte_midField {s : State} {lo b : Byte} (hw : s.work = .hdr lo) (h : midField (headerPlace s.hpos.toNat)) :
    (hdrByte lo b s).status = s.status ∧ (∃ lo', (hdrByte lo b s).work = .hdr lo') ∧
      (hdrByte lo b s).hpos = s.hpos + 1 := by
  cases hp : headerPlace s.hpos.toNat with
  | padding | countHi => rw [hp] at h; exact h.elim
  | countLo => simp [hdrByte, hp]
  | symbol => simp [hdrByte_symbol hp, hw]
  | count j =>
    rw [hp] at h
    simp [hdrByte_count hp h, hw]

theorem feedHeader_cons {s : State} {lo : Byte} (hb : s.status.busy = true) (hw : s.work = .hdr lo) (b : Byte)
    (bs : List Byte) : feedHeader (b :: bs) s = feedHeader bs (hdrByte lo b s) := by
  rw [feedHeader, hb, hw]

/-- The steps of HDR over some bytes of which only the last may complete a field are `feedHeader` of them. -/
theorem drive_feedHeader {bs : List Byte} {s : State} {lo : Byte} {rest : List Token} (hb : s.status.busy = true)
    (hw : s.work = .hdr lo) (hq : s.inq = byteTokens bs ++ rest) (hlt : s.hpos.toNat + bs.length < 2 ^ 20)
    (hmid : ∀ k, k + 1 < bs.length → midField (headerPlace (s.hpos.toNat + k))) :
    drive bs.length s = .next (feedHeader bs { s with inq := rest }) := by
  induction bs generalizing s lo with
  | nil =>
    obtain ⟨⟩ := s
    simp only [byteTokens, List.map_nil, List.nil_append] at hq
    subst hq
    rfl
  | cons b bs ih =>
    have hfeed : feedHeader (b :: bs) { s with inq := rest } = feedHeader bs { hdrByte lo b s with inq := rest } := by
      rw [← hdrByte_inq]
      exact feedHeader_cons (s := { s with inq := rest }) hb hw b bs
    rw [List.length_cons, drive_succ (tick_hdr hb hw (rest := byteTokens bs ++ rest) hq), hfeed]
    rcases bs with _ | ⟨c, bs⟩
    · rw [hdrByte_inq]
      rfl
    · obtain ⟨hstatus, ⟨lo', hwork⟩, hpos⟩ := hdrByte_midField (b := b) hw (hmid 0 (by simp))
      simp only [List.length_cons] at hlt hmid
      have hnext : (hdrByte lo b s).hpos.toNat = s.hpos.toNat + 1 := by rw [hpos, toNat_hpos_succ (by omega)]
      rw [hdrByte_inq]
      refine ih (s := { hdrByte lo b s with inq := byteTokens (c :: bs) ++ rest }) (lo := lo') (hstatus ▸ hb) hwork rfl
        ?_ fun k hk => ?_
      · simp only [hnext, List.length_cons]
        omega
      · simp only [hnext, List.length_cons] at hk ⊢
        rw [Nat.add_right_comm, Nat.add_assoc]
        exact hmid (k + 1) (by omega)

/-! ### The fields as instructions -/

theorem hdrAt_iff {place : HeaderPlace} {s : State} :
    hdrAt place s = true ↔ s.status.busy = true ∧ (∃ lo, s.work = .hdr lo) ∧ headerPlace s.hpos.toNat = place := by
  cases hw : s.work <;> simp [hdrAt, hw]

theorem eq_of_headerPlace_symbol {pos : Nat} (h : headerPlace pos = .symbol) : ∃ i, pos = 3 + 9 * i := by
  match pos, h with
  | n + 3, h =>
    have hmod : n % 9 = 0 := by
      cases hn : n % 9 with
      | zero => rfl
      | succ j => simp [headerPlace, hn] at h
    exact ⟨n / 9, by omega⟩

/-- The place at which HDR takes a field of the header (44 R130). -/
def fieldPlace : Space → HeaderPlace
  | .entryCount => .countLo
  | .entry => .symbol
  | .command | .padding | .body | .codeBit => .padding

/-- A field of the container's header. -/
def IsField (i : Instr) : Prop := i.space = .padding ∨ i.space = .entryCount ∨ i.space = .entry

theorem exec_field {i : Instr} {s : State} (hi : IsField i) (h : hdrAt (fieldPlace i.space) s = true) :
    exec i s = .next (feedHeader (encode i) s) := by
  cases i with
  | paddingCount _ | entryCount _ | entry _ _ => exact if_pos h
  | clr | freq | build | assign | pack | hdr | unpack | enc | dec | bodyByte _ | codeBit _ =>
    simp [IsField, Instr.space] at hi

/-- Of a field's bytes, taken at the field's place, only the last completes it. -/
theorem midField_of_field {i : Instr} {pos : Nat} (hi : IsField i) (h : headerPlace pos = fieldPlace i.space) (k : Nat)
    (hk : k + 1 < (encode i).length) : midField (headerPlace (pos + k)) := by
  cases i with
  | paddingCount p => simp [encode] at hk
  | entryCount n =>
    obtain rfl : k = 0 := by simpa [encode, le16] using hk
    rw [Nat.add_zero, h]
    trivial
  | entry sym count =>
    obtain ⟨e, rfl⟩ := eq_of_headerPlace_symbol h
    have hk9 : k + 1 < 9 := hk
    rcases k with _ | j
    · simp [midField]
    · rw [← Nat.add_assoc, Nat.add_right_comm, headerPlace_count e j (by omega)]
      show j ≠ 7
      omega
  | clr | freq | build | assign | pack | hdr | unpack | enc | dec | bodyByte _ | codeBit _ =>
    simp [IsField, Instr.space] at hi

/-- HDR's steps over the bytes of a field are the field's meaning (20 R48). -/
theorem drive_field {i : Instr} {s : State} {rest : List Token} (hi : IsField i)
    (hat : hdrAt (fieldPlace i.space) s = true) (hq : s.inq = byteTokens (encode i) ++ rest)
    (hlt : s.hpos.toNat + (encode i).length < 2 ^ 20) :
    drive (encode i).length s = exec i { s with inq := rest } := by
  obtain ⟨hb, ⟨lo, hw⟩, hp⟩ := hdrAt_iff.1 hat
  rw [drive_feedHeader hb hw hq hlt fun k hk => midField_of_field hi hp k hk]
  refine (exec_field hi ?_).symm
  exact hat

/-- Settles O7: at a pace of the field's length the machine's step is HDR's steps over its bytes. -/
theorem stepRunsHeaderField : Obligations.StepRunsHeaderField := by
  intro s i rest _ hh hp hq hlt hplace
  have hlen : ∃ n, n ≤ 8 ∧ (encode i).length = n + 1 := by
    cases i with
    | clr | freq | build | assign | pack | hdr | unpack | enc | dec | paddingCount _ | bodyByte _ | codeBit _ =>
      exact ⟨0, by omega, rfl⟩
    | entryCount n => exact ⟨1, by omega, rfl⟩
    | entry sym count => exact ⟨8, by omega, rfl⟩
  obtain ⟨n, hn, hlen⟩ := hlen
  have hi : IsField i := by
    rcases hplace with ⟨e, -⟩ | ⟨e, -⟩ | ⟨e, -⟩ <;> simp [IsField, e]
  have hat : hdrAt (fieldPlace i.space) s = true := by
    rcases hplace with ⟨e, h⟩ | ⟨e, h⟩ | ⟨e, h⟩ <;> rw [e] <;> exact h
  rw [step_of_pace hh (hlen ▸ hp), ← hlen]
  exact drive_field hi hat hq (by omega)

/-- Settles O44: a padding byte up to 7 decodes, one above does not. -/
theorem paddingCountResult : Obligations.PaddingCountResult := by
  intro s p lo hb hw hp
  have hplace : headerPlace s.hpos.toNat = .padding := by rw [hp]; rfl
  have hexec : exec (.paddingCount p) s = .next (hdrByte lo p s) :=
    (exec_field (i := .paddingCount p) (.inl rfl) (hdrAt_iff.2 ⟨hb, ⟨lo, hw⟩, hplace⟩)).trans
      (congrArg _ (feedHeader_cons hb hw p []))
  refine ⟨fun h => ?_, fun h => ?_⟩
  · rw [hexec]
    simp [hdrByte, hp, headerPlace, hdrPadding, decodePadding_ok h]
  · rw [hexec]
    simp [hdrByte, hp, headerPlace, hdrPadding, decodePadding_bad h]

/-- The end of a header of a unit HDR, and of DEC's (44 R130; 45 R163). -/
theorem hdrCheckEnd_unit {s : State} (h : s.hpos.toNat = headerLength s.nent) (ho : s.op = .unit) :
    hdrCheckEnd s = endOk { s with status := { s.status with ftV := true, hdrV := true } } := by
  simp only [hdrCheckEnd_end h, afterHdr, ho]

theorem hdrCheckEnd_dec {s : State} (h : s.hpos.toNat = headerLength s.nent) (ho : s.op = .dec) :
    hdrCheckEnd s = startBuild { s with status := { s.status with ftV := true, hdrV := true } } := by
  simp only [hdrCheckEnd_end h, afterHdr, ho]

/-- The entry count, as an instruction: HDR's check for its end, with the count in `NENT` (44 R132). -/
theorem execEntryCount_eq {s : State} {lo : Byte} (n : BitVec 16) (hb : s.status.busy = true) (hw : s.work = .hdr lo)
    (hp : s.hpos = 1) : exec (.entryCount n) s =
      .next (hdrCheckEnd { s with nent := n, hpos := 3, work := .hdr (n.extractLsb' 0 8) }) := by
  have hplace : headerPlace s.hpos.toNat = .countLo := by rw [hp]; rfl
  have hlow : hdrByte lo (n.extractLsb' 0 8) s = { s with hpos := 2, work := .hdr (n.extractLsb' 0 8) } := by
    simp [hdrByte, hp, headerPlace]
  have hhigh : hdrByte (n.extractLsb' 0 8) (n.extractLsb' 8 8) { s with hpos := 2, work := .hdr (n.extractLsb' 0 8) } =
      hdrCheckEnd { s with nent := n, hpos := 3, work := .hdr (n.extractLsb' 0 8) } := by
    simp [hdrByte, headerPlace, fromLE16_le16]
  have hfeed : feedHeader (le16 n) s =
      hdrCheckEnd { s with nent := n, hpos := 3, work := .hdr (n.extractLsb' 0 8) } := by
    rw [le16, feedHeader_cons hb hw, hlow, ← hhigh]
    exact feedHeader_cons (by exact hb) rfl _ []
  exact (exec_field (i := .entryCount n) (.inr (.inl rfl)) (hdrAt_iff.2 ⟨hb, ⟨lo, hw⟩, hplace⟩)).trans
    (congrArg _ hfeed)

/-- Settles O45: a header of 0 entries ends at position 3, any other later. -/
theorem entryCountResult : Obligations.EntryCountResult := by
  intro s n lo hb hw hp
  rw [execEntryCount_eq n hb hw hp]
  refine ⟨fun hn => congrArg _ (hdrCheckEnd_more ?_), fun hn ho => congrArg _ ?_, fun hn ho => congrArg _ ?_⟩
  · have : n.toNat ≠ 0 := fun e => hn (BitVec.eq_of_toNat_eq e)
    simp [headerLength]
    omega
  · subst hn
    exact hdrCheckEnd_unit rfl ho
  · subst hn
    exact hdrCheckEnd_dec rfl ho

/-- An entry, as an instruction: HDR's check for its end, with the count stored (44 R133). -/
theorem execEntry_eq {s : State} {lo : Byte} {i : Nat} (sym : Byte) (count : Count) (hb : s.status.busy = true)
    (hw : s.work = .hdr lo) (hp : s.hpos.toNat = 3 + 9 * i) (hi : i < 65535) : exec (.entry sym count) s =
      .next (hdrCheckEnd { s with
        hpos := BitVec.ofNat 20 (3 + 9 * (i + 1)), hsym := sym, hacc := count, ft := tableSet s.ft sym count }) := by
  have hat : hdrAt .symbol s = true := hdrAt_iff.2 ⟨hb, ⟨lo, hw⟩, by rw [hp, headerPlace_symbol]⟩
  have hrun := run_entry (s := { s with inq := byteTokens (encode (.entry sym count)) ++ s.inq }) hb hw hp hi rfl
  rw [fromLE64_le64] at hrun
  have hdrive := drive_of_run hrun 0
  have hlen : s.hpos.toNat + (encode (.entry sym count)).length < 2 ^ 20 := by
    rw [hp]
    simp only [encode, le64, List.length_cons, List.length_nil]
    omega
  exact (drive_field (i := .entry sym count) (s := { s with inq := byteTokens (encode (.entry sym count)) ++ s.inq })
    (.inr (.inr rfl)) hat rfl hlen).symm.trans hdrive

/-- Settles O46: the header ends with the entry that brings it to its length, and with none before. -/
theorem entryResult : Obligations.EntryResult := by
  rintro s sym lo count i hb hw hp hi t rfl
  have hnent := s.nent.isLt
  have hpos : (BitVec.ofNat 20 (3 + 9 * (i + 1))).toNat = 3 + 9 * (i + 1) := toNat_ofNat20 (by omega)
  rw [execEntry_eq sym count hb hw hp (by omega)]
  refine ⟨fun h => congrArg _ (hdrCheckEnd_more ?_), fun h ho => congrArg _ (hdrCheckEnd_unit ?_ ho),
    fun h ho => congrArg _ (hdrCheckEnd_dec ?_ ho)⟩
  all_goals
    simp only [hpos, headerLength]
    omega

end Sys2Proof.Machine
end

section
/-! UNPACK: the state it ends in (spec/44_bit_unpacker.md R137 to R151), a body byte and a code bit as instructions (R138
to R143), and that an internal root shuts out `INVALID_BIT` (R148). -/

namespace Sys2Proof.Machine

/-! ### One bit examined -/

/-- What examining a bit comes to, whatever bits follow it (44 R140 to R142). -/
inductive BitMove where
  /-- the sink is not ready for the symbol -/
  | wait
  /-- a node that holds no value -/
  | fault (f : Fault)
  /-- a leaf has no child -/
  | offTree
  /-- the sink reports the symbol's write failed, the cursor at the leaf -/
  | writeFails (cur : Idx) (k : Sink)
  /-- the walk goes on -/
  | goOn (cur : Idx) (k : Sink)

/-- The move of a bit from the cursor. -/
def bitMove (v : Bool) (s : State) : BitMove :=
  match s.node[s.cur.toNat]? with
  | none => .fault (.nodeHoldsNoValue s.cur.toNat)
  | some (.leaf _ _) => .offTree
  | some (.internal _ left right) =>
    let child := if v then right else left
    match s.node[child.toNat]? with
    | none => .fault (.nodeHoldsNoValue child.toNat)
    | some (.internal _ _ _) => .goOn child s.sink
    | some (.leaf sym _) =>
      match s.sink.put s.sink.olen sym with
      | .wait => .wait
      | .failed k => .writeFails child k
      | .done k => .goOn s.root k

/-- The sequencer's answer to a move. -/
def BitMove.tick (m : BitMove) (rest : List Bool) (next : Option Byte) (s : State) : Tick :=
  match m with
  | .wait => .wait
  | .fault f => .fault f
  | .offTree => .next (raiseCause .invalidBit s)
  | .writeFails c k => .next (raiseCause .sinkErr { s with cur := c, sink := k })
  | .goOn c k => .next (walkFrom rest next { s with cur := c, sink := k })

theorem walkBit_eq (v : Bool) (rest : List Bool) (next : Option Byte) (s : State) :
    walkBit v rest next s = (bitMove v s).tick rest next s := by
  unfold walkBit bitMove
  rcases s.node[s.cur.toNat]? with _ | _ | ⟨w, l, r⟩
  · rfl
  · rfl
  · dsimp only
    rcases s.node[(if v then r else l).toNat]? with _ | ⟨sym, _⟩ | _
    · rfl
    · dsimp only
      cases s.sink.put s.sink.olen sym <;> rfl
    · rfl

/-- Between internal nodes and the root a bit never leaves the tree, and stands at an internal node again (44 R148). -/
theorem bitMove_of_isInternal {v : Bool} {s : State} (hroot : IsInternal s.node s.root.toNat)
    (hcur : IsInternal s.node s.cur.toNat) :
    bitMove v s ≠ .offTree ∧ ∀ c k, bitMove v s = .goOn c k → IsInternal s.node c.toNat := by
  obtain ⟨w, l, r, hn⟩ := hcur
  simp only [bitMove, hn]
  split
  · simp
  · next w' l' r' hc =>
    refine ⟨by simp, ?_⟩
    rintro c k ⟨⟩
    exact ⟨w', l', r', hc⟩
  · split
    · simp
    · simp
    · refine ⟨by simp, ?_⟩
      rintro c k ⟨⟩
      exact hroot

/-! ### A code bit -/

theorem with_work {s : State} {w : Work} (h : s.work = w) : { s with work := w } = s := by
  subst h
  rfl

theorem execCodeBit_walk {s : State} {bits : List Bool} {next : Option Byte} (v : Bool) (hb : s.status.busy = true)
    (hw : s.work = .walk bits next) :
    exec (.codeBit v) s = stepOrStay (walkBit v bits next s) { s with work := .walk (v :: bits) next } := by
  simp only [exec, execCodeBit, hb, hw]

theorem execCodeBit_pack {s : State} {bits : List Bool} (v : Bool) (hb : s.status.busy = true)
    (hw : s.work = .packBits bits) :
    exec (.codeBit v) s = stepOrStay (packBit v bits s) { s with work := .packBits (v :: bits) } := by
  simp only [exec, execCodeBit, hb, hw]

/-- Where a walk goes on from the place it stands at, it is the same state (44 R138). -/
theorem walkFrom_same {s : State} {bits : List Bool} {next : Option Byte} (hw : s.work = .walk bits next)
    (hne : bits ≠ []) : walkFrom bits next s = s := (if_neg hne).trans (with_work hw)

/-- Where a walk goes on to does not turn on the place it stands at. -/
theorem walkFrom_work (bits : List Bool) (next : Option Byte) (s : State) (w : Work) :
    walkFrom bits next { s with work := w } = walkFrom bits next s := by
  simp only [walkFrom]
  split
  · cases next with
    | some b => rfl
    | none => simp only [walkEnd, unpackEnd]; split <;> rfl
  · rfl

/-- The last bit of a byte that is not the last: its successor is held (44 R138). -/
theorem walkFrom_nil_some (s : State) (b : Byte) :
    walkFrom [] (some b) s = { s with hold := some b, work := .pull } := rfl

/-- The last bit of the body (44 R139, R143). -/
theorem walkFrom_nil_none (s : State) : walkFrom [] none s = unpackEnd { s with hold := none } := rfl

/-- Settles O48: the three outcomes of a bit, and where the walk stands after each. -/
theorem codeBitWalk : Obligations.CodeBitWalk := by
  intro s v bits next hb hw
  have hexec : ∀ t, walkBit v bits next s = .next t → exec (.codeBit v) s = .next t := fun t ht => by
    rw [execCodeBit_walk v hb hw, ht]
    rfl
  refine ⟨fun w l r hcur => ⟨?_, ?_⟩, fun sym w hcur => hexec _ (walkBit_off hcur)⟩
  · rintro w' l' r' hchild u rfl
    rw [hexec _ (walkBit_inner hcur hchild)]
    refine ⟨fun hne => congrArg _ (walkFrom_same hw hne), ?_, ?_, ?_⟩
    · rintro b rfl rfl
      rfl
    · rintro rfl rfl hin hstrict
      rw [walkFrom_nil_none, unpackEnd_inside (by exact hin), if_pos (by exact hstrict)]
    · rintro rfl rfl hin hstrict
      rw [walkFrom_nil_none, unpackEnd_inside (by exact hin), if_neg (by simp [hstrict])]
  · rintro sym w' hchild ⟨hready, hfails⟩ u rfl
    rw [hexec _ (walkBit_leaf hcur hchild hready hfails)]
    refine ⟨fun hne => congrArg _ (walkFrom_same hw hne), ?_, ?_⟩
    · rintro b rfl rfl
      rfl
    · rintro rfl rfl
      exact congrArg _ (unpackEnd_atRoot rfl)

/-! ### A body byte -/

theorem execBodyByte_pull {s : State} (b : Byte) (hb : s.status.busy = true) (hw : s.work = .pull) :
    exec (.bodyByte b) s = drive (walkLeft (unpackToken (.byte b) s)) (unpackToken (.byte b) s) := by
  simp only [exec, execBodyByte, hb, hw]

/-- A body byte without a predecessor is held (44 R138). -/
theorem unpackToken_first {s : State} (b : Byte) (hh : s.hold = none) :
    unpackToken (.byte b) s = { s with hold := some b } := by
  simp only [unpackToken, hh]

/-- A body byte with a predecessor sends that one into a walk of all its bits (44 R138). -/
theorem unpackToken_byte {s : State} {x : Byte} (b : Byte) (hh : s.hold = some x) :
    unpackToken (.byte b) s = walkFrom (bitsOf x 8) (some b) s := by
  simp only [unpackToken, hh]

theorem unpackToken_next {s : State} {x : Byte} (b : Byte) (hh : s.hold = some x) :
    unpackToken (.byte b) s = { s with work := .walk (bitsOf x 8) (some b) } :=
  (unpackToken_byte b hh).trans (if_neg (bitsOf_ne_nil x (by omega)))

/-- The end of an empty body (44 R143). -/
theorem unpackToken_eos_empty {s : State} (hh : s.hold = none) : unpackToken .eos s = unpackEnd s := by
  simp only [unpackToken, hh]

/-- The end of a body sends its last byte into a walk of the bits that are no padding (44 R139). -/
theorem unpackToken_eos {s : State} {x : Byte} (hh : s.hold = some x) :
    unpackToken .eos s = walkFrom (bitsOf x (lastBits s.pad)) none s := by
  simp only [unpackToken, hh]

/-- The bits a body byte leaves to be walked: eight if it has a predecessor (44 R138). -/
theorem walkLeft_unpackToken_byte {s : State} (b : Byte) (hw : s.work = .pull) :
    walkLeft (unpackToken (.byte b) s) = if s.hold.isSome then 8 else 0 := by
  cases hh : s.hold with
  | none => simp [unpackToken_first b hh, walkLeft, hw]
  | some x => simp [unpackToken_next b hh, walkLeft]

/-- Settles O47: with a predecessor the byte's steps are the walk of its eight bits. -/
theorem bodyByteResult : Obligations.BodyByteResult := by
  refine ⟨fun s b hb hw hh => ?_, fun s b x t c hgood hb hw hh hat hon => ?_⟩
  · rw [execBodyByte_pull b hb hw, walkLeft_unpackToken_byte b hw, hh, unpackToken_first b hh]
    rfl
  · obtain ⟨cur, u, hu, hend, work, hrun⟩ := run_walk (bits := bitsOf x 8) (next := some b)
      (s := { s with work := .walk (bitsOf x 8) (some b) }) (bitsOf_ne_nil x (by omega)) hb rfl hgood.1 hgood.2 hat hon
    refine ⟨cur, u, hu, hend, ?_⟩
    rw [execBodyByte_pull b hb hw, walkLeft_unpackToken_byte b hw, hh, unpackToken_next b hh]
    rw [length_bitsOf] at hrun
    exact drive_of_run hrun 0

/-! ### The steps over a body byte and a code bit -/

/-- What a bit examined leads to is the same wherever in a walk UNPACK stood. -/
theorem walkBit_work (v : Bool) (bits : List Bool) (next : Option Byte) (s : State) (w : Work) :
    walkBit v bits next { s with work := w } = walkBit v bits next s := by
  have sameMove : bitMove v { s with work := w } = bitMove v s := rfl
  rw [walkBit_eq, walkBit_eq, sameMove]
  cases bitMove v s with
  | wait | fault _ | offTree | writeFails _ _ => rfl
  | goOn c k => exact congrArg Tick.next (walkFrom_work bits next { s with cur := c, sink := k } w)

/-- What a bit appended leads to is the same wherever in a code word PACK stood. -/
theorem packBit_work (v : Bool) (bits : List Bool) (s : State) (w : Work) :
    packBit v bits { s with work := w } = packBit v bits s := by
  simp only [packBit, writeStep]
  split
  · split <;> rfl
  · rfl

/-- One step of the sequencer, put as the step of an item taken off. -/
theorem drive_one (s : State) : drive 1 s = stepOrStay (tick s) s := by
  cases h : tick s <;> simp [drive, h, stepOrStay]

/-- Settles O8: the byte's token and then its predecessor's bits; one step for one bit. -/
theorem stepRunsBody : Obligations.StepRunsBody := by
  refine fun s hh hb => ⟨fun b rest hp hq hw => ?_, fun v bits next hp hw => ?_, fun v bits hp hw => ?_⟩
  · have hexec := execBodyByte_pull (s := { s with inq := rest }) b hb hw
    rw [walkLeft_unpackToken_byte (s := { s with inq := rest }) b hw] at hexec
    rw [step_of_pace hh (n := if s.hold.isSome then 8 else 0) (by rw [hp, Nat.add_comm]),
      drive_succ (tick_pull hb hw hq), hexec]
  · have hstep : step s = stepOrStay (walkBit v bits next s) s := by
      rw [step_of_pace hh hp, drive_one, tick_walk hb hw]
    have hexec := execCodeBit_walk (s := { s with work := .walk bits next }) v hb rfl
    rw [walkBit_work] at hexec
    exact hstep.trans (hexec.trans (congrArg _ (with_work (s := s) hw))).symm
  · have hstep : step s = stepOrStay (packBit v bits s) s := by
      rw [step_of_pace hh hp, drive_one]
      simp only [tick, hb, hw, if_pos, packBitsTick]
    have hexec := execCodeBit_pack (s := { s with work := .packBits bits }) v hb rfl
    rw [packBit_work] at hexec
    exact hstep.trans (hexec.trans (congrArg _ (with_work (s := s) hw))).symm

/-! ### The result of UNPACK -/

theorem unpackEnd_idle (s : State) : (unpackEnd s).status.busy = false := by
  simp only [unpackEnd]
  split <;> rfl

/-- What an operation that only appends leaves behind what the sink held (20 R43). -/
theorem wrote_appended (k : Sink) (out : List Byte) : Wrote k (appendAll k.rebase out) out where
  base := by simp
  olen := by simp
  output := by rw [output_appendAll, output_rebase, List.nil_append]
  ready := by simp
  fails := by simp
  voids := by simp
  frame := fun a ha => by
    rw [memRead_appendAll k.rebase out (by simpa using ha)]
    rfl

/-- UNPACK on a body whose walk stays on the tree: the walk's symbols appended, the cursor where it ends, and the end of
the body (44 R137 to R143). -/
theorem execUnpack_of_walk {s : State} {t : HTree} {l : List Byte} {rest : List Token} (h : Ready s) (hgood : SinkGood s)
    (htv : s.status.treeV = true) (hhv : s.status.hdrV = true) (ht : IsTree s.node s.root.toNat t)
    (hq : s.inq = byteTokens l ++ .eos :: rest) (hon : (walkView t t (examinedBits s.pad l)).2 ≠ .offTree) :
    ∃ cur u, WalkAt s.node s.root cur t u ∧
      (walkView t t (examinedBits s.pad l)).2 = (if u = t then .atRoot else .inside u) ∧
      ∃ work, exec .unpack s = .next (unpackEnd { startUnpack (startOp s .unit) with
        cur := cur, hold := none, inq := rest, work := work,
        sink := appendAll s.sink.rebase (walkView t t (examinedBits s.pad l)).1 }) := by
  obtain ⟨hidle, hpace⟩ := h
  have hready : Status.unpackReady s.status.start = true := by simp [Status.unpackReady, Status.start, htv, hhv]
  have hexec : exec .unpack s = turn (startUnpack (startOp s .unit)) := issue_run hidle hready
  obtain ⟨cur, u, n, hu, hend, hn, work, hrun⟩ := run_body (s := startUnpack (startOp s .unit)) (l := l) (rest := rest)
    rfl rfl hgood.1 hgood.2 (.atRoot ht) hq hon
  have hpaced : (startUnpack (startOp s .unit)).pace = none := hpace
  have hbound : n ≤ stepBound (startUnpack (startOp s .unit)) := by
    simp only [stepBound, startUnpack_inq, startOp_inq, hq, byteTokens, List.length_append, List.length_map,
      List.length_cons]
    omega
  exact ⟨cur, u, hu, hend, work, hexec.trans (turn_of_run hpaced hrun (unpackEnd_idle _) hbound)⟩

/-- Settles O34: a walk that ends at the root leaves the cursor there, and the body's end does not dangle. -/
theorem unpackResult : Obligations.UnpackResult := by
  intro s t l rest hs hgood htv hhv ht hq hroot
  obtain ⟨cur, u, hu, hend, work, hexec⟩ :=
    execUnpack_of_walk hs hgood htv hhv ht hq (by rw [hroot]; simp)
  have hut : u = t := by
    by_contra hne
    simp [hroot, hne] at hend
  have hcur : cur = s.root := hu.cur_eq_root_iff.2 hut
  refine ⟨_, wrote_appended s.sink _, hexec.trans ?_⟩
  rw [unpackEnd_atRoot (by exact hcur), hcur]
  simp [endOk, startUnpack, startOp, Status.start, Status.succeed, goodStatus, htv, hhv]

/-- Settles O35: a walk that ends inside leaves the cursor off the root, and the body's end dangles. -/
theorem unpackDangling : Obligations.UnpackDangling := by
  intro s t v l rest hs hgood htv hhv ht hq hin
  obtain ⟨cur, u, hu, hend, work, hexec⟩ :=
    execUnpack_of_walk hs hgood htv hhv ht hq (by rw [hin]; simp)
  obtain ⟨hut, rfl⟩ : u ≠ t ∧ u = v := by
    rw [hin] at hend
    split at hend
    · cases hend
    · next hne => cases hend; exact ⟨hne, rfl⟩
  have hcur : cur ≠ s.root := fun e => hut (hu.cur_eq_root_iff.1 e)
  have hout : (appendAll s.sink.rebase (walkView t t (examinedBits s.pad l)).1).output =
      (walkView t t (examinedBits s.pad l)).1 := (wrote_appended s.sink _).output
  rw [unpackEnd_inside (by exact hcur)] at hexec
  refine ⟨_, hexec, ?_⟩
  cases hstrict : s.par.strictEnd with
  | true =>
    rw [if_pos (by exact hstrict), if_pos rfl]
    refine ⟨hu.curTree, hcur, rfl, rfl, rfl, rfl, ?_, ?_⟩
    · simpa [Sink.output] using hout
    · simp [Status.fail, failStatus, Status.start, htv, hhv]
  | false =>
    rw [if_neg (by simp [hstrict]), if_neg (by simp)]
    exact ⟨hu.curTree, hcur, rfl, rfl, rfl, rfl, hout, by simp [Status.succeed, goodStatus, Status.start, htv, hhv]⟩

/-- Settles O36: the first byte's first bit is examined on the root, a leaf. -/
theorem unpackOneLeaf : Obligations.UnpackOneLeaf := by
  rintro s sym w b l rest ⟨hidle, hpace⟩ htv hhv hroot hq
  have hready : Status.unpackReady s.status.start = true := by simp [Status.unpackReady, Status.start, htv, hhv]
  have hexec : exec .unpack s = turn (startUnpack (startOp s .unit)) := issue_run hidle hready
  obtain ⟨work, hrun⟩ := run_offTree (s := startUnpack (startOp s .unit)) rfl rfl rfl hroot hq
  have hpaced : (startUnpack (startOp s .unit)).pace = none := hpace
  have hbound : 3 ≤ stepBound (startUnpack (startOp s .unit)) := by
    unfold stepBound
    omega
  refine hexec.trans ((turn_of_run hpaced hrun rfl hbound).trans ?_)
  simp [raiseCause, voidSink, Sink.voidOutput, startUnpack, startOp, Status.start, Status.fail, failStatus, htv, hhv]

/-! ### An internal root -/

/-- An UNPACK on a tree whose root is internal: while it runs, its cursor stands at an internal node (44 R148). -/
structure InsideTree (s : State) : Prop where
  place : InUnpack s
  cause : s.status.cause ≠ .invalidBit
  root : IsInternal s.node s.root.toNat
  cur : s.work = .rest ∨ IsInternal s.node s.cur.toNat

theorem InsideTree.unpackEnd {s : State} (hcause : s.status.cause ≠ .invalidBit)
    (hroot : IsInternal s.node s.root.toNat) : InsideTree (unpackEnd s) := by
  simp only [Machine.unpackEnd]
  split
  · exact ⟨.inr rfl, Cause.noConfusion, hroot, .inl rfl⟩
  · exact ⟨.inr rfl, hcause, hroot, .inl rfl⟩

theorem InsideTree.walkFrom {s : State} (hcause : s.status.cause ≠ .invalidBit)
    (hroot : IsInternal s.node s.root.toNat) (hcur : IsInternal s.node s.cur.toNat) (bits : List Bool)
    (next : Option Byte) : InsideTree (walkFrom bits next s) := by
  unfold Machine.walkFrom
  split
  · cases next with
    | none => exact .unpackEnd hcause hroot
    | some b => exact ⟨.inl rfl, hcause, hroot, .inr hcur⟩
  · exact ⟨.inl rfl, hcause, hroot, .inr hcur⟩

theorem InsideTree.unpackToken {s : State} (hw : s.work = .pull) (hcause : s.status.cause ≠ .invalidBit)
    (hroot : IsInternal s.node s.root.toNat) (hcur : IsInternal s.node s.cur.toNat) (tok : Token) :
    InsideTree (unpackToken tok s) := by
  unfold Machine.unpackToken
  split
  · exact ⟨.inl (congrArg phaseOf hw), hcause, hroot, .inr hcur⟩
  · exact .walkFrom hcause hroot hcur ..
  · exact .unpackEnd hcause hroot
  · exact .walkFrom hcause hroot hcur ..

theorem InsideTree.walkBit {s t : State} {v : Bool} {bits : List Bool} {next : Option Byte}
    (hcause : s.status.cause ≠ .invalidBit) (hroot : IsInternal s.node s.root.toNat)
    (hcur : IsInternal s.node s.cur.toNat) (ht : walkBit v bits next s = .next t) : InsideTree t := by
  obtain ⟨hon, hgo⟩ := bitMove_of_isInternal (v := v) hroot hcur
  rw [walkBit_eq] at ht
  cases hm : bitMove v s with
  | wait | fault _ => rw [hm] at ht; cases ht
  | offTree => exact absurd hm hon
  | writeFails c k =>
    rw [hm] at ht
    cases ht
    exact ⟨.inr rfl, Cause.noConfusion, hroot, .inl rfl⟩
  | goOn c k =>
    rw [hm] at ht
    cases ht
    exact .walkFrom (s := { s with cur := c, sink := k }) hcause hroot (hgo c k hm) bits next

theorem InsideTree.tick {s t : State} (h : InsideTree s) (ht : tick s = .next t) : InsideTree t := by
  obtain ⟨hplace, hcause, hroot, hcur⟩ := h
  unfold Machine.tick at ht
  split at ht
  · cases hw : s.work <;> simp only [hw, InUnpack, phaseOf, reduceCtorEq, or_self] at hplace ht
    case pull =>
      have hcur := hcur.resolve_left (by simp [hw])
      unfold pullTick at ht
      split at ht <;> cases ht
      next tok rest _ => exact .unpackToken (s := { s with inq := rest }) hw hcause hroot hcur tok
    case walk bits next =>
      have hcur := hcur.resolve_left (by simp [hw])
      unfold walkTick at ht
      split at ht
      · cases ht
        exact .walkFrom hcause hroot hcur [] next
      · exact .walkBit hcause hroot hcur ht
  · cases ht

/-- Settles O37: the cursor of a running UNPACK stands at internal nodes only. -/
theorem invalidBitUnreachable : Obligations.InvalidBitUnreachable := by
  intro s t hidle htv hhv hroot ht
  have hready : Status.unpackReady s.status.start = true := by simp [Status.unpackReady, Status.start, htv, hhv]
  have hturn : turn (startUnpack (startOp s .unit)) = .next t := (issue_run hidle hready).symm.trans ht
  have start : InsideTree (startUnpack (startOp s .unit)) := ⟨.inl rfl, Cause.noConfusion, hroot, .inr hroot⟩
  exact (turn_keeps (fun _ _ h => h.tick) start hturn).cause

end Sys2Proof.Machine
end

section
/-! UNPACK does not see the padding bits of the last body byte (spec/30_encoding.md R69; spec/44_bit_unpacker.md R139,
R146): two runs on bodies that differ in them alone go side by side, step for step. -/

namespace Sys2Proof.Machine

/-! ### Bodies alike but for padding -/

/-- Two streams that differ at most in the padding bits of the byte before the end of the body. -/
inductive Alike (pad : BitVec 3) : List Token → List Token → Prop where
  | refl (q : List Token) : Alike pad q q
  | last {x y : Byte} (rest : List Token) (h : bitsOf x (lastBits pad) = bitsOf y (lastBits pad)) :
      Alike pad (.byte x :: .eos :: rest) (.byte y :: .eos :: rest)
  | byte (b : Byte) {q q' : List Token} (h : Alike pad q q') : Alike pad (.byte b :: q) (.byte b :: q')

theorem Alike.body {pad : BitVec 3} (l : List Byte) {x y : Byte} (rest : List Token)
    (h : bitsOf x (lastBits pad) = bitsOf y (lastBits pad)) :
    Alike pad (byteTokens (l ++ [x]) ++ .eos :: rest) (byteTokens (l ++ [y]) ++ .eos :: rest) := by
  induction l with
  | nil => exact .last rest h
  | cons b l ih => exact .byte b ih

/-- Streams alike end together, come to the body's end together, or go on with a byte each. -/
theorem Alike.first {pad : BitVec 3} {q q' : List Token} (h : Alike pad q q') :
    (q = [] ∧ q' = []) ∨ (∃ r, q = .eos :: r ∧ q' = .eos :: r) ∨
      ∃ x y r r', q = .byte x :: r ∧ q' = .byte y :: r' := by
  cases h with
  | refl q =>
    rcases q with _ | ⟨_ | _, r⟩
    · exact .inl ⟨rfl, rfl⟩
    · exact .inr (.inr ⟨_, _, _, _, rfl, rfl⟩)
    · exact .inr (.inl ⟨r, rfl, rfl⟩)
  | last rest _ => exact .inr (.inr ⟨_, _, _, _, rfl, rfl⟩)
  | byte b _ => exact .inr (.inr ⟨_, _, _, _, rfl, rfl⟩)

/-- The first bytes of streams alike are one byte, or the last of the body and alike but for padding. -/
theorem Alike.behind {pad : BitVec 3} {x y : Byte} {q q' : List Token} (h : Alike pad (.byte x :: q) (.byte y :: q')) :
    (x = y ∧ Alike pad q q') ∨
      ((∃ r, q = .eos :: r ∧ q' = .eos :: r) ∧ bitsOf x (lastBits pad) = bitsOf y (lastBits pad)) := by
  cases h with
  | refl => exact .inl ⟨rfl, .refl q⟩
  | last rest h => exact .inr ⟨⟨rest, rfl, rfl⟩, h⟩
  | byte _ h => exact .inl ⟨rfl, h⟩

/-- A byte taken off, held or to be held next, and the stream behind it: alike as one stream. With no byte taken off the
streams are alike. -/
inductive AlikeBehind (pad : BitVec 3) : Option Byte → List Token → Option Byte → List Token → Prop where
  | none {q q' : List Token} (h : Alike pad q q') : AlikeBehind pad none q none q'
  | some {x y : Byte} {q q' : List Token} (h : Alike pad (.byte x :: q) (.byte y :: q')) :
      AlikeBehind pad (some x) q (some y) q'

/-! ### States side by side -/

/-- The state with other tokens, another held byte, and another place. -/
def State.withBody (s : State) (q : List Token) (h : Option Byte) (w : Work) : State :=
  { s with inq := q, hold := h, work := w }

/-- From `s`, UNPACK goes on alike with `q`, `h` and `w` in place of its tokens, its held byte and its place; or it has
ended. -/
inductive SamePlace (s : State) (q : List Token) (h : Option Byte) (w : Work) : Prop where
  | ended (idle : s.status.busy = false)
  | pull (place : s.work = .pull) (place' : w = .pull) (alike : AlikeBehind s.pad s.hold s.inq h q)
  | walk (bits : List Bool) (next next' : Option Byte) (place : s.work = .walk bits next) (place' : w = .walk bits next')
      (alike : AlikeBehind s.pad next s.inq next' q)

/-- Two states of UNPACK that differ in the body at most, and there in padding bits alone. -/
inductive Twin : State → State → Prop where
  | mk (s : State) (q : List Token) (h : Option Byte) (w : Work) (same : SamePlace s q h w) : Twin s (s.withBody q h w)

/-- Two answers of the sequencer with twins. -/
inductive TwinTick : Tick → Tick → Prop where
  | wait : TwinTick .wait .wait
  | next {s t : State} (h : Twin s t) : TwinTick (.next s) (.next t)
  | fault (f : Fault) : TwinTick (.fault f) (.fault f)

theorem Twin.ended {s : State} (q : List Token) (h : Option Byte) (idle : s.status.busy = false) :
    Twin s (s.withBody q h s.work) := .mk s q h s.work (.ended idle)

theorem twin_raiseCause (c : Cause) (s : State) (q : List Token) (h : Option Byte) (w : Work) :
    Twin (raiseCause c s) (raiseCause c (s.withBody q h w)) := .ended (s := raiseCause c s) q h rfl

theorem twin_endOk (s : State) (q : List Token) (h : Option Byte) (w : Work) :
    Twin (endOk s) (endOk (s.withBody q h w)) := .ended (s := endOk s) q h rfl

theorem twin_unpackEnd (s : State) (q : List Token) (h : Option Byte) (w : Work) :
    Twin (unpackEnd s) (unpackEnd (s.withBody q h w)) := by
  by_cases hc : s.cur = s.root
  · rw [unpackEnd_atRoot hc, unpackEnd_atRoot (s := s.withBody q h w) hc]
    exact twin_endOk { s with status := { s.status with dangling := false } } q h w
  · have samePar : (s.withBody q h w).par = s.par := rfl
    rw [unpackEnd_inside hc, unpackEnd_inside (s := s.withBody q h w) hc, samePar]
    cases s.par.strictEnd with
    | true => exact twin_raiseCause _ { s with status := { s.status with dangling := true } } q h w
    | false => exact twin_endOk { s with status := { s.status with dangling := true } } q h w

theorem twin_walkFrom {s : State} {q : List Token} {h : Option Byte} {w : Work} {next next' : Option Byte}
    (bits : List Bool) (alike : AlikeBehind s.pad next s.inq next' q) :
    Twin (walkFrom bits next s) (walkFrom bits next' (s.withBody q h w)) := by
  unfold walkFrom
  split
  · cases alike with
    | none alike => exact twin_unpackEnd { s with hold := none } q none w
    | @some x y _ _ alike => exact .mk { s with hold := some x, work := .pull } q (some y) .pull (.pull rfl rfl (.some alike))
  · exact .mk { s with work := .walk bits next } q h (.walk bits next') (.walk bits next next' rfl rfl alike)

theorem twin_pullTick_wait {u v : State} (hu : u.inq = []) (hv : v.inq = []) : TwinTick (pullTick u) (pullTick v) := by
  simp only [pullTick, hu, hv]
  exact .wait

theorem twin_pullTick_next {u v u' v' : State} {tok tok' : Token} {r r' : List Token} (hu : u.inq = tok :: r)
    (hv : v.inq = tok' :: r') (hu' : unpackToken tok { u with inq := r } = u')
    (hv' : unpackToken tok' { v with inq := r' } = v') (twin : Twin u' v') : TwinTick (pullTick u) (pullTick v) := by
  simp only [pullTick, hu, hv, hu', hv']
  exact .next twin

/-- One token of each of two bodies alike (44 R137, R138). -/
theorem twin_pullTick {s : State} {q : List Token} {h : Option Byte} (hw : s.work = .pull)
    (alike : AlikeBehind s.pad s.hold s.inq h q) : TwinTick (pullTick s) (pullTick (s.withBody q h .pull)) := by
  generalize hh : s.hold = held at alike
  generalize hq : s.inq = qs at alike
  cases alike with
  | none alike =>
    rcases alike.first with ⟨rfl, rfl⟩ | ⟨r, rfl, rfl⟩ | ⟨x, y, r, r', rfl, rfl⟩
    · exact twin_pullTick_wait hq rfl
    · exact twin_pullTick_next hq rfl (unpackToken_eos_empty hh) (unpackToken_eos_empty rfl)
        (twin_unpackEnd { s with inq := r } r none .pull)
    · exact twin_pullTick_next hq rfl (unpackToken_first x hh) (unpackToken_first y rfl)
        (.mk { s with inq := r, hold := some x } r' (some y) .pull (.pull hw rfl (.some alike)))
  | @some x y _ _ alike =>
    rcases alike.behind with ⟨rfl, behind⟩ | ⟨⟨r, rfl, rfl⟩, sameBits⟩
    · rcases behind.first with ⟨rfl, rfl⟩ | ⟨r, rfl, rfl⟩ | ⟨a, b, r, r', rfl, rfl⟩
      · exact twin_pullTick_wait hq rfl
      · exact twin_pullTick_next hq rfl (unpackToken_eos hh) (unpackToken_eos rfl)
          (twin_walkFrom (s := { s with inq := r }) (bitsOf x (lastBits s.pad)) (.none (.refl r)))
      · exact twin_pullTick_next hq rfl (unpackToken_byte a hh) (unpackToken_byte b rfl)
          (twin_walkFrom (s := { s with inq := r }) (bitsOf x 8) (.some behind))
    · have twin := twin_walkFrom (s := { s with inq := r }) (h := some y) (w := .pull) (bitsOf x (lastBits s.pad))
        (.none (.refl r))
      refine twin_pullTick_next hq rfl (unpackToken_eos hh) ?_ twin
      exact (unpackToken_eos rfl).trans (by rw [sameBits]; rfl)

theorem twin_walkBit {s : State} {q : List Token} {h : Option Byte} {w : Work} {next next' : Option Byte} (v : Bool)
    (bits : List Bool) (alike : AlikeBehind s.pad next s.inq next' q) :
    TwinTick (walkBit v bits next s) (walkBit v bits next' (s.withBody q h w)) := by
  have sameMove : bitMove v (s.withBody q h w) = bitMove v s := rfl
  rw [walkBit_eq, walkBit_eq, sameMove]
  cases bitMove v s with
  | wait => exact .wait
  | fault f => exact .fault f
  | offTree => exact .next (twin_raiseCause _ s q h w)
  | writeFails c k => exact .next (twin_raiseCause _ { s with cur := c, sink := k } q h w)
  | goOn c k => exact .next (twin_walkFrom (s := { s with cur := c, sink := k }) bits alike)

theorem Twin.tick {s t : State} (h : Twin s t) : TwinTick (tick s) (tick t) := by
  obtain ⟨q, h, w, same⟩ := h
  cases hb : s.status.busy with
  | false => 
    rw [tick_idle hb, tick_idle (s := s.withBody q h w) hb]
    exact .wait
  | true =>
    cases same with
    | ended idle => rw [idle] at hb; cases hb
    | pull hw hw' alike =>
      subst hw'
      have left : Machine.tick s = pullTick s := by simp [Machine.tick, hb, hw]
      have right : Machine.tick (s.withBody q h .pull) = pullTick (s.withBody q h .pull) := by
        simp [Machine.tick, State.withBody, hb]
      rw [left, right]
      exact twin_pullTick hw alike
    | walk bits next next' hw hw' alike =>
      subst hw'
      have left : Machine.tick s = walkTick bits next s := by simp [Machine.tick, hb, hw]
      have right : Machine.tick (s.withBody q h (.walk bits next')) =
          walkTick bits next' (s.withBody q h (.walk bits next')) := by
        simp [Machine.tick, State.withBody, hb]
      rw [left, right]
      cases bits with
      | nil => exact .next (twin_walkFrom [] alike)
      | cons v bits => exact twin_walkBit v bits alike

/-- Twins stay twins through a turn. -/
theorem Twin.drive {n : Nat} {s t u : State} (h : Twin s t) (hu : drive n s = .next u) :
    ∃ v, Machine.drive n t = .next v ∧ Twin u v := by
  induction n generalizing s t with
  | zero => cases hu; exact ⟨t, rfl, h⟩
  | succ n ih =>
    have step := h.tick
    rw [Machine.drive] at hu ⊢
    generalize Machine.tick s = a at hu step
    generalize Machine.tick t = b at step ⊢
    cases step with
    | wait => cases hu; exact ⟨t, rfl, h⟩
    | next h => exact ih h hu
    | fault f => cases hu

/-- Bits that agree are the same bits examined. -/
theorem bitsOf_congr {x y : Byte} {k : Nat} (h : ∀ j, j < k → x.getLsbD j = y.getLsbD j) : bitsOf x k = bitsOf y k :=
  List.map_congr_left fun j hj => h j (List.mem_range.1 hj)

theorem issue_precond {op : Op} {ready : Status → Bool} {start : State → State} {s : State} (h : Idle s)
    (hr : ready s.status.start = false) : issue op ready start s = .next (raiseCause .precond (startOp s op)) := by
  simp [issue, takesCommand_iff.2 h, hr]

/-- The commands on two bodies alike end in twins: they begin with twins, or neither begins. -/
theorem Twin.execUnpack {s t : State} {q q' : List Token} (hidle : Idle s) (alike : Alike s.pad q q')
    (hlen : q'.length = q.length) (ht : exec .unpack { s with inq := q } = .next t) :
    ∃ u, exec .unpack { s with inq := q' } = .next u ∧ Twin t u := by
  cases hr : s.status.start.unpackReady with
  | true =>
    have hexec : ∀ p, exec .unpack { s with inq := p } = turn (startUnpack (startOp { s with inq := p } .unit)) :=
      fun p => issue_run hidle hr
    have start : Twin (startUnpack (startOp { s with inq := q } .unit))
        (startUnpack (startOp { s with inq := q' } .unit)) :=
      .mk (startUnpack (startOp { s with inq := q } .unit)) q' none .pull (.pull rfl rfl (.none alike))
    have sameBudget : budget (startUnpack (startOp { s with inq := q' } .unit)) =
        budget (startUnpack (startOp { s with inq := q } .unit)) := by
      simp only [budget, stepBound, startUnpack_pace, startOp_pace, startUnpack_inq, startOp_inq, hlen]
    rw [hexec, turn] at ht
    rw [hexec, turn, sameBudget]
    exact start.drive ht
  | false =>
    have hexec : ∀ p, exec .unpack { s with inq := p } =
        .next (raiseCause .precond (startOp { s with inq := p } .unit)) := fun p => issue_precond hidle hr
    rw [hexec] at ht
    cases ht
    exact ⟨_, hexec q', twin_raiseCause .precond (startOp { s with inq := q } .unit) q' s.hold s.work⟩

/-- Settles O38: the two UNPACKs go on as twins, which agree in status, sink and cursor. -/
theorem paddingBitsIgnored : Obligations.PaddingBitsIgnored := by
  intro s t l x y rest hbits ht hidle
  have sameBits : bitsOf x (lastBits s.pad) = bitsOf y (lastBits s.pad) := bitsOf_congr hbits
  have sameLength : (byteTokens (l ++ [y]) ++ .eos :: rest).length = (byteTokens (l ++ [x]) ++ .eos :: rest).length := by
    simp [byteTokens]
  obtain ⟨u, hu, twin⟩ := Twin.execUnpack hidle (.body l rest sameBits) sameLength ht
  cases twin
  exact ⟨_, hu, rfl, rfl, rfl⟩

end Sys2Proof.Machine
end

section
/-! The output of a failed or abandoned operation, as the host finds it (spec/44_bit_unpacker.md R149;
spec/60_exceptions.md R185; spec/70_reset_and_hazards.md R196). -/

namespace Sys2Proof.Machine

/-! ### The output's bytes -/

/-- The memory holds every byte the running operation has appended (20 R43). -/
def HoldsOutput (k : Sink) : Prop := ∀ i, i < k.olen → memRead k.mem (k.base + i) ≠ none

theorem HoldsOutput.of_written {k k' : Sink} (h : HoldsOutput k) (e : k'.written = k.written) : HoldsOutput k' := by
  obtain ⟨hm, hb, ho⟩ := written_eq_iff.1 e
  unfold HoldsOutput
  rw [hm, hb, ho]
  exact h

theorem HoldsOutput.store {k : Sink} (h : HoldsOutput k) (off : Nat) (b : Byte) : HoldsOutput (k.store off b) := by
  intro i hi
  rw [Sink.store_mem, Sink.store_base, memRead_memWrite]
  split
  · simp
  · rw [Sink.store_olen] at hi
    exact h i (by split at hi <;> omega)

theorem HoldsOutput.move {s : State} {k : Sink} (h : HoldsOutput s.sink) (hm : SinkMove s k) : HoldsOutput k := by
  cases hm with
  | keep same => exact h.of_written same
  | store off b _ wrote => exact (h.store off b).of_written wrote

/-- The host finds the free value of tag `n` at every address of the operation's output. -/
def FreeOutput (n : Nat) (k : Sink) : Prop :=
  ∀ a, k.base ≤ a → a < k.base + k.olen → k.observe a = some (Config.voidByte n a)

/-- The region just marked is the one its addresses are found in (44 R149). -/
theorem voidTag_voidOutput {k : Sink} {n a : Nat} (hlo : k.base ≤ a) (hhi : a < k.base + k.olen) :
    voidTag (k.voidOutput n).voids a = some n := by
  have hne : k.olen ≠ 0 := by omega
  simp [Sink.voidOutput, hne, voidTag, hlo, hhi]

theorem HoldsOutput.voidOutput {k : Sink} (h : HoldsOutput k) (n : Nat) : FreeOutput n (k.voidOutput n) := by
  intro a hlo hhi
  rw [Sink.voidOutput_base] at hlo hhi
  rw [Sink.voidOutput_olen] at hhi
  have hread : memRead k.mem a ≠ none := by
    have := h (a - k.base) (by omega)
    rwa [Nat.add_sub_cancel' hlo] at this
  obtain ⟨b, hb⟩ := Option.ne_none_iff_exists'.1 hread
  rw [Sink.observe, Sink.voidOutput_mem, hb, voidTag_voidOutput hlo hhi]

/-! ### How one step leaves the operation -/

/-- What one step makes of an operation, `n` the tag of the next void region: it goes on, or succeeds, or fails, its
output marked with that tag (60 R185). -/
inductive Fate (n : Nat) (t : State) : Prop where
  | goesOn (busy : t.status.busy = true) (ctr : t.freeCtr = n)
  | succeeds (idle : t.status.busy = false) (ok : t.status.ok = true)
  | fails (idle : t.status.busy = false) (k : Sink) (marked : t.sink = k.voidOutput n)

theorem fate_endOk {n : Nat} {s : State} : Fate n (endOk s) := .succeeds rfl rfl

theorem fate_raiseCause {n : Nat} {c : Cause} {s : State} (hn : s.freeCtr = n) : Fate n (raiseCause c s) :=
  .fails rfl s.sink (hn ▸ rfl)

theorem fate_writeStep {s good bad t : State} {off : Nat} {b : Byte} (ht : writeStep s off b good bad = .next t)
    (hgood : ∀ k, Fate s.freeCtr { good with sink := k }) (hbad : bad.freeCtr = s.freeCtr) : Fate s.freeCtr t := by
  rcases writeStep_cases s off b good bad with ⟨_, e⟩ | ⟨_, _, e⟩ | ⟨_, e⟩ <;> cases e.symm.trans ht
  · exact fate_raiseCause hbad
  · exact hgood _

theorem fate_afterFreq {n : Nat} {s : State} (hb : s.status.busy = true) (hn : s.freeCtr = n) :
    Fate n (afterFreq s) := by
  unfold afterFreq
  split
  · exact .goesOn hb hn
  · exact fate_endOk
  · exact fate_endOk

theorem fate_afterBuild {n : Nat} {s : State} (hb : s.status.busy = true) (hn : s.freeCtr = n) :
    Fate n (afterBuild s) := by
  unfold afterBuild
  split
  · exact .goesOn hb hn
  · exact .goesOn hb hn
  · exact fate_endOk

theorem fate_afterAssign {n : Nat} {s : State} (hb : s.status.busy = true) (hn : s.freeCtr = n) :
    Fate n (afterAssign s) := by
  unfold afterAssign
  split
  · exact .goesOn hb hn
  · exact fate_endOk
  · exact fate_endOk

theorem fate_afterHdr {n : Nat} {s : State} (hb : s.status.busy = true) (hn : s.freeCtr = n) : Fate n (afterHdr s) := by
  unfold afterHdr
  split
  · exact .goesOn hb hn
  · exact fate_endOk
  · exact fate_endOk

theorem fate_freqTick {s t : State} (hb : s.status.busy = true) (ht : freqTick s = .next t) : Fate s.freeCtr t := by
  unfold freqTick at ht
  split at ht <;> cases ht
  next tok rest _ =>
    cases tok with
    | byte b => exact .goesOn hb rfl
    | eos => exact fate_afterFreq hb rfl

theorem fate_leavesTick {s t : State} {keys : List (Byte × Count)} (hb : s.status.busy = true)
    (ht : leavesTick keys s = .next t) : Fate s.freeCtr t := by
  unfold leavesTick at ht
  split at ht
  · cases ht; exact .goesOn hb rfl
  · dsimp only at ht
    split at ht <;> cases ht
    · exact fate_raiseCause rfl
    · exact .goesOn hb rfl

theorem fate_mergeTick {s t : State} (hb : s.status.busy = true) (ht : mergeTick s = .next t) : Fate s.freeCtr t := by
  unfold mergeTick at ht
  split at ht
  · cases ht
  · cases ht
    exact fate_afterBuild hb rfl
  · split at ht
    · cases ht
    · split at ht <;> cases ht
      exact .goesOn hb rfl

theorem fate_visitTick {s t : State} (hb : s.status.busy = true) (ht : visitTick s = .next t) : Fate s.freeCtr t := by
  unfold visitTick at ht
  split at ht
  · cases ht
  · split at ht <;> cases ht <;> exact .goesOn hb rfl

theorem fate_unwindTick {s t : State} (hb : s.status.busy = true) (ht : unwindTick s = .next t) :
    Fate s.freeCtr t := by
  unfold unwindTick at ht
  split at ht
  · cases ht
    exact fate_afterAssign hb rfl
  · split at ht <;> cases ht
    exact .goesOn hb rfl
  · cases ht; exact .goesOn hb rfl

theorem fate_packHdrTick {s t : State} {bytes : List Byte} (hb : s.status.busy = true)
    (ht : packHdrTick bytes s = .next t) : Fate s.freeCtr t := by
  unfold packHdrTick at ht
  split at ht
  · cases ht; exact .goesOn hb rfl
  · exact fate_writeStep ht (fun _ => .goesOn hb rfl) rfl
  · exact fate_writeStep ht (fun _ => .goesOn hb rfl) rfl

theorem fate_packPullTick {s t : State} (hb : s.status.busy = true) (ht : packPullTick s = .next t) :
    Fate s.freeCtr t := by
  unfold packPullTick at ht
  split at ht <;> cases ht
  next tok rest _ =>
    cases tok with
    | byte b =>
      simp only [packToken]
      split
      · exact fate_raiseCause rfl
      · exact .goesOn hb rfl
    | eos => exact .goesOn hb rfl

theorem fate_packBitsTick {s t : State} {bits : List Bool} (hb : s.status.busy = true)
    (ht : packBitsTick bits s = .next t) : Fate s.freeCtr t := by
  unfold packBitsTick at ht
  split at ht
  · cases ht; exact .goesOn hb rfl
  · simp only [packBit] at ht
    split at ht
    · exact fate_writeStep ht (fun _ => .goesOn hb rfl) rfl
    · cases ht; exact .goesOn hb rfl

theorem fate_hdrCheckEnd {n : Nat} {s : State} (hb : s.status.busy = true) (hn : s.freeCtr = n) :
    Fate n (hdrCheckEnd s) := by
  unfold hdrCheckEnd
  split
  · exact fate_afterHdr hb hn
  · exact .goesOn hb hn

theorem fate_hdrByte {n : Nat} {s : State} (hb : s.status.busy = true) (hn : s.freeCtr = n) (lo b : Byte) :
    Fate n (hdrByte lo b s) := by
  simp only [hdrByte]
  split
  · unfold hdrPadding
    split
    · exact .goesOn hb hn
    · exact fate_raiseCause hn
  · exact .goesOn hb hn
  · exact fate_hdrCheckEnd hb hn
  · exact .goesOn hb hn
  · simp only [hdrCount]
    split
    · exact fate_hdrCheckEnd hb hn
    · exact .goesOn hb hn

theorem fate_hdrTick {s t : State} {lo : Byte} (hb : s.status.busy = true) (ht : hdrTick lo s = .next t) :
    Fate s.freeCtr t := by
  unfold hdrTick at ht
  split at ht <;> cases ht
  · exact fate_raiseCause rfl
  next b rest _ => exact fate_hdrByte (s := { s with inq := rest }) hb rfl lo b

theorem fate_unpackEnd {n : Nat} {s : State} (hn : s.freeCtr = n) : Fate n (unpackEnd s) := by
  simp only [unpackEnd]
  split
  · exact fate_raiseCause hn
  · exact fate_endOk

theorem fate_walkFrom {n : Nat} {s : State} (hb : s.status.busy = true) (hn : s.freeCtr = n) (bits : List Bool)
    (next : Option Byte) : Fate n (walkFrom bits next s) := by
  unfold walkFrom
  split
  · cases next with
    | some b => exact .goesOn hb hn
    | none => exact fate_unpackEnd hn
  · exact .goesOn hb hn

theorem fate_unpackToken {n : Nat} {s : State} (hb : s.status.busy = true) (hn : s.freeCtr = n) (tok : Token) :
    Fate n (unpackToken tok s) := by
  unfold unpackToken
  split
  · exact .goesOn hb hn
  · exact fate_walkFrom hb hn ..
  · exact fate_unpackEnd hn
  · exact fate_walkFrom hb hn ..

theorem fate_walkBit {s t : State} {v : Bool} {bits : List Bool} {next : Option Byte} (hb : s.status.busy = true)
    (ht : walkBit v bits next s = .next t) : Fate s.freeCtr t := by
  rw [walkBit_eq] at ht
  cases hm : bitMove v s <;> rw [hm] at ht <;> cases ht
  case offTree => exact fate_raiseCause rfl
  case writeFails c k => exact fate_raiseCause rfl
  case goOn c k => exact fate_walkFrom (s := { s with cur := c, sink := k }) hb rfl bits next

theorem fate_tick {s t : State} (ht : tick s = .next t) : Fate s.freeCtr t := by
  unfold tick at ht
  split at ht
  · next hb =>
    cases hw : s.work <;> simp only [hw] at ht
    case rest => cases ht
    case freq => exact fate_freqTick hb ht
    case leaves => exact fate_leavesTick hb ht
    case merge => exact fate_mergeTick hb ht
    case visit => exact fate_visitTick hb ht
    case unwind => exact fate_unwindTick hb ht
    case packStart => exact fate_writeStep ht (fun _ => .goesOn hb rfl) rfl
    case packHdr => exact fate_packHdrTick hb ht
    case packPull => exact fate_packPullTick hb ht
    case packBits => exact fate_packBitsTick hb ht
    case packTail => exact fate_writeStep ht (fun _ => .goesOn hb rfl) rfl
    case packRewrite => exact fate_writeStep ht (fun k => .succeeds rfl rfl) rfl
    case hdr => exact fate_hdrTick hb ht
    case pull =>
      unfold pullTick at ht
      split at ht <;> cases ht
      next tok rest _ => exact fate_unpackToken (s := { s with inq := rest }) hb rfl tok
    case walk =>
      unfold walkTick at ht
      split at ht
      · cases ht; exact fate_walkFrom hb rfl [] _
      · exact fate_walkBit hb ht
  · cases ht

/-! ### Along a turn -/

/-- The course of an operation whose output, should it fail, is marked with `n`: its bytes are in memory; it runs, has
succeeded, or has failed, its output free (60 R185). -/
structure Course (n : Nat) (s : State) : Prop where
  holds : HoldsOutput s.sink
  fate : (s.status.busy = true ∧ s.freeCtr = n) ∨ (s.status.busy = false ∧ (s.status.ok = true ∨ FreeOutput n s.sink))

theorem Course.tick {n : Nat} {s t : State} (h : Course n s) (ht : tick s = .next t) : Course n t := by
  obtain ⟨holds, ⟨-, rfl⟩ | ⟨idle, -⟩⟩ := h
  · have holds' := holds.move (tick_sinkMove ht)
    refine ⟨holds', ?_⟩
    cases fate_tick ht with
    | goesOn busy ctr => exact .inl ⟨busy, ctr⟩
    | succeeds idle ok => exact .inr ⟨idle, .inl ok⟩
    | fails idle k marked =>
      have hk : HoldsOutput k := holds'.of_written (by rw [marked, written_voidOutput])
      exact .inr ⟨idle, .inr (marked ▸ hk.voidOutput s.freeCtr)⟩
  · rw [tick_idle idle] at ht
    cases ht

theorem Course.drive {n m : Nat} {s t : State} (h : Course n s) (ht : drive m s = .next t) : Course n t :=
  drive_keeps (fun _ _ hu => hu.tick) h ht

/-- An operation that has ended without success has left its output free. -/
theorem Course.freeOutput {n : Nat} {t : State} (h : Course n t) (hb : t.status.busy = false)
    (hok : t.status.ok = false) : FreeOutput n t.sink := by
  rcases h.fate with ⟨busy, -⟩ | ⟨-, ok | free⟩
  · rw [hb] at busy; cases busy
  · rw [hok] at ok; cases ok
  · exact free

/-- A command that begins an operation begins its course (20 R43). -/
theorem Course.start {s : State} (hbusy : s.status.busy = true) (hempty : s.sink.olen = 0) : Course s.freeCtr s :=
  ⟨fun _ hi => absurd (hempty ▸ hi) (Nat.not_lt_zero _), .inl ⟨hbusy, rfl⟩⟩

/-- A command taken while idle runs the course of its operation, its output begun where the sink stood. -/
theorem Course.issue {op : Op} {ready : Status → Bool} {start : State → State} {s t : State} (h : Idle s)
    (ht : issue op ready start s = .next t) (hbusy : ∀ u, u.status.busy = true → (start u).status.busy = true)
    (hsink : ∀ u, (start u).sink = u.sink) (hctr : ∀ u, (start u).freeCtr = u.freeCtr) :
    Course s.freeCtr t ∧ t.sink.base = outputStart s := by
  rcases issue_cases op ready start s with ⟨hc, -⟩ | ⟨-, -, e⟩ | ⟨-, -, e⟩
  · rw [takesCommand_iff.2 h] at hc
    cases hc
  · cases e.symm.trans ht
    have hempty : (raiseCause .precond (startOp s op)).sink.olen = 0 := voidOutput_olen ..
    exact ⟨⟨fun _ hi => by omega, .inr ⟨rfl, .inr fun a hlo hhi => by omega⟩⟩, voidOutput_base ..⟩
  · rw [e] at ht
    have begun : Course s.freeCtr (start (startOp s op)) := by
      have := Course.start (s := start (startOp s op)) (hbusy _ rfl) (by rw [hsink]; rfl)
      rwa [hctr] at this
    refine ⟨begun.drive ht, ?_⟩
    refine turn_keeps (P := fun u => u.sink.base = outputStart s)
      (fun _ _ hu htick => (tick_sinkMove htick).base.trans hu) ?_ ht
    rw [hsink]
    rfl

theorem Course.exec {i : Instr} {s t : State} (h : Idle s) (hi : IsCommand i) (ht : exec i s = .next t) :
    Course s.freeCtr t ∧ t.sink.base = outputStart s := by
  cases i with
  | clr =>
    have ht : execClr s = .next t := ht
    rw [execClr, if_pos (takesCommand_iff.2 h)] at ht
    cases ht
    exact ⟨⟨fun i hi => absurd hi (Nat.not_lt_zero _), .inr ⟨rfl, .inl rfl⟩⟩, rfl⟩
  | enc =>
    exact Course.issue (start := fun u => startFreq (clearBlock u)) h ht (fun _ hu => hu) (fun _ => rfl) (fun _ => rfl)
  | dec =>
    exact Course.issue (start := fun u => startHdr (clearBlock u)) h ht (fun _ hu => hu) (fun _ => rfl) (fun _ => rfl)
  | freq | build | assign | pack | hdr | unpack =>
    exact Course.issue h ht (fun _ hu => hu) (fun _ => rfl) (fun _ => rfl)
  | paddingCount _ | entryCount _ | entry _ _ | bodyByte _ | codeBit _ => cases hi

/-! ### In a later step -/

/-- An operation that runs, its bytes in memory (10 R25), is on its course. -/
theorem Inv.course {s : State} (h : Inv s) (hb : s.status.busy = true) : Course s.freeCtr s :=
  ⟨h.mem.2, .inl ⟨hb, rfl⟩⟩

/-- No act of the host but a reset ends an operation, or gives out a void region's tag. -/
theorem hostAct_busy_freeCtr {a : HostAct} (ha : a ≠ .resetInput true) (s : State) :
    (hostAct a s).status.busy = s.status.busy ∧ (hostAct a s).freeCtr = s.freeCtr := by
  by_cases hr : ∃ v, a = .resetInput v
  · obtain ⟨v, rfl⟩ := hr
    cases v with
    | true => exact absurd rfl ha
    | false => exact ⟨rfl, rfl⟩
  · obtain ⟨q, k, p, d, e⟩ := hostAct_block (fun v hv => hr ⟨v, hv⟩) s
    rw [e]
    exact ⟨rfl, rfl⟩

theorem Course.serve {a : HostAct} {s t : State} (h : Inv s) (hb : s.status.busy = true) (ha : a ≠ .resetInput true)
    (ht : serve a s = .next t) : Course s.freeCtr t := by
  by_cases hw : ∃ n v, a = .write n v
  · obtain ⟨n, v, rfl⟩ := hw
    cases n with
    | zero =>
      cases (writeCmd_discarded (by simp [takesCommand, hb]) v).symm.trans ht
      exact h.course hb
    | succ n => exact (h.course hb).drive ht
  · rw [serve_of_not_write fun n v e => hw ⟨n, v, e⟩] at ht
    obtain ⟨busy, ctr⟩ := hostAct_busy_freeCtr ha s
    have course := (h.hostAct a).course (busy.trans hb)
    rw [ctr] at course
    exact course.drive ht

/-- An operation the reset input abandons leaves its output free (70 R196). -/
theorem freeOutput_abandonedSink {s : State} (h : Inv s) (hb : s.status.busy = true) :
    FreeOutput s.freeCtr (abandonedSink s) := by
  rw [abandonedSink, if_pos hb]
  exact HoldsOutput.voidOutput h.mem.2 _

theorem freeOutput_step {s t : State} (h : Inv s) (hb : s.status.busy = true) (ht : step s = .next t)
    (hend : t.status.busy = false) (hok : t.status.ok = false) : FreeOutput s.freeCtr t.sink := by
  cases hh : s.host with
  | nil =>
    have ht : ownTurn s = .next t := by rwa [step, advance, hh] at ht
    exact ((h.course hb).drive ht).freeOutput hend hok
  | cons a rest =>
    have h' : Inv { s with host := rest } := h.hostFields s.inq rest s.pace s.rdata s.inReset
    by_cases ha : a = .resetInput true
    · subst ha
      cases (step_resetInput hh).symm.trans ht
      obtain ⟨n, e⟩ := resetBlock_eq { s with host := rest }
      rw [e]
      exact freeOutput_abandonedSink (s := { s with host := rest }) h' hb
    · rw [step_cons hh] at ht
      exact (Course.serve h' hb ha ht).freeOutput hend hok

/-- Settles O54: a failure marks the whole of the operation's output with the tag then due (60 R185), and the memory
holds all of it. -/
theorem failedOutputIsFree : Obligations.FailedOutputIsFree := by
  refine ⟨fun s t i hidle hi ht hend hok a hlo hhi => ?_, fun s t h hb ht hend hok a hlo hhi => ?_⟩
  · obtain ⟨course, base⟩ := Course.exec hidle hi ht
    exact course.freeOutput hend hok a (base ▸ hlo) hhi
  · exact freeOutput_step h hb ht hend hok a hlo hhi

end Sys2Proof.Machine
end

section
/-! ENC and DEC as one turn each (spec/45_commands.md R162, R163), and an input of sentinel bytes alone
(spec/44_bit_unpacker.md R151; spec/43_bit_packer.md R124). -/

namespace Sys2Proof.Machine

/-! ### The turn of ENC -/

/-- A table of `freqView` has a key (40 R84). -/
theorem entriesOf_freqView_ne_nil (sentinel : Byte) (l : List Byte) : entriesOf (freqView sentinel l) ≠ [] := by
  have key : ∃ b, tableGet (freqView sentinel l) b ≠ none := by
    rcases l with _ | ⟨b, l⟩
    · exact ⟨sentinel, sentinel_key (by simp)⟩
    · exact ⟨b, by simp [tableGet_freqView_of_mem (List.mem_cons_self ..)]⟩
  obtain ⟨b, hb⟩ := key
  intro h
  have hmem := mem_keys.2 hb
  simp [h] at hmem

/-- The root's index of a tree of at most 256 leaves is a number of nine bits (10 R21). -/
theorem toNat_rootIndex {n : Nat} (h : n ≤ 256) : (BitVec.ofNat 9 (2 * n - 2)).toNat = 2 * n - 2 := by
  rw [BitVec.toNat_ofNat, Nat.mod_eq_of_lt (by omega)]

/-- Every key of a table has a code word in the table's tree, of at most 255 bits (42 R106, R108). -/
theorem code_of_key {ft : Table Count} {t : HTree} (h : buildView (entriesOf ft) = some t) {b : Byte}
    (hb : tableGet ft b ≠ none) : ∃ c, tableGet (codeTable t) b = some c ∧ c.length ≤ 255 := by
  have hsym := buildView_symbols h
  obtain ⟨c, hc⟩ := exists_code (hsym.mem_iff.2 (mem_keys.2 hb))
  exact ⟨c, codeTable_of_mem (hsym.nodup_iff.2 (nodup_keys ft)) hc, codeLengths.2 ft t b c h hc⟩

/-- ENC begins (45 R162, R164). -/
def encStart (s : State) : State := startFreq (clearBlock (startOp s .enc))

/-- ENC after the pass `l`: FREQ has ended, BUILD begins. -/
def encCounted (s : State) (l : List Byte) (q : List Token) : State :=
  startBuild { encStart s with
    inq := q, ft := freqView s.par.sentinel l, status := { (encStart s).status with ftV := true } }

/-- ENC with the tree of `n` leaves in the arena `node`: BUILD has ended, ASSIGN begins. -/
def encBuilt (s : State) (l : List Byte) (q : List Token) (n : Nat) (node : List Node) : State :=
  startAssign { encCounted s l q with
    node := node, nleaf := BitVec.ofNat 9 n, live := BitVec.twoPow 511 (2 * n - 2), root := BitVec.ofNat 9 (2 * n - 2),
    cur := boundCursor (2 * n - 1) 0, status := { (encCounted s l q).status with treeV := true }, work := .merge }

/-- ENC with the code words of the tree `t`: ASSIGN has ended, PACK begins. -/
def encAssigned (s : State) (l : List Byte) (q : List Token) (n : Nat) (node : List Node) (t : HTree) : State :=
  startPack { encBuilt s l q n node with
    ct := codeTable t, stk := [], work := .unwind, status := { (encBuilt s l q n node).status with ctV := true } }

/-- ENC up to where PACK begins (45 R162). -/
theorem run_encTables {s : State} {l : List Byte} {q : List Token} (hi : s.inq = byteTokens l ++ .eos :: q) :
    ∃ node t n, BuiltTree (entriesOf (freqView s.par.sentinel l)) node t ∧ n ≤ l.length + 2048 ∧
      Run n (encStart s) (encAssigned s l q (entriesOf (freqView s.par.sentinel l)).length node t) := by
  have hlen := length_entriesOf_le (freqView s.par.sentinel l)
  have hfreq : Run (l.length + 1) (encStart s) (encCounted s l q) := run_freq (s := encStart s) rfl rfl rfl hi
  obtain ⟨node, t, hbuilt, hbuild⟩ := run_build (s := encCounted s l q) (es := entriesOf (freqView s.par.sentinel l))
    rfl rfl rfl rfl (entriesOf_freqView_ne_nil _ _) hlen
  have hassign := run_assign (s := encBuilt s l q (entriesOf (freqView s.par.sentinel l)).length node) (t := t)
    (by exact (toNat_rootIndex hlen).symm ▸ hbuilt.root) rfl rfl rfl rfl rfl
  have hleaves := buildView_leaves hbuilt.tree
  exact ⟨node, t, _, hbuilt, by unfold assignSteps; omega, hfreq.trans (hbuild.trans hassign)⟩

/-- ENC on two passes, the second of bytes that are keys of the first one's table (45 R162, 43 R113 to R122). -/
theorem execEnc_result {s : State} {l l' : List Byte} {rest : List Token} (hs : Ready s) (hgood : SinkGood s)
    (hi : s.inq = byteTokens l ++ .eos :: (byteTokens l' ++ .eos :: rest))
    (hkeys : ∀ b ∈ l', tableGet (freqView s.par.sentinel l) b ≠ none) :
    ∃ (k : Sink) (node : List Node) (t : HTree) (es : List (Byte × Count)),
      es = entriesOf (freqView s.par.sentinel l) ∧ BuiltTree es node t ∧
      Wrote s.sink k (packView (freqView s.par.sentinel l) (codeTable t) l') ∧
      exec .enc s = .next { s with
        status := goodStatus true true true false,
        pad := BitVec.ofNat 3 (padView (inputBits (codeTable t) l').length), nent := BitVec.ofNat 16 es.length,
        ft := freqView s.par.sentinel l, node := node, nleaf := BitVec.ofNat 9 es.length,
        live := BitVec.twoPow 511 (2 * es.length - 2), root := BitVec.ofNat 9 (2 * es.length - 2),
        ct := codeTable t, cur := 0, acc := 0, nb := 0, hold := none, hpos := 0, hsym := 0, hacc := 0, path := [],
        stk := [], op := .unit, work := .rest, inq := rest, sink := k } := by
  obtain ⟨hidle, hpace⟩ := hs
  obtain ⟨hready, hfails⟩ := hgood
  have hexec : exec .enc s = turn (encStart s) := issue_run (start := fun u => startFreq (clearBlock u)) hidle rfl
  obtain ⟨node, t, n, hbuilt, hn, htables⟩ := run_encTables hi
  have hcode := fun b hb => code_of_key hbuilt.tree (hkeys b hb)
  have hheader := run_packHeader
    (s := encAssigned s l (byteTokens l' ++ .eos :: rest) (entriesOf (freqView s.par.sentinel l)).length node t)
    rfl rfl hready hfails
  have hsome : ∀ b ∈ l', (tableGet (codeTable t) b).isSome := fun b hb => by
    obtain ⟨c, hc, -⟩ := hcode b hb
    simp [hc]
  obtain ⟨m, hm, hbody⟩ := run_packBody (l := l') (s := startBody {
      encAssigned s l (byteTokens l' ++ .eos :: rest) (entriesOf (freqView s.par.sentinel l)).length node t with
      nent := BitVec.ofNat 16 (keyCount (freqView s.par.sentinel l)),
      sink := appendAll s.sink.rebase (0x00#8 :: headerTail (freqView s.par.sentinel l)) })
    rfl rfl rfl rfl (by simpa using hready) (by simpa using hfails) hsome rfl
  have hpaced : (encStart s).pace = none := hpace
  have hbound : n + (1 + (headerTail (freqView s.par.sentinel l)).length + m) ≤ stepBound (encStart s) := by
    have hcount := keyCount_le (freqView s.par.sentinel l)
    have hbits := length_inputBits_le hcode
    have hct : m ≤ l'.length + (inputBits (codeTable t) l').length + 3 := hm
    have hinq : (encStart s).inq = s.inq := rfl
    simp only [length_headerTail, stepBound, hinq, hi, byteTokens, List.length_append, List.length_map,
      List.length_cons]
    omega
  refine ⟨_, node, t, _, rfl, hbuilt, wrote_rewritten s.sink 0x00#8 _ _,
    hexec.trans ((turn_of_run hpaced (htables.trans (hheader.trans hbody)) rfl hbound).trans ?_)⟩
  have hpos := List.length_pos_iff.2 (entriesOf_freqView_ne_nil s.par.sentinel l)
  have hcur : boundCursor (2 * (entriesOf (freqView s.par.sentinel l)).length - 1) 0#9 = 0#9 :=
    boundCursor_of_lt (by rw [BitVec.toNat_ofNat, Nat.zero_mod]; omega)
  simp [hcur, keyCount, endOk, startBody, encAssigned, encBuilt, encCounted, encStart, startPack, startAssign,
    startBuild, startFreq, clearBlock, startOp, Status.start, Status.clearForOp, Status.reset, Status.clearAll,
    Status.clearTree, Status.clearCode, Status.clearHdr, Status.succeed, goodStatus, ← appendAll_append]

/-! ### The turn of DEC -/

/-- DEC begins (45 R163, R164). -/
def decStart (s : State) : State := startHdr (clearBlock (startOp s .dec))

/-- BUILD, then UNPACK, in a DEC whose body's walk ends at the root (45 R163; 44 R145). -/
theorem run_decBody {s : State} {es : List (Byte × Count)} {t : HTree} {l : List Byte} {rest : List Token}
    (hb : s.status.busy = true) (hop : s.op = .dec) (hw : s.work = .leaves es) (hn : s.node = []) (hl : s.live = 0)
    (hlen : es.length ≤ 256) (htree : buildView es = some t) (hr : s.sink.ready = true) (hf : s.sink.fails = [])
    (hi : s.inq = byteTokens l ++ .eos :: rest) (hroot : (walkView t t (examinedBits s.pad l)).2 = .atRoot) :
    ∃ k u, k ≤ 9 * l.length + 522 ∧ Run k s u ∧
      u.status = { s.status with treeV := true, phase := .unpack, dangling := false }.succeed ∧ u.inq = rest ∧
      u.sink = appendAll s.sink (walkView t t (examinedBits s.pad l)).1 := by
  have hne : es ≠ [] := by rintro rfl; simp at htree
  obtain ⟨node, t', hbuilt, hbuild⟩ := run_build hb hw hn hl hne hlen
  obtain rfl : t' = t := Option.some.inj (hbuilt.tree.symm.trans htree)
  have hunpack : ∀ v : State, v.op = .dec → afterBuild v = startUnpack v := fun v hv => by rw [afterBuild, hv]
  rw [hunpack _ (by exact hop)] at hbuild
  obtain ⟨cur, c, k, hc, hend, hk, work, hbody⟩ := run_body (s := startUnpack { s with
      node := node, nleaf := BitVec.ofNat 9 es.length, live := BitVec.twoPow 511 (2 * es.length - 2),
      root := BitVec.ofNat 9 (2 * es.length - 2), cur := boundCursor (2 * es.length - 1) s.cur,
      status := { s.status with treeV := true }, work := .merge }) (t := t') (c := t') hb rfl hr hf
    (.atRoot (by exact (toNat_rootIndex hlen).symm ▸ hbuilt.root)) hi
    (by rw [show bodyLeft _ l = l from rfl]; simp [hroot])
  have hct : c = t' := by
    by_contra hne
    simp [bodyLeft, hroot, hne] at hend
  rw [unpackEnd_atRoot (by exact hc.cur_eq_root_iff.2 hct)] at hbody
  exact ⟨_, _, by omega, hbuild.trans hbody, rfl, rfl, rfl⟩

/-- HDR, in a DEC on a header as PACK writes it (45 R163; 44 R135). -/
theorem run_decHeader {s : State} {ft : Table Count} {p : Byte} {rest : List Token} (hpad : p.toNat ≤ 7)
    (hi : s.inq = byteTokens (p :: headerTail ft) ++ rest) :
    ∃ u : State, Run (3 + 9 * keyCount ft) (decStart s) (startBuild u) ∧ u.op = .dec ∧ u.pad = p.setWidth 3 ∧
      u.ft = ft ∧ u.inq = rest ∧ u.sink = s.sink.rebase ∧
      u.status = { (decStart s).status with ftV := true, hdrV := true } := by
  obtain ⟨sym, acc, hhdr⟩ := run_hdr (s := decStart s) (bytes := (entriesOf ft).flatMap entryBytes) rfl rfl rfl hpad
    (by rw [fromLE16_keyCount, length_entriesBytes]) hi
  have hempty : (decStart s).ft = emptyTable := rfl
  rw [headerLength, fromLE16_keyCount, toNat_keyCount, hempty, readEntries_entriesOf] at hhdr
  exact ⟨_, hhdr, rfl, rfl, rfl, rfl, rfl, rfl⟩

/-- DEC on a container of the table `ft` whose body's walk in the table's tree ends at the root (45 R163; 44 R135,
R145). -/
theorem execDec_atRoot {s : State} {ft : Table Count} {t : HTree} {p : Byte} {body : List Byte} {rest : List Token}
    (hs : Ready s) (hgood : SinkGood s) (hpad : p.toNat ≤ 7) (htree : buildView (entriesOf ft) = some t)
    (hi : s.inq = byteTokens (p :: headerTail ft ++ body) ++ .eos :: rest)
    (hroot : (walkView t t (examinedBits (p.setWidth 3) body)).2 = .atRoot) :
    ∃ u, exec .dec s = .next u ∧ u.status = goodStatus true true false true ∧ u.inq = rest ∧
      Wrote s.sink u.sink (walkView t t (examinedBits (p.setWidth 3) body)).1 := by
  obtain ⟨hidle, hpace⟩ := hs
  obtain ⟨hready, hfails⟩ := hgood
  have hexec : exec .dec s = turn (decStart s) := issue_run (start := fun u => startHdr (clearBlock u)) hidle rfl
  obtain ⟨v, hheader, hop, hvpad, hvft, hvinq, hvsink, hvstatus⟩ := run_decHeader (ft := ft) hpad
    (rest := byteTokens body ++ .eos :: rest) (hi.trans (by simp [byteTokens]))
  subst hvft
  obtain ⟨k, u, hk, hbody, hstatus, hinq, hsink⟩ := run_decBody (s := startBuild v) (es := entriesOf v.ft)
    (by simp [hvstatus]; rfl) hop rfl rfl rfl (length_entriesOf_le v.ft) htree (by simp [hvsink, hready])
    (by simp [hvsink, hfails]) hvinq (by simpa [hvpad] using hroot)
  have hpaced : (decStart s).pace = none := hpace
  have hbound : 3 + 9 * keyCount v.ft + k ≤ stepBound (decStart s) := by
    have hkeys := keyCount_le v.ft
    have hinq : (decStart s).inq = s.inq := rfl
    simp only [stepBound, hinq, hi, byteTokens, List.length_append, List.length_map, List.length_cons]
    omega
  refine ⟨u, hexec.trans (turn_of_run hpaced (hheader.trans hbody) (by rw [hstatus]; rfl) hbound), ?_, hinq, ?_⟩
  · rw [hstatus, startBuild_status, hvstatus]
    rfl
  · rw [hsink, startBuild_sink, hvsink, startBuild_pad, hvpad]
    exact wrote_appended s.sink _

/-! ### An input of sentinel bytes alone -/

/-- Its table has one entry, the number of bytes the count (44 R151). -/
theorem entriesOf_freqView_sentinels (sentinel : Byte) {n : Nat} (hn : 1 ≤ n) :
    entriesOf (freqView sentinel (List.replicate n sentinel)) = [(sentinel, BitVec.ofNat 64 n)] := by
  have hone : keyCount (freqView sentinel (List.replicate n sentinel)) = 1 :=
    (keyCount_freqView_eq_one_iff ..).2 fun b hb => List.eq_of_mem_replicate hb
  obtain ⟨e, he⟩ := List.length_eq_one_iff.1 (show (entriesOf _).length = 1 from hone)
  have hin : sentinel ∈ List.replicate n sentinel := List.mem_replicate.2 ⟨by omega, rfl⟩
  have hcount := tableGet_freqView_of_mem (sentinel := sentinel) hin
  rw [List.count_replicate_self] at hcount
  have hmem := mem_entriesOf (p := (sentinel, BitVec.ofNat 64 n)).2 hcount
  rw [he, List.mem_singleton] at hmem
  rw [he, ← hmem]

/-- Its container: the one-entry header and no body, the one code word being empty (44 R151, 43 R124). -/
theorem packView_sentinels (sentinel : Byte) {n : Nat} (hn : 1 ≤ n) (w : Count) :
    packView (freqView sentinel (List.replicate n sentinel)) (codeTable (.leaf sentinel w))
      (List.replicate n sentinel) = [0x00#8, 0x01#8, 0x00#8, sentinel] ++ le64 (BitVec.ofNat 64 n) := by
  have hbits : inputBits (codeTable (.leaf sentinel w)) (List.replicate n sentinel) = [] := by
    simp [inputBits, codeTable, HTree.codes]
  rw [packView, hbits, headerTail, keyCount, entriesOf_freqView_sentinels sentinel hn]
  simp [bodyBytes, padView, le16, entryBytes]

/-- Settles O42: the one key is the tree's one leaf, whose code word is empty, so that the body is. -/
theorem sentinelGap : Obligations.SentinelGap := by
  intro s s' t n rest rest' hs hgood hs' hgood' hn hi henc hi'
  have hentries := entriesOf_freqView_sentinels s.par.sentinel hn
  obtain ⟨k, node, tree, es, hes, hbuilt, hwrote, hexec⟩ := execEnc_result hs hgood hi fun b hb => by
    simp [tableGet_freqView_of_mem hb]
  obtain rfl : tree = .leaf s.par.sentinel (BitVec.ofNat 64 n) := by
    have htree := hbuilt.tree
    rw [hes, hentries] at htree
    exact (Option.some.inj htree).symm
  cases hexec.symm.trans henc
  have hout := hwrote.output.trans (packView_sentinels s.par.sentinel hn (BitVec.ofNat 64 n))
  have hbody : s'.inq = byteTokens
      (0x00#8 :: headerTail (freqView s.par.sentinel (List.replicate n s.par.sentinel)) ++ []) ++ .eos :: rest' := by
    rw [hi', hout, headerTail, keyCount, hentries]
    simp [le16, entryBytes]
  obtain ⟨u, hdec, hstatus, -, hwrote'⟩ := execDec_atRoot hs' hgood' (by decide) (hes ▸ hbuilt.tree) hbody
    (by simp [examinedBits, walkView])
  refine ⟨hout, u, hdec, by rw [hstatus]; rfl, by rw [hstatus]; rfl, ?_⟩
  rw [hwrote'.output]
  simp [examinedBits, walkView]

end Sys2Proof.Machine
end

section
/-! The container of an input: what ENC leaves and its header declares (spec/45_commands.md R162, R169, R170), and that
DEC of it gives the input back (R168). -/

namespace Sys2Proof.Machine

/-! ### The container of an input -/

/-- The container of an input, by the tree of its table (45 R169). -/
theorem encodeView_eq {sentinel : Byte} {l : List Byte} {t : HTree}
    (ht : buildView (entriesOf (freqView sentinel l)) = some t) :
    encodeView sentinel l = packView (freqView sentinel l) (codeTable t) l := by
  unfold encodeView
  dsimp only
  rw [ht]

/-- Settles O39: two equal passes give the container of the input, the tree being the one tree of its table. -/
theorem encResult : Obligations.EncResult := by
  intro s l l' rest hs hgood hi hkeys
  obtain ⟨k, node, t, es, hes, hbuilt, hwrote, hexec⟩ := execEnc_result hs hgood hi hkeys
  have htree := hes ▸ hbuilt.tree
  refine ⟨k, node, t, es, hes, hbuilt, hwrote, ?_, hexec⟩
  rintro rfl
  rwa [encodeView_eq htree]

/-- The keys of an input's table: its byte values, and the sentinel where they are fewer than two without it
(40 R83, R84). -/
theorem keyCount_freqView (sentinel : Byte) (l : List Byte) : keyCount (freqView sentinel l) =
    if l.dedup.length < 2 ∧ sentinel ∉ l then l.dedup.length + 1 else l.dedup.length := by
  split
  · next h =>
    refine Nat.le_antisymm (keyCount_le_length (ks := sentinel :: l.dedup) fun b hb => ?_)
      (length_le_keyCount (ks := sentinel :: l.dedup) (by simpa using ⟨h.2, l.nodup_dedup⟩) fun b hb => ?_)
    · by_cases hm : b ∈ l
      · simp [hm]
      · simp [(freqView_added_key hm hb).1]
    · rcases List.mem_cons.1 hb with rfl | hm
      · exact sentinel_key h.1
      · simp [tableGet_freqView_of_mem (List.mem_dedup.1 hm)]
  · next h =>
    refine Nat.le_antisymm (keyCount_le_length fun b hb => ?_) (length_dedup_le_keyCount sentinel l)
    by_contra hm
    rw [List.mem_dedup] at hm
    obtain ⟨rfl, -, hfew⟩ := freqView_added_key hm hb
    exact h ⟨hfew, hm⟩

/-- The keys of a table ascend (10 R20). -/
theorem keys_ascend {α : Type} (t : Table α) : ((entriesOf t).map fun e => e.1.toNat).Pairwise (· < ·) := by
  have hall : allBytes.Pairwise fun a b => a.toNat < b.toNat := by
    rw [allBytes, List.pairwise_map]
    refine List.pairwise_lt_range.imp_of_mem fun ha hb hlt => ?_
    rw [List.mem_range] at ha hb
    simpa [Nat.mod_eq_of_lt ha, Nat.mod_eq_of_lt hb] using hlt
  have hkeys := hall.filter fun s => (tableGet t s).isSome
  rw [← keys_entriesOf, List.pairwise_map] at hkeys
  rwa [List.pairwise_map]

/-- Settles O43: the container is the padding count, the entry count, the entries of the input's table and the bits of
its code words. -/
theorem headerSelfDescription : Obligations.HeaderSelfDescription := by
  intro sentinel l
  obtain ⟨t, ht, -⟩ := buildView_isSome (entriesOf_freqView_ne_nil sentinel l)
  have hn := keyCount_freqView sentinel l
  have hentries := length_flatMap_entryBytes (entriesOf (freqView sentinel l))
  rw [← keyCount] at hentries
  refine ⟨t, keyCount (freqView sentinel l), ht, hn, ?_, ?_, keys_ascend _, ?_⟩
  · rw [encodeView_eq ht, packView, List.length_cons, List.length_append, length_headerTail, length_bodyBytes]
    omega
  · rw [encodeView_eq ht, packView, headerTail]
    rfl
  · rw [encodeView_eq ht, packView, headerTail, ← hentries]
    simp [le16]

/-! ### The walk over code words -/

/-- A code word's bits lead from its subtree to the leaf, its symbol is emitted, and the walk goes on at the root
(44 R140, R142). -/
theorem walkView_code {t c : HTree} {b : Byte} {w : Code} (h : (b, w) ∈ c.codes) (hne : w ≠ []) (q : List Bool) :
    walkView t c (w ++ q) = (b :: (walkView t t q).1, (walkView t t q).2) := by
  induction w generalizing c with
  | nil => exact absurd rfl hne
  | cons v w ih =>
    cases c with
    | leaf => simp at h
    | node _ l r =>
      have hchild := cons_mem_codes_node.1 h
      simp only [List.cons_append, walkView]
      generalize (if v then r else l) = x at hchild
      cases x with
      | leaf =>
        obtain ⟨rfl, rfl⟩ := mem_codes_leaf.1 hchild
        rfl
      | node => exact ih hchild fun hnil => nil_not_mem_codes_node (hnil ▸ hchild)

/-- In a tree with two leaves or more, the walk over the code words of an input emits the input and ends at the root
(44 R145). -/
theorem walkView_inputBits {t : HTree} (hn : t.symbols.Nodup) (htwo : 2 ≤ t.leaves) {l : List Byte}
    (hl : ∀ b ∈ l, b ∈ t.symbols) : walkView t t (inputBits (codeTable t) l) = (l, .atRoot) := by
  induction l with
  | nil => simp [inputBits, walkView]
  | cons b l ih =>
    obtain ⟨hb, hl⟩ := List.forall_mem_cons.1 hl
    obtain ⟨w, hw⟩ := exists_code hb
    have hne := List.length_pos_iff.1 (length_code_pos htwo hw)
    have hbits : inputBits (codeTable t) (b :: l) = w ++ inputBits (codeTable t) l := by
      simp [inputBits, codeTable_of_mem hn hw]
    rw [hbits, walkView_code hw hne, ih hl]

/-- The one code word of a one-leaf tree is empty (42 R107). -/
theorem inputBits_oneLeaf {t : HTree} (h : t.leaves = 1) (l : List Byte) : inputBits (codeTable t) l = [] := by
  cases t with
  | leaf s w =>
    have hcode : ∀ b, (tableGet (codeTable (.leaf s w)) b).getD [] = [] := fun b => by
      rw [show codeTable (.leaf s w) = tableSet emptyTable s [] from rfl, tableGet_tableSet]
      split <;> simp
    simp [inputBits, hcode]
  | node w l r =>
    have := two_le_leaves_node w l r
    omega

/-- The padding count PACK writes is read as the number it is (43 R121, 44 R131). -/
theorem setWidth_padView (n : Nat) : (BitVec.ofNat 8 (padView n)).setWidth 3 = BitVec.ofNat 3 (padView n) :=
  BitVec.setWidth_ofNat_of_le (by omega) _

/-- The walk over the body of an input's container in the input's own tree: the input, or nothing where the tree is one
leaf (44 R145, R151). -/
theorem walkView_container {sentinel : Byte} {l : List Byte} {t : HTree}
    (ht : buildView (entriesOf (freqView sentinel l)) = some t) :
    walkView t t (examinedBits ((BitVec.ofNat 8 (padView (inputBits (codeTable t) l).length)).setWidth 3)
      (bodyBytes (inputBits (codeTable t) l))) = (if ∀ b ∈ l, b = sentinel then [] else l, .atRoot) := by
  have hleaves : t.leaves = keyCount (freqView sentinel l) := buildView_leaves ht
  have hone := keyCount_freqView_eq_one_iff sentinel l
  rw [← hleaves] at hone
  have hsym := buildView_symbols ht
  rw [setWidth_padView, examinedBits_bodyBytes]
  split
  · next h => simp [inputBits_oneLeaf (hone.2 h), walkView]
  · next h =>
    have htwo : 2 ≤ t.leaves := by
      have := t.leaves_pos
      have := mt hone.1 h
      omega
    exact walkView_inputBits (hsym.nodup_iff.2 (nodup_keys _)) htwo fun b hb =>
      hsym.mem_iff.2 (mem_keys.2 (by simp [tableGet_freqView_of_mem hb]))

/-- Settles O41: the header gives DEC the tree ENC built, and in it the body's walk emits the input and ends at the
root; an input of sentinel bytes alone has a one-leaf tree and no body. -/
theorem roundTrip : Obligations.RoundTrip := by
  intro s s' t l rest rest' hs hgood hs' hgood' hi henc hi'
  obtain ⟨k, node, tree, es, hes, hbuilt, hwrote, hexec⟩ := execEnc_result hs hgood hi fun b hb => by
    simp [tableGet_freqView_of_mem hb]
  cases hexec.symm.trans henc
  have hpad : (BitVec.ofNat 8 (padView (inputBits (codeTable tree) l).length)).toNat ≤ 7 := by
    have := padView_lt (inputBits (codeTable tree) l).length
    exact (Nat.mod_le ..).trans (by omega)
  have htree := hes ▸ hbuilt.tree
  have hwalk := walkView_container htree
  obtain ⟨u, hdec, hstatus, hinq, hwrote'⟩ := execDec_atRoot hs' hgood' hpad htree
    (body := bodyBytes (inputBits (codeTable tree) l)) (rest := rest') (by rw [hi', hwrote.output, packView]; rfl)
    (by rw [hwalk])
  have hout := hwrote'.output
  rw [hwalk] at hout
  refine ⟨u, hdec, by rw [hstatus]; rfl, by rw [hstatus]; rfl, hinq, fun h => ?_, fun ⟨_, hall⟩ => ?_⟩
  · rw [hout]
    split
    · next hall => exact (not_not.1 fun hne => h ⟨hne, hall⟩).symm
    · rfl
  · rw [hout, if_pos hall]

end Sys2Proof.Machine
end

section
/-! Words written to `CMD` (spec/45_commands.md R155 to R158), and the commands that begin with reset values (R161,
R164). -/

namespace Sys2Proof.Machine

/-! ### Commands taken off the host's list -/

/-- Settles O6: the act taken off is the write, and the word decodes in the space of `CMD`. -/
theorem stepRunsCommand : Obligations.StepRunsCommand := by
  intro s c h i hh hd
  rw [step_cons hh]
  simp only [serve, writeCmd, hd]

/-- Settles O10: a busy block takes no command. -/
theorem busyCommandDiscarded : Obligations.BusyCommandDiscarded := by
  intro s c h hb hh
  rw [step_cons hh]
  exact writeCmd_discarded (by simp [takesCommand, hb]) c

/-- A failure right after the start actions: the valid flags kept, nothing written (45 R157, R158, R160). -/
theorem raiseCause_startOp (c : Cause) (op : Op) (s : State) : raiseCause c (startOp s op) = { s with
    op := .unit, work := .rest, sink := s.sink.rebase,
    status := failStatus c s.status.ftV s.status.treeV s.status.ctV s.status.hdrV false } := by
  simp [raiseCause, voidSink, Sink.voidOutput, startOp, Sink.rebase, Status.start, Status.fail, failStatus]

/-- Settles O9: the word does not decode, and the block fails as the start actions left it. -/
theorem reservedCommand : Obligations.ReservedCommand := by
  intro s c h hidle hh hc
  have htakes : takesCommand { s with host := h } = true := takesCommand_iff.2 hidle
  rw [step_cons hh]
  simp only [serve, writeCmd, decode, decodeCommand_reserved hc, Except.map, execReserved, htakes, if_true]
  rw [raiseCause_startOp]

/-- CLR taken while idle is whole in one step (45 R161). -/
theorem execClr_of_idle {s : State} (h : Idle s) : exec .clr s = .next (endOk (clearBlock (startOp s .unit))) :=
  if_pos (takesCommand_iff.2 h)

theorem word_cleared : (goodStatus false false false false).word = 0x0006#16 := rfl

/-- Settles O16: CLR is the start actions, the reset values and the end actions. -/
theorem clrResult : Obligations.ClrResult := by
  intro s hidle
  exact ⟨_, execClr_of_idle hidle, (blockReset_clearBlock s).congr rfl, rfl, word_cleared, rfl, rfl, rfl, rfl, rfl, rfl,
    rfl, hidle.2⟩

/-- What the start actions and the clearing leave of the state before them (45 R164): only what is outside the block. -/
theorem clearBlock_startOp_congr {s s' : State} (op : Op) (hpar : s.par = s'.par) (hinq : s.inq = s'.inq)
    (hsink : s.sink = s'.sink) (hhost : s.host = s'.host) (hpace : s.pace = s'.pace) (hrdata : s.rdata = s'.rdata)
    (hctr : s.freeCtr = s'.freeCtr) (hreset : s.inReset = s'.inReset) :
    clearBlock (startOp s op) = clearBlock (startOp s' op) := by
  simp only [clearBlock, startOp, Status.clearForOp, Status.start, *]

/-- ENC taken while idle is the turn from its start (45 R162). -/
theorem execEnc_of_idle {s : State} (h : Idle s) : exec .enc s = turn (encStart s) :=
  issue_run (start := fun u => startFreq (clearBlock u)) h rfl

/-- DEC taken while idle is the turn from its start (45 R163). -/
theorem execDec_of_idle {s : State} (h : Idle s) : exec .dec s = turn (decStart s) :=
  issue_run (start := fun u => startHdr (clearBlock u)) h rfl

/-- Settles O17: both commands begin with every register, table and flag at a value of its own. -/
theorem encDecStartFromNothing : Obligations.EncDecStartFromNothing := by
  intro s s' hidle hidle' hpar hinq hsink hhost hpace hrdata hctr
  have hsame := fun op => clearBlock_startOp_congr op hpar hinq hsink hhost hpace hrdata hctr
    (hidle.2.trans hidle'.2.symm)
  constructor
  · rw [execEnc_of_idle hidle, execEnc_of_idle hidle', encStart, encStart, hsame]
  · rw [execDec_of_idle hidle, execDec_of_idle hidle', decStart, decStart, hsame]

end Sys2Proof.Machine
end

section
/-! `PRECOND` is raised in the step of the write and by no unit (spec/45_commands.md R158; spec/60_exceptions.md
R182). -/

namespace Sys2Proof.Machine

/-- The last operation did not end with `PRECOND`. -/
def NotPrecond (s : State) : Prop := s.status.cause ≠ .precond

theorem NotPrecond.raiseCause {c : Cause} (h : c ≠ .precond) (s : State) : NotPrecond (raiseCause c s) := h

theorem NotPrecond.writeStep {s good bad t : State} {off : Nat} {b : Byte}
    (ht : writeStep s off b good bad = .next t) (hgood : NotPrecond good) : NotPrecond t := by
  rcases writeStep_cases s off b good bad with ⟨_, e⟩ | ⟨_, _, e⟩ | ⟨_, e⟩ <;> cases e.symm.trans ht
  · exact .raiseCause Cause.noConfusion _
  · exact hgood

theorem NotPrecond.afterFreq {s : State} (h : NotPrecond s) : NotPrecond (afterFreq s) := by
  unfold Machine.afterFreq
  split <;> exact h

theorem NotPrecond.afterBuild {s : State} (h : NotPrecond s) : NotPrecond (afterBuild s) := by
  unfold Machine.afterBuild
  split <;> exact h

theorem NotPrecond.afterAssign {s : State} (h : NotPrecond s) : NotPrecond (afterAssign s) := by
  unfold Machine.afterAssign
  split <;> exact h

theorem NotPrecond.afterHdr {s : State} (h : NotPrecond s) : NotPrecond (afterHdr s) := by
  unfold Machine.afterHdr
  split <;> exact h

theorem NotPrecond.freqTick {s t : State} (h : NotPrecond s) (ht : freqTick s = .next t) : NotPrecond t := by
  unfold Machine.freqTick at ht
  split at ht <;> cases ht
  next tok rest _ =>
    cases tok with
    | byte b => exact h
    | eos => exact .afterFreq h

theorem NotPrecond.leavesTick {s t : State} {keys : List (Byte × Count)} (h : NotPrecond s)
    (ht : leavesTick keys s = .next t) : NotPrecond t := by
  unfold Machine.leavesTick at ht
  split at ht
  · cases ht; exact h
  · dsimp only at ht
    split at ht <;> cases ht
    · exact .raiseCause Cause.noConfusion _
    · exact h

theorem NotPrecond.mergeTick {s t : State} (h : NotPrecond s) (ht : mergeTick s = .next t) : NotPrecond t := by
  unfold Machine.mergeTick at ht
  split at ht
  · cases ht
  · cases ht; exact .afterBuild h
  · split at ht
    · cases ht
    · split at ht <;> cases ht
      exact h

theorem NotPrecond.visitTick {s t : State} (h : NotPrecond s) (ht : visitTick s = .next t) : NotPrecond t := by
  unfold Machine.visitTick at ht
  split at ht
  · cases ht
  · split at ht <;> cases ht <;> exact h

theorem NotPrecond.unwindTick {s t : State} (h : NotPrecond s) (ht : unwindTick s = .next t) : NotPrecond t := by
  unfold Machine.unwindTick at ht
  split at ht
  · cases ht; exact .afterAssign h
  · split at ht <;> cases ht
    exact h
  · cases ht; exact h

theorem NotPrecond.packHdrTick {s t : State} {bytes : List Byte} (h : NotPrecond s)
    (ht : packHdrTick bytes s = .next t) : NotPrecond t := by
  unfold Machine.packHdrTick at ht
  split at ht
  · cases ht; exact h
  · exact .writeStep ht h
  · exact .writeStep ht h

theorem NotPrecond.packPullTick {s t : State} (h : NotPrecond s) (ht : packPullTick s = .next t) :
    NotPrecond t := by
  unfold Machine.packPullTick at ht
  split at ht <;> cases ht
  next tok rest _ =>
    cases tok with
    | byte b =>
      simp only [packToken]
      split
      · exact .raiseCause Cause.noConfusion _
      · exact h
    | eos => exact h

theorem NotPrecond.packBitsTick {s t : State} {bits : List Bool} (h : NotPrecond s)
    (ht : packBitsTick bits s = .next t) : NotPrecond t := by
  unfold Machine.packBitsTick at ht
  split at ht
  · cases ht; exact h
  · simp only [packBit] at ht
    split at ht
    · exact .writeStep ht h
    · cases ht; exact h

theorem NotPrecond.hdrCheckEnd {s : State} (h : NotPrecond s) : NotPrecond (hdrCheckEnd s) := by
  unfold Machine.hdrCheckEnd
  split
  · exact .afterHdr h
  · exact h

theorem NotPrecond.hdrByte {s : State} (h : NotPrecond s) (lo b : Byte) : NotPrecond (hdrByte lo b s) := by
  simp only [Machine.hdrByte]
  split
  · unfold hdrPadding
    split
    · exact h
    · exact .raiseCause Cause.noConfusion _
  · exact h
  · exact .hdrCheckEnd h
  · exact h
  · simp only [hdrCount]
    split
    · exact .hdrCheckEnd h
    · exact h

theorem NotPrecond.hdrTick {s t : State} {lo : Byte} (h : NotPrecond s) (ht : hdrTick lo s = .next t) :
    NotPrecond t := by
  unfold Machine.hdrTick at ht
  split at ht <;> cases ht
  · exact .raiseCause Cause.noConfusion _
  · next rest _ => exact .hdrByte (s := { s with inq := rest }) h lo _

theorem NotPrecond.unpackEnd {s : State} (h : NotPrecond s) : NotPrecond (unpackEnd s) := by
  simp only [Machine.unpackEnd]
  split
  · exact .raiseCause Cause.noConfusion _
  · exact h

theorem NotPrecond.walkFrom {s : State} (h : NotPrecond s) (bits : List Bool) (next : Option Byte) :
    NotPrecond (walkFrom bits next s) := by
  unfold Machine.walkFrom
  split
  · cases next with
    | some b => exact h
    | none => exact .unpackEnd h
  · exact h

theorem NotPrecond.unpackToken {s : State} (h : NotPrecond s) (tok : Token) : NotPrecond (unpackToken tok s) := by
  unfold Machine.unpackToken
  split
  · exact h
  · exact .walkFrom h _ _
  · exact .unpackEnd h
  · exact .walkFrom h _ _

theorem NotPrecond.walkBit {s t : State} {v : Bool} {bits : List Bool} {next : Option Byte} (h : NotPrecond s)
    (ht : walkBit v bits next s = .next t) : NotPrecond t := by
  rw [walkBit_eq] at ht
  cases hm : bitMove v s <;> rw [hm] at ht <;> cases ht
  case offTree => exact .raiseCause Cause.noConfusion _
  case writeFails => exact .raiseCause Cause.noConfusion _
  case goOn c k => exact .walkFrom (s := { s with cur := c, sink := k }) h bits next

theorem NotPrecond.tick {s t : State} (h : NotPrecond s) (ht : tick s = .next t) : NotPrecond t := by
  unfold Machine.tick at ht
  split at ht
  · cases hw : s.work <;> simp only [hw] at ht
    case rest => cases ht
    case freq => exact h.freqTick ht
    case leaves => exact h.leavesTick ht
    case merge => exact h.mergeTick ht
    case visit => exact h.visitTick ht
    case unwind => exact h.unwindTick ht
    case packStart => exact .writeStep ht h
    case packHdr => exact h.packHdrTick ht
    case packPull => exact h.packPullTick ht
    case packBits => exact h.packBitsTick ht
    case packTail => exact .writeStep ht h
    case packRewrite => exact .writeStep ht h
    case hdr => exact h.hdrTick ht
    case pull =>
      unfold pullTick at ht
      split at ht <;> cases ht
      next tok rest _ => exact .unpackToken (s := { s with inq := rest }) h tok
    case walk bits next =>
      unfold walkTick at ht
      split at ht
      · cases ht; exact h.walkFrom [] next
      · exact h.walkBit ht
  · cases ht

/-- Once the start actions have cleared `CAUSE`, a command whose requirement is met does not come to `PRECOND`, whatever
units follow (45 R158, R159). -/
theorem notPrecond_issue {op : Op} {ready : Status → Bool} {start : State → State} {s t : State} (h : Idle s)
    (hready : ready s.status.start = true) (hstart : ∀ u, NotPrecond u → NotPrecond (start u))
    (ht : issue op ready start s = .next t) : NotPrecond t := by
  rw [issue_run h hready] at ht
  exact turn_keeps (fun _ _ hu => hu.tick) (hstart (startOp s op) Cause.noConfusion) ht

/-- A unit command whose required flags are not set (45 R158). -/
theorem issue_refused {ready : Status → Bool} {start : State → State} {s : State} (h : Idle s)
    (hready : ready s.status.start = false) : issue .unit ready start s = .next { s with
      op := .unit, work := .rest, sink := s.sink.rebase,
      status := failStatus .precond s.status.ftV s.status.treeV s.status.ctV s.status.hdrV false } := by
  rw [issue_precond h hready, raiseCause_startOp]

/-- Settles O13: the precondition is asked in the step of the write, and no step of the sequencer raises `PRECOND`. -/
theorem preconditions : Obligations.Preconditions := by
  intro s i hidle hi
  cases i with
  | clr =>
    refine ⟨Bool.noConfusion, fun _ t ht => ?_⟩
    cases (execClr_of_idle hidle).symm.trans ht
    exact Cause.noConfusion
  | freq | hdr => exact ⟨Bool.noConfusion, fun hr _ => notPrecond_issue hidle hr fun _ hu => hu⟩
  | enc =>
    exact ⟨Bool.noConfusion, fun hr _ =>
      notPrecond_issue (start := fun u => startFreq (clearBlock u)) hidle hr fun _ hu => hu⟩
  | dec =>
    exact ⟨Bool.noConfusion, fun hr _ =>
      notPrecond_issue (start := fun u => startHdr (clearBlock u)) hidle hr fun _ hu => hu⟩
  | build | assign | pack | unpack =>
    exact ⟨fun hr => issue_refused hidle hr, fun hr _ => notPrecond_issue hidle hr fun _ hu => hu⟩
  | paddingCount _ | entryCount _ | entry _ _ | bodyByte _ | codeBit _ => cases hi

end Sys2Proof.Machine
end

section
/-! DEC answers what `decode` answers (spec/45_commands.md R163 to R165; spec/44_bit_unpacker.md R152): HDR, BUILD and
UNPACK as one run, to each of their ends. -/

namespace Sys2Proof.Machine

/-! ### What DEC leaves -/

/-- What neither HDR nor BUILD nor UNPACK writes, channel and sink aside. -/
def outsideDec (s : State) := (s.host, s.par, s.pace, s.rdata, s.inReset, s.ct, s.acc, s.nb, s.path, s.stk)

/-- `PAD` as far as the header was read (44 R131). -/
def readPad (c : List Byte) : BitVec 3 := if 7 < (c.getD 0 0).toNat then 0 else (c.getD 0 0).setWidth 3

/-- `NENT` as far as the header was read (44 R132). -/
def readCount (c : List Byte) : BitVec 16 :=
  if 7 < (c.getD 0 0).toNat ∨ c.length < 3 then 0 else fromLE16 (c.getD 1 0) (c.getD 2 0)

/-- The status in which DEC ends: the valid flags are those of the units that completed (45 R163). -/
def decStatus : DecodeResult → Status
  | .done _ d => { goodStatus true true false true with dangling := d }
  | .fail .danglingEnd => failStatus .danglingEnd true true false true true
  | .fail .invalidBit => failStatus .invalidBit true true false true false
  | .fail .emptyTable => failStatus .emptyTable true false false true false
  | .fail c => failStatus c false false false false false

/-- DEC from `s` on the byte string `c` has come to `t`, the answer `r`. -/
structure Decoded (s : State) (c : List Byte) (rest : List Token) (r : DecodeResult) (t : State) : Prop where
  outside : outsideDec t = outsideDec (decStart s)
  pad : t.pad = readPad c
  nent : t.nent = readCount c
  status : t.status = decStatus r
  output : ∀ out d, r = .done out d → Wrote s.sink t.sink out ∧ t.inq = rest

/-- DEC from its start answers `r` in a turn's steps. -/
def Decodes (s : State) (c : List Byte) (rest : List Token) (r : DecodeResult) : Prop :=
  ∃ k t, k ≤ 8192 + 512 * c.length ∧ Run k (decStart s) t ∧ Decoded s c rest r t

/-! ### The header -/

theorem readPad_cons {p : Byte} {c : List Byte} (hpad : p.toNat ≤ 7) : readPad (p :: c) = p.setWidth 3 := by
  simp [readPad, Nat.not_lt.2 hpad]

theorem readPad_bad {p : Byte} {c : List Byte} (hpad : 7 < p.toNat) : readPad (p :: c) = 0 := by
  simp [readPad, hpad]

theorem readCount_cons {p lo hi : Byte} {c : List Byte} (hpad : p.toNat ≤ 7) :
    readCount (p :: lo :: hi :: c) = fromLE16 lo hi := by
  simp [readCount, Nat.not_lt.2 hpad]

theorem readCount_bad {p : Byte} {c : List Byte} (hpad : 7 < p.toNat) : readCount (p :: c) = 0 := by
  simp [readCount, hpad]

theorem readCount_short {c : List Byte} (hc : c.length < 3) : readCount c = 0 := by
  simp [readCount, hc]

/-- A stream without a byte (44 R134). -/
theorem decodes_empty {s : State} {rest : List Token} (hq : s.inq = .eos :: rest) :
    Decodes s [] rest (.fail .truncHdr) :=
  ⟨_, _, by omega, run_trunc0 (s := decStart s) (lo := 0) rfl rfl hq, rfl, rfl, rfl, rfl, by simp⟩

/-- A padding byte above 7 (44 R131). -/
theorem decodes_badPad {s : State} {p : Byte} {c : List Byte} {rest : List Token} (hpad : 7 < p.toNat)
    (hq : s.inq = byteTokens (p :: c) ++ .eos :: rest) : Decodes s (p :: c) rest (.fail .badPad) :=
  ⟨_, _, by omega, run_badPad (s := decStart s) rfl rfl rfl hpad hq, rfl, (readPad_bad hpad).symm,
    (readCount_bad hpad).symm, rfl, by simp⟩

/-- A stream of one byte (44 R134). -/
theorem decodes_trunc1 {s : State} {p : Byte} {rest : List Token} (hpad : p.toNat ≤ 7)
    (hq : s.inq = byteTokens [p] ++ .eos :: rest) : Decodes s [p] rest (.fail .truncHdr) :=
  ⟨_, _, by simp, run_trunc1 (s := decStart s) rfl rfl rfl hpad hq, rfl, (readPad_cons hpad).symm,
    (readCount_short (by simp)).symm, rfl, by simp⟩

/-- A stream of two bytes (44 R134). -/
theorem decodes_trunc2 {s : State} {p lo : Byte} {rest : List Token} (hpad : p.toNat ≤ 7)
    (hq : s.inq = byteTokens [p, lo] ++ .eos :: rest) : Decodes s [p, lo] rest (.fail .truncHdr) :=
  ⟨_, _, by simp, run_trunc2 (s := decStart s) rfl rfl rfl hpad hq, rfl, (readPad_cons hpad).symm,
    (readCount_short (by simp)).symm, rfl, by simp⟩

/-- A stream that ends before the entries do (44 R134). -/
theorem decodes_trunc {s : State} {p lo hi : Byte} {c : List Byte} {rest : List Token} (hpad : p.toNat ≤ 7)
    (hc : c.length < 9 * (fromLE16 lo hi).toNat) (hq : s.inq = byteTokens (p :: lo :: hi :: c) ++ .eos :: rest) :
    Decodes s (p :: lo :: hi :: c) rest (.fail .truncHdr) := by
  obtain ⟨sym, acc, ft, hrun⟩ := run_trunc (s := decStart s) rfl rfl rfl hpad hc hq
  refine ⟨_, _, ?_, hrun, rfl, (readPad_cons hpad).symm, (readCount_cons hpad).symm, rfl, by simp⟩
  simp only [List.length_cons]
  omega

/-- DEC from `s` on the byte string `c` has read a header that leaves the table `ft` and the tokens `q`. -/
structure Parsed (s : State) (c : List Byte) (ft : Table Count) (q : List Token) (u : State) : Prop where
  outside : outsideDec u = outsideDec (decStart s)
  pad : u.pad = readPad c
  nent : u.nent = readCount c
  ft : u.ft = ft
  inq : u.inq = q
  sink : u.sink = s.sink.rebase
  op : u.op = .dec
  status : u.status = { (decStart s).status with ftV := true, hdrV := true }

/-- HDR on a whole header, in DEC (44 R130). -/
theorem run_parsed {s : State} {p lo hi : Byte} {bytes : List Byte} {q : List Token} (body : List Byte)
    (hpad : p.toNat ≤ 7) (hlen : bytes.length = 9 * (fromLE16 lo hi).toNat)
    (hq : s.inq = byteTokens (p :: lo :: hi :: bytes) ++ q) :
    ∃ u, Run (3 + bytes.length) (decStart s) (startBuild u) ∧
      Parsed s (p :: lo :: hi :: (bytes ++ body)) (readEntries (fromLE16 lo hi).toNat bytes emptyTable) q u := by
  obtain ⟨sym, acc, hrun⟩ := run_hdr (s := decStart s) rfl rfl rfl hpad hlen hq
  rw [headerLength, ← hlen] at hrun
  exact ⟨_, hrun, rfl, (readPad_cons hpad).symm, (readCount_cons hpad).symm, rfl, rfl, rfl, rfl, rfl⟩

/-! ### BUILD and UNPACK -/

/-- The end of the leaf loop with no leaf made (41 R97). -/
theorem tick_emptyTable {s : State} (hb : s.status.busy = true) (hw : s.work = .leaves []) (hn : s.node = []) :
    tick s = .next (raiseCause .emptyTable { s with nleaf := 0 }) := by
  simp [tick, hb, hw, hn, leavesTick]

/-- A table without a key (41 R97). -/
theorem Parsed.emptyTable {s u : State} {c : List Byte} {ft : Table Count} {q : List Token}
    (h : Parsed s c ft q u) (hft : entriesOf ft = []) (rest : List Token) :
    ∃ t, Run 1 (startBuild u) t ∧ Decoded s c rest (.fail .emptyTable) t := by
  have hbusy : (startBuild u).status.busy = true := by rw [startBuild_status, h.status]; rfl
  have hwork : (startBuild u).work = .leaves [] := by rw [startBuild_work, h.ft, hft]
  refine ⟨_, .one (tick_emptyTable hbusy hwork rfl), h.outside, h.pad, h.nent, ?_, by simp⟩
  simp only [raiseCause_status, startBuild_status, h.status]
  rfl

/-- DEC from `s` on the byte string `c` has the tree `t` in the arena, and begins UNPACK on the tokens `q`. -/
structure Planted (s : State) (c : List Byte) (t : HTree) (q : List Token) (u : State) : Prop where
  outside : outsideDec u = outsideDec (decStart s)
  pad : u.pad = readPad c
  nent : u.nent = readCount c
  inq : u.inq = q
  sink : u.sink = s.sink.rebase
  status : u.status = { (decStart s).status with ftV := true, hdrV := true, treeV := true, phase := .unpack }
  tree : IsTree u.node u.root.toNat t
  cur : u.cur = u.root
  hold : u.hold = none
  work : u.work = .pull

theorem Parsed.planted {s u : State} {c : List Byte} {ft : Table Count} {q : List Token} {t : HTree}
    (h : Parsed s c ft q u) (ht : buildView (entriesOf ft) = some t) :
    ∃ k v, k ≤ 513 ∧ Run k (startBuild u) v ∧ Planted s c t q v := by
  have hne : entriesOf ft ≠ [] := by
    intro hnil
    simp [hnil] at ht
  have hlen := length_entriesOf_le ft
  have hbusy : (startBuild u).status.busy = true := by rw [startBuild_status, h.status]; rfl
  obtain ⟨node, t', hbuilt, hrun⟩ := run_build hbusy (by rw [startBuild_work, h.ft]) rfl rfl hne hlen
  obtain rfl : t' = t := Option.some.inj (hbuilt.tree.symm.trans ht)
  rw [afterBuild, show (startBuild u).op = .dec from h.op] at hrun
  refine ⟨_, _, by omega, hrun, h.outside, h.pad, h.nent, h.inq, h.sink, ?_, ?_, rfl, rfl, rfl⟩
  · simp only [startUnpack_status, startBuild_status, h.status]
    rfl
  · exact (toNat_rootIndex hlen).symm ▸ hbuilt.root

theorem Planted.par {s u : State} {c : List Byte} {t : HTree} {q : List Token} (h : Planted s c t q u) :
    u.par = s.par := congrArg (fun f => f.2.1) h.outside

theorem Planted.busy {s u : State} {c : List Byte} {t : HTree} {q : List Token} (h : Planted s c t q u) :
    u.status.busy = true := by rw [h.status]; rfl

/-- What UNPACK answers of a walk over the body (44 R141, R143). -/
def bodyAnswer (strictEnd : Bool) : List Byte × WalkEnd → DecodeResult
  | (_, .offTree) => .fail .invalidBit
  | (out, .atRoot) => .done out false
  | (out, .inside _) => if strictEnd then .fail .danglingEnd else .done out true

/-- A body whose walk leaves the tree: the tree is one leaf, and the first bit fails (44 R141, R148). -/
theorem Planted.offTree {s u : State} {c body : List Byte} {t : HTree} {rest : List Token}
    (h : Planted s c t (byteTokens body ++ .eos :: rest) u)
    (hoff : (walkView t t (examinedBits u.pad body)).2 = .offTree) :
    ∃ k v, k ≤ 9 * body.length + 9 ∧ Run k u v ∧ Decoded s c rest (.fail .invalidBit) v := by
  cases t with
  | node w l r => exact absurd hoff (walkView_onTree (two_le_leaves_node w l r) (two_le_leaves_node w l r) _)
  | leaf sym w =>
    cases body with
    | nil => simp [examinedBits, walkView] at hoff
    | cons b body =>
      obtain ⟨hleaf⟩ := h.cur.symm ▸ h.tree
      obtain ⟨work, hrun⟩ := run_offTree h.busy h.work h.hold hleaf h.inq
      refine ⟨_, _, by omega, hrun, h.outside, h.pad, h.nent, ?_, by simp⟩
      simp only [raiseCause_status, h.status]
      rfl

/-- DEC from `s` on the byte string `c` has walked the whole body and emitted `out`. -/
structure Walked (s : State) (c out : List Byte) (rest : List Token) (u : State) : Prop where
  outside : outsideDec u = outsideDec (decStart s)
  pad : u.pad = readPad c
  nent : u.nent = readCount c
  inq : u.inq = rest
  sink : u.sink = appendAll s.sink.rebase out
  status : u.status = { (decStart s).status with ftV := true, hdrV := true, treeV := true, phase := .unpack }

/-- The body ends at the root: DEC succeeds (44 R143). -/
theorem Walked.atRoot {s u : State} {c out : List Byte} {rest : List Token} (h : Walked s c out rest u)
    (hcur : u.cur = u.root) : Decoded s c rest (.done out false) (unpackEnd u) := by
  rw [unpackEnd_atRoot hcur]
  refine ⟨h.outside, h.pad, h.nent, ?_, fun out' d e => ?_⟩
  · simp only [endOk_status, h.status]
    rfl
  · cases e
    exact ⟨by rw [endOk_sink, h.sink]; exact wrote_appended s.sink out, h.inq⟩

/-- The body ends inside a code word: DEC fails or succeeds, as `STRICT_END` says (44 R143). -/
theorem Walked.inside {s u : State} {c out : List Byte} {rest : List Token} (h : Walked s c out rest u)
    (hcur : u.cur ≠ u.root) :
    Decoded s c rest (if u.par.strictEnd then .fail .danglingEnd else .done out true) (unpackEnd u) := by
  rw [unpackEnd_inside hcur]
  split
  · refine ⟨h.outside, h.pad, h.nent, ?_, by simp⟩
    simp only [raiseCause_status, h.status]
    rfl
  · refine ⟨h.outside, h.pad, h.nent, ?_, fun out' d e => ?_⟩
    · simp only [endOk_status, h.status]
      rfl
    · cases e
      exact ⟨by rw [endOk_sink, h.sink]; exact wrote_appended s.sink out, h.inq⟩

/-- A body whose walk stays on the tree (44 R138, R139, R143). -/
theorem Planted.onTree {s u : State} {c body : List Byte} {t : HTree} {rest : List Token} (hgood : SinkGood s)
    (h : Planted s c t (byteTokens body ++ .eos :: rest) u)
    (hon : (walkView t t (examinedBits u.pad body)).2 ≠ .offTree) :
    ∃ k v, k ≤ 9 * body.length + 9 ∧ Run k u v ∧
      Decoded s c rest (bodyAnswer u.par.strictEnd (walkView t t (examinedBits u.pad body))) v := by
  have hleft : bodyLeft u body = body := by simp [bodyLeft, h.hold]
  have hplace : WalkAt u.node u.root u.cur t t := h.cur.symm ▸ .atRoot h.tree
  obtain ⟨cur, part, k, hpart, hend, hk, work, hrun⟩ := run_body h.busy h.work (by rw [h.sink]; exact hgood.1)
    (by rw [h.sink]; exact hgood.2) hplace h.inq (by rwa [hleft])
  rw [hleft] at hend hrun
  have walked : Walked s c (walkView t t (examinedBits u.pad body)).1 rest { u with
      cur := cur, hold := none, inq := rest, work := work,
      sink := appendAll u.sink (walkView t t (examinedBits u.pad body)).1 } :=
    ⟨h.outside, h.pad, h.nent, rfl, by rw [h.sink], h.status⟩
  refine ⟨k, _, by omega, hrun, ?_⟩
  rw [← Prod.mk.eta (p := walkView t t _), hend]
  split
  · next hroot => exact walked.atRoot (hpart.cur_eq_root_iff.2 hroot)
  · next hroot => exact walked.inside (mt hpart.cur_eq_root_iff.1 hroot)

/-- UNPACK on a body, in DEC (44 R137 to R143). -/
theorem Planted.decoded {s u : State} {c body : List Byte} {t : HTree} {rest : List Token} (hgood : SinkGood s)
    (h : Planted s c t (byteTokens body ++ .eos :: rest) u) :
    ∃ k v, k ≤ 9 * body.length + 9 ∧ Run k u v ∧
      Decoded s c rest (bodyAnswer u.par.strictEnd (walkView t t (examinedBits u.pad body))) v := by
  by_cases hoff : (walkView t t (examinedBits u.pad body)).2 = .offTree
  · rw [← Prod.mk.eta (p := walkView t t _), hoff]
    exact h.offTree hoff
  · exact h.onTree hgood hoff

/-! ### The functional decode -/

/-- The entries a header declares are read from their own bytes alone (44 R133). -/
theorem readEntries_append {n : Nat} {bytes : List Byte} (h : bytes.length = 9 * n) (body : List Byte)
    (t : Table Count) : readEntries n (bytes ++ body) t = readEntries n bytes t := by
  induction n generalizing bytes t with
  | zero =>
    obtain rfl : bytes = [] := List.length_eq_zero_iff.1 h
    simp [readEntries]
  | succ n ih =>
    obtain ⟨_, _, _, _, _, _, _, _, _, r, rfl, -, hr⟩ := split_nine h.ge
    exact ih (show r.length = 9 * n by omega) _

theorem decodeView_badPad (strictEnd : Bool) {p : Byte} (hpad : 7 < p.toNat) (c : List Byte) :
    decodeView strictEnd (p :: c) = .fail .badPad := by simp only [decodeView, hpad, if_true]

/-- A stream that ends before the entry count (44 R134). -/
theorem decodeView_short (strictEnd : Bool) {p : Byte} {c : List Byte} (hpad : p.toNat ≤ 7) (hc : c.length < 2) :
    decodeView strictEnd (p :: c) = .fail .truncHdr := by
  simp only [decodeView, Nat.not_lt.2 hpad, if_false]
  split
  · simp at hc
  · rfl

/-- A stream that ends before the entries do (44 R134). -/
theorem decodeView_trunc (strictEnd : Bool) {p lo hi : Byte} {c : List Byte} (hpad : p.toNat ≤ 7)
    (hc : c.length < 9 * (fromLE16 lo hi).toNat) : decodeView strictEnd (p :: lo :: hi :: c) = .fail .truncHdr := by
  simp only [decodeView, Nat.not_lt.2 hpad, if_false, hc, if_true]

/-- A whole header whose table has no key (41 R97). -/
theorem decodeView_emptyTable (strictEnd : Bool) {p lo hi : Byte} {bytes : List Byte} (body : List Byte)
    (hpad : p.toNat ≤ 7) (hlen : bytes.length = 9 * (fromLE16 lo hi).toNat)
    (htree : buildView (entriesOf (readEntries (fromLE16 lo hi).toNat bytes emptyTable)) = none) :
    decodeView strictEnd (p :: lo :: hi :: (bytes ++ body)) = .fail .emptyTable := by
  have hmore : ¬ (bytes ++ body).length < 9 * (fromLE16 lo hi).toNat := by simp [hlen]
  simp only [decodeView, Nat.not_lt.2 hpad, hmore, if_false, readEntries_append hlen, htree]

/-- A whole header whose table has a tree: the walk over the body answers (44 R152). -/
theorem decodeView_tree (strictEnd : Bool) {p lo hi : Byte} {bytes : List Byte} (body : List Byte) {t : HTree}
    (hpad : p.toNat ≤ 7) (hlen : bytes.length = 9 * (fromLE16 lo hi).toNat)
    (htree : buildView (entriesOf (readEntries (fromLE16 lo hi).toNat bytes emptyTable)) = some t) :
    decodeView strictEnd (p :: lo :: hi :: (bytes ++ body)) =
      bodyAnswer strictEnd (walkView t t (examinedBits (p.setWidth 3) body)) := by
  have hmore : ¬ (bytes ++ body).length < 9 * (fromLE16 lo hi).toNat := by simp [hlen]
  simp only [decodeView, Nat.not_lt.2 hpad, hmore, if_false, readEntries_append hlen, htree, List.drop_left' hlen]
  rcases walkView t t (examinedBits (p.setWidth 3) body) with ⟨out, _ | _ | u⟩ <;> rfl

/-- DEC on a whole header and a body, the table with or without a key (45 R163). -/
theorem decodes_whole {s : State} {p lo hi : Byte} {bytes body : List Byte} {rest : List Token} (hgood : SinkGood s)
    (hpad : p.toNat ≤ 7) (hlen : bytes.length = 9 * (fromLE16 lo hi).toNat)
    (hq : s.inq = byteTokens (p :: lo :: hi :: (bytes ++ body)) ++ .eos :: rest) :
    Decodes s (p :: lo :: hi :: (bytes ++ body)) rest
      (decodeView s.par.strictEnd (p :: lo :: hi :: (bytes ++ body))) := by
  obtain ⟨u, hheader, hu⟩ := run_parsed (q := byteTokens body ++ .eos :: rest) body hpad hlen
    (hq.trans (by simp [byteTokens]))
  have hbound : (p :: lo :: hi :: (bytes ++ body)).length = 3 + bytes.length + body.length := by
    simp only [List.length_cons, List.length_append]
    omega
  cases htree : buildView (entriesOf (readEntries (fromLE16 lo hi).toNat bytes emptyTable)) with
  | none =>
    have hft : entriesOf (readEntries (fromLE16 lo hi).toNat bytes emptyTable) = [] := by
      by_contra hne
      obtain ⟨t, ht, -⟩ := buildView_isSome hne
      cases htree.symm.trans ht
    obtain ⟨t, hbuild, ht⟩ := hu.emptyTable hft rest
    rw [decodeView_emptyTable s.par.strictEnd body hpad hlen htree]
    exact ⟨_, t, by omega, hheader.trans hbuild, ht⟩
  | some t =>
    obtain ⟨k, v, hk, hbuild, hv⟩ := hu.planted htree
    obtain ⟨m, w, hm, hbody, hw⟩ := hv.decoded hgood
    rw [hv.par, hv.pad, readPad_cons hpad] at hw
    rw [decodeView_tree s.par.strictEnd body hpad hlen htree]
    exact ⟨_, w, by omega, hheader.trans (hbuild.trans hbody), hw⟩

/-- DEC answers what `decode` answers (44 R152). -/
theorem decodes {s : State} {c : List Byte} {rest : List Token} (hgood : SinkGood s)
    (hq : s.inq = byteTokens c ++ .eos :: rest) : Decodes s c rest (decodeView s.par.strictEnd c) := by
  cases c with
  | nil => exact decodes_empty hq
  | cons p c =>
    by_cases hpad : 7 < p.toNat
    · rw [decodeView_badPad s.par.strictEnd hpad]
      exact decodes_badPad hpad hq
    · have hle := Nat.not_lt.1 hpad
      match c, hq with
      | [], hq =>
        rw [decodeView_short s.par.strictEnd hle (by simp)]
        exact decodes_trunc1 hle hq
      | [lo], hq =>
        rw [decodeView_short s.par.strictEnd hle (by simp)]
        exact decodes_trunc2 hle hq
      | lo :: hi :: c, hq =>
        by_cases hshort : c.length < 9 * (fromLE16 lo hi).toNat
        · rw [decodeView_trunc s.par.strictEnd hle hshort]
          exact decodes_trunc hle hshort hq
        · have hlen : (c.take (9 * (fromLE16 lo hi).toNat)).length = 9 * (fromLE16 lo hi).toNat := by
            rw [List.length_take]
            omega
          rw [← List.take_append_drop (9 * (fromLE16 lo hi).toNat) c] at hq ⊢
          exact decodes_whole hgood hle hlen hq

/-- The causes `decode` answers (44 R152). -/
theorem decodeView_cause {strictEnd : Bool} {c : List Byte} {cause : Cause} (h : decodeView strictEnd c = .fail cause) :
    cause = .truncHdr ∨ cause = .badPad ∨ cause = .emptyTable ∨ cause = .invalidBit ∨ cause = .danglingEnd := by
  revert h
  fun_cases decodeView strictEnd c <;> intro h <;> cases h <;> simp

theorem decStatus_ended (r : DecodeResult) :
    (decStatus r).busy = false ∧ (decStatus r).done = true ∧ (decStatus r).ctV = false := by
  unfold decStatus
  split <;> exact ⟨rfl, rfl, rfl⟩

/-- Settles O40: the run of DEC ends where `decode` says, within the turn's bound of steps. -/
theorem decResult : Obligations.DecResult := by
  intro s c rest hs hgood hq
  obtain ⟨k, t, hk, hrun, ht⟩ := decodes hgood hq
  obtain ⟨hbusy, hdone, hctV⟩ := ht.status ▸ decStatus_ended (decodeView s.par.strictEnd c)
  have hbound : k ≤ stepBound (decStart s) := by
    have hinq : (decStart s).inq = s.inq := rfl
    simp only [stepBound, hinq, hq, byteTokens, List.length_append, List.length_map, List.length_cons]
    omega
  have hexec := (execDec_of_idle hs.1).trans (turn_of_run hs.2 hrun hbusy hbound)
  have hout := ht.outside
  simp only [outsideDec, Prod.mk.injEq] at hout
  obtain ⟨host, par, pace, rdata, reset, ct, acc, nb, path, stk⟩ := hout
  refine ⟨t, hexec, hbusy, hdone, host, par, pace, rdata, reset.trans hs.1.2, hctV, ct, acc, nb, path, stk, ht.pad,
    ht.nent, ?_⟩
  have hstatus := ht.status
  cases hanswer : decodeView s.par.strictEnd c with
  | done out d =>
    obtain ⟨hwrote, hinq⟩ := ht.output out d hanswer
    exact ⟨hwrote, hinq, by rw [hstatus, hanswer, decStatus]⟩
  | fail cause =>
    rw [hanswer] at hstatus
    refine ⟨?_, decodeView_cause hanswer⟩
    rw [hstatus]
    rcases decodeView_cause hanswer with rfl | rfl | rfl | rfl | rfl <;> rfl

end Sys2Proof.Machine
end

section
/-! HDR's failures: a header cut short (spec/44_bit_unpacker.md R134; spec/60_exceptions.md R174) and a padding byte
above 7 (R131; R177). -/

namespace Sys2Proof.Machine

/-- A run of HDR's steps from its start to a failure is the command's answer, if the turn is long enough. HDR has
appended nothing, so that no output is void (60 R184, R185). -/
theorem execHdr_fails {n : Nat} {s : State} {c : Cause} {pad : BitVec 3} {nent : BitVec 16} {ft : Table Count}
    {hpos : BitVec 20} {hsym : Byte} {hacc : Count} {rest : List Token} {work : Work} (h : Ready s)
    (hrun : Run n (startHdr (startOp s .unit)) (raiseCause c { startHdr (startOp s .unit) with
      pad := pad, nent := nent, ft := ft, hpos := hpos, hsym := hsym, hacc := hacc, inq := rest, work := work }))
    (hn : n ≤ 8192 + 512 * s.inq.length) :
    exec .hdr s = .next { s with
      status := failStatus c false false false false false, pad := pad, nent := nent, ft := ft, hpos := hpos,
      hsym := hsym, hacc := hacc, inq := rest, sink := s.sink.rebase, op := .unit, work := .rest } := by
  obtain ⟨hidle, hpace⟩ := h
  have hexec : exec .hdr s = turn (startHdr (startOp s .unit)) := issue_run hidle rfl
  have hbound : n ≤ stepBound (startHdr (startOp s .unit)) := by
    simp only [stepBound, startHdr_inq, startOp_inq]
    omega
  refine hexec.trans ((turn_of_run (s := startHdr (startOp s .unit)) hpace hrun rfl hbound).trans ?_)
  simp [raiseCause, voidSink, Sink.voidOutput, Sink.rebase, startHdr, startOp, Status.start, Status.clearAll,
    Status.fail, failStatus]

/-- Settles O32: the step on the first byte of the stream is the whole turn. -/
theorem hdrBadPad : Obligations.HdrBadPad := fun _ _ _ hs hpad hq =>
  execHdr_fails hs (run_badPad rfl rfl rfl hpad hq) (by omega)

/-- Settles O31: the stream ends at one of four places, before or after each of the first two bytes or inside the
entries. -/
theorem hdrTruncated : Obligations.HdrTruncated := by
  intro s c rest hs hpad hshort hq
  match c, hpad, hshort, hq with
  | [], _, _, hq => exact ⟨_, _, _, execHdr_fails hs (run_trunc0 rfl rfl hq) (by omega)⟩
  | [p], hpad, _, hq => exact ⟨_, _, _, execHdr_fails hs (run_trunc1 rfl rfl rfl (hpad p rfl) hq) (by omega)⟩
  | [p, lo], hpad, _, hq => exact ⟨_, _, _, execHdr_fails hs (run_trunc2 rfl rfl rfl (hpad p rfl) hq) (by omega)⟩
  | p :: lo :: hi :: l, hpad, hshort, hq =>
    have hlen : (p :: lo :: hi :: l).length = 3 + l.length := by simp only [List.length_cons]; omega
    rw [hlen] at hshort ⊢
    have hl : l.length < 9 * (fromLE16 lo hi).toNat := by
      simp only [headerLength, List.getD_cons_succ, List.getD_cons_zero] at hshort
      omega
    obtain ⟨sym, acc, ft, hrun⟩ := run_trunc (s := startHdr (startOp s .unit)) rfl rfl rfl (hpad p rfl) hl hq
    have hbound : l.length + 4 ≤ 8192 + 512 * s.inq.length := by
      simp only [hq, byteTokens, List.length_append, List.length_map, List.length_cons]
      omega
    rw [if_neg (by omega), if_neg (by omega)]
    exact ⟨_, _, _, execHdr_fails hs hrun hbound⟩

end Sys2Proof.Machine
end

section
/-! PACK's failure at a byte without a code word (spec/43_bit_packer.md R120; spec/60_exceptions.md R179). -/

namespace Sys2Proof.Machine

/-- Marking the output void changes no byte of it (60 R184, R185). -/
theorem output_voidOutput (k : Sink) (n : Nat) : (k.voidOutput n).output = k.output := by simp [Sink.output]

/-- The packer's completed bytes are the body's, its partial last byte left out (43 R118, R128). -/
theorem packStream_completed (q : List Bool) : (packStream 0 0 q).1 = (bodyBytes q).take (q.length / 8) := by
  rw [packStream_zero, bodyBytes, ← List.map_take, List.take_range, Nat.min_eq_left (by omega)]

/-- The step of PACK that pulls a byte without a code word (43 R120). -/
theorem tick_noCode {s : State} {b : Byte} {rest : List Token} (hb : s.status.busy = true) (hw : s.work = .packPull)
    (hq : s.inq = .byte b :: rest) (hc : tableGet s.ct b = none) :
    tick s = .next (raiseCause .noCode { s with inq := rest }) := by
  simp [tick, hb, hw, packPullTick, hq, packToken, hc]

/-- Settles O28: the turn of PACK is the run over the header and the bytes with a code word, and the failing step. -/
theorem packNoCode : Obligations.PackNoCode := by
  rintro s l b rest ⟨hidle, hpace⟩ ⟨hready, hfails⟩ hft hct hq hcode hnone
  have hready' : Status.packReady s.status.start = true := by simp [Status.packReady, Status.start, hft, hct]
  have hexec : exec .pack s = turn (startPack (startOp s .unit)) := issue_run hidle hready'
  have hheader := run_packHeader (s := startPack (startOp s .unit)) rfl rfl hready hfails
  have hsome : ∀ b ∈ l, (tableGet s.ct b).isSome := fun b hb => by
    obtain ⟨c, hc, -⟩ := hcode b hb
    simp [hc]
  have hbody := run_packSymbols (l := l) (rest := .byte b :: rest) (s := startBody { startPack (startOp s .unit) with
      nent := BitVec.ofNat 16 (keyCount s.ft), sink := appendAll s.sink.rebase (0x00#8 :: headerTail s.ft) })
    rfl rfl (by simpa using hready) (by simpa using hfails) hsome (hq.trans (by simp [byteTokens]))
  have hrun := (hheader.trans hbody).snoc (tick_noCode rfl rfl rfl hnone)
  have hbound : 1 + (headerTail s.ft).length + (l.length + (inputBits s.ct l).length) + 1 ≤
      stepBound (startPack (startOp s .unit)) := by
    have hkeys := keyCount_le s.ft
    have hbits := length_inputBits_le hcode
    simp only [length_headerTail, stepBound, startPack_inq, startOp_inq, hq, byteTokens, List.length_append,
      List.length_map, List.length_cons, List.length_nil]
    omega
  have hout : (appendAll (appendAll s.sink.rebase (0x00#8 :: headerTail s.ft))
      (packStream 0 0 (inputBits s.ct l)).1).output = 0x00#8 :: (headerTail s.ft ++
        (bodyBytes (inputBits s.ct l)).take ((inputBits s.ct l).length / 8)) := by
    rw [output_appendAll, output_appendAll, output_rebase, packStream_completed]
    rfl
  refine ⟨_, hexec.trans (turn_of_run (s := startPack (startOp s .unit)) hpace hrun rfl hbound), ?_, rfl, rfl, rfl, ?_,
    (output_voidOutput _ _).trans hout, rfl, rfl, rfl⟩
  · simp [startBody, Status.start, Status.clearHdr, Status.fail, failStatus, hft, hct]
  · simp [outputStart, Sink.rebase]

end Sys2Proof.Machine
end

section
/-! Waiting and idleness are the only stuck states (spec/60_exceptions.md R194; spec/20_memory.md R41, R58): where the
sequencer has no step, and that every step it takes changes the state. -/

namespace Sys2Proof.Machine

/-! ### Where the sequencer has no step -/

theorem writeStep_wait_iff {s good bad : State} {off : Nat} {b : Byte} :
    writeStep s off b good bad = .wait ↔ s.sink.ready = false := by
  unfold writeStep
  rcases s.sink.put_cases off b with ⟨hr, e⟩ | ⟨_, hr, _, e⟩ | ⟨hr, _, e⟩ <;> simp [hr, e]

/-- A leaf step needs neither a token nor the sink; nor does any other step of BUILD and ASSIGN. -/
theorem leavesTick_ne_wait (keys : List (Byte × Count)) (s : State) : leavesTick keys s ≠ .wait := by
  fun_cases leavesTick keys s <;> exact Tick.noConfusion

theorem mergeTick_ne_wait (s : State) : mergeTick s ≠ .wait := by
  fun_cases mergeTick s <;> exact Tick.noConfusion

theorem visitTick_ne_wait (s : State) : visitTick s ≠ .wait := by
  fun_cases visitTick s <;> exact Tick.noConfusion

theorem unwindTick_ne_wait (s : State) : unwindTick s ≠ .wait := by
  fun_cases unwindTick s <;> exact Tick.noConfusion

/-- A header byte is due unless none is left (43 R115). -/
theorem packHdrTick_wait_iff {bytes : List Byte} {s : State} :
    packHdrTick bytes s = .wait ↔ s.sink.ready = false ∧ ∃ b r, bytes = b :: r := by
  rcases bytes with _ | ⟨b, _ | ⟨c, r⟩⟩ <;> simp [packHdrTick, writeStep_wait_iff]

/-- A body byte is due at the bit that completes it (43 R118). -/
theorem packBitsTick_wait_iff {bits : List Bool} {s : State} :
    packBitsTick bits s = .wait ↔ s.sink.ready = false ∧ ∃ v r, bits = v :: r ∧ s.nb = 7 := by
  cases bits with
  | nil => simp [packBitsTick]
  | cons v r =>
    simp only [packBitsTick, packBit]
    split
    · next h7 => simp [writeStep_wait_iff, h7]
    · next h7 => simpa using fun _ => h7

/-- A symbol is due where the bit leads to a leaf (44 R142). -/
theorem bitMove_wait_iff {v : Bool} {s : State} :
    bitMove v s = .wait ↔ s.sink.ready = false ∧ ∃ w i j sym w', s.node[s.cur.toNat]? = some (.internal w i j) ∧
      s.node[(if v then j else i).toNat]? = some (.leaf sym w') := by
  unfold bitMove
  rcases s.node[s.cur.toNat]? with _ | _ | ⟨w, i, j⟩
  · simp
  · simp
  · rcases hc : s.node[(if v then j else i).toNat]? with _ | ⟨sym, w'⟩ | _
    · simp [hc]
    · rcases s.sink.put_cases s.sink.olen sym with ⟨hr, e⟩ | ⟨_, hr, _, e⟩ | ⟨hr, _, e⟩ <;> simp [hc, hr, e]
    · simp [hc]

theorem walkTick_wait_iff {bits : List Bool} {next : Option Byte} {s : State} :
    walkTick bits next s = .wait ↔ s.sink.ready = false ∧ ∃ v r w i j sym w', bits = v :: r ∧
      s.node[s.cur.toNat]? = some (.internal w i j) ∧
      s.node[(if v then j else i).toNat]? = some (.leaf sym w') := by
  cases bits with
  | nil => simp [walkTick]
  | cons v r =>
    have hmove : walkTick (v :: r) next s = .wait ↔ bitMove v s = .wait := by
      simp only [walkTick, walkBit_eq]
      cases bitMove v s <;> simp [BitMove.tick]
    rw [hmove, bitMove_wait_iff]
    simp

/-- A busy block has no step exactly where it waits for a token or for the sink (60 R194). -/
theorem tick_wait_iff {s : State} (hb : s.status.busy = true) (hrest : s.work ≠ .rest) : tick s = .wait ↔ Waits s := by
  simp only [tick, hb, if_true, Waits, Bool.true_eq_false, false_or]
  cases hw : s.work with
  | rest => exact absurd hw hrest
  | freq => cases hq : s.inq <;> simp [freqTick, hq]
  | packPull => cases hq : s.inq <;> simp [packPullTick, hq]
  | hdr lo => rcases hq : s.inq with _ | ⟨_ | _, _⟩ <;> simp [hdrTick, hq]
  | pull => cases hq : s.inq <;> simp [pullTick, hq]
  | leaves keys => simp [leavesTick_ne_wait]
  | merge => simp [mergeTick_ne_wait]
  | visit => simp [visitTick_ne_wait]
  | unwind => simp [unwindTick_ne_wait]
  | packStart => simp [packStartTick, writeStep_wait_iff]
  | packHdr bytes => simp [packHdrTick_wait_iff]
  | packBits bits => simp [packBitsTick_wait_iff]
  | packTail => simp [packTailTick, writeStep_wait_iff]
  | packRewrite => simp [packRewriteTick, writeStep_wait_iff]
  | walk bits next => simp [walkTick_wait_iff]

theorem Waits.tick {s : State} (h : Waits s) : tick s = .wait := by
  cases hb : s.status.busy with
  | false => exact tick_idle hb
  | true =>
    have hrest : s.work ≠ .rest := fun hw => by simp [Waits, hb, hw] at h
    exact (tick_wait_iff hb hrest).2 h

theorem Inv.waits_of_tick {s : State} (h : Inv s) (ht : Machine.tick s = .wait) : Waits s := by
  cases hb : s.status.busy with
  | false => exact .inl hb
  | true => exact (tick_wait_iff hb (h.status.2.1.1 hb)).1 ht

/-! ### Every step changes the state -/

/-- A token pulled is off the channel. -/
theorem ne_of_pulled {s t : State} {tok : Token} {rest : List Token} (hq : s.inq = tok :: rest) (ht : t.inq = rest) :
    t ≠ s := by
  rintro rfl
  exact List.cons_ne_self tok rest (hq.symm.trans ht)

@[simp] theorem inq_freqToken (tok : Token) (s : State) : (freqToken tok s).inq = s.inq := by
  cases tok with
  | byte b => rfl
  | eos => simp only [freqToken, afterFreq]; split <;> rfl

@[simp] theorem inq_packToken (tok : Token) (s : State) : (packToken tok s).inq = s.inq := by
  cases tok with
  | byte b => simp only [packToken]; split <;> rfl
  | eos => rfl

@[simp] theorem inq_hdrByte (lo b : Byte) (s : State) : (hdrByte lo b s).inq = s.inq :=
  (congrArg State.inq (hdrByte_inq lo b s s.inq) :)

@[simp] theorem inq_unpackEnd (s : State) : (unpackEnd s).inq = s.inq := by
  simp only [unpackEnd]
  split <;> rfl

@[simp] theorem inq_walkFrom (bits : List Bool) (next : Option Byte) (s : State) :
    (walkFrom bits next s).inq = s.inq := by
  unfold walkFrom
  split
  · cases next <;> simp [walkEnd]
  · rfl

@[simp] theorem inq_unpackToken (tok : Token) (s : State) : (unpackToken tok s).inq = s.inq := by
  unfold unpackToken
  split <;> simp

/-- Where a step that writes to the sink leaves the unit: at its end, or where the write was to lead it. -/
theorem writeStep_work {s good bad t : State} {off : Nat} {b : Byte} (ht : writeStep s off b good bad = .next t) :
    t.work = .rest ∨ t.work = good.work := by
  rcases writeStep_cases s off b good bad with ⟨_, e⟩ | ⟨_, _, e⟩ | ⟨_, e⟩ <;> cases e.symm.trans ht
  · exact .inl rfl
  · exact .inr rfl

theorem writeStep_ne {s good bad t : State} {off : Nat} {b : Byte} (ht : writeStep s off b good bad = .next t)
    (hrest : s.work ≠ .rest) (hgood : good.work ≠ s.work) : t ≠ s := by
  rintro rfl
  exact (writeStep_work ht).elim hrest hgood.symm

theorem freqTick_ne {s t : State} (ht : freqTick s = .next t) : t ≠ s := by
  unfold freqTick at ht
  split at ht <;> cases ht
  next hq => exact ne_of_pulled hq (inq_freqToken ..)

theorem leavesTick_ne {s t : State} {keys : List (Byte × Count)} (hw : s.work = .leaves keys)
    (ht : leavesTick keys s = .next t) : t ≠ s := by
  refine ne_of_apply_ne State.work ?_
  rw [hw]
  revert ht
  fun_cases leavesTick keys s <;> rintro ⟨⟩ <;> simp

/-- A merge step adds a node; the last one ends BUILD (41 R92, R95). -/
theorem mergeTick_ne {s t : State} (hw : s.work = .merge) (ht : mergeTick s = .next t) : t ≠ s := by
  revert ht
  fun_cases mergeTick s <;> rintro ⟨⟩
  · refine ne_of_apply_ne State.work ?_
    rw [hw]
    unfold afterBuild
    split <;> simp
  · exact ne_of_apply_ne State.node (by simp)

theorem visitTick_ne {s t : State} (hw : s.work = .visit) (ht : visitTick s = .next t) : t ≠ s := by
  revert ht
  fun_cases visitTick s <;> rintro ⟨⟩
  · exact ne_of_apply_ne State.work (by simp [hw])
  · exact ne_of_apply_ne State.path (by simp)

theorem unwindTick_ne {s t : State} (hw : s.work = .unwind) (ht : unwindTick s = .next t) : t ≠ s := by
  revert ht
  fun_cases unwindTick s <;> rintro ⟨⟩
  · refine ne_of_apply_ne State.work ?_
    rw [hw]
    unfold afterAssign
    split <;> simp
  · exact ne_of_apply_ne State.work (by simp [hw])
  · next hstk => exact ne_of_apply_ne State.stk (by simp [hstk])

theorem packHdrTick_ne {s t : State} {bytes : List Byte} (hw : s.work = .packHdr bytes)
    (ht : packHdrTick bytes s = .next t) : t ≠ s := by
  unfold packHdrTick at ht
  split at ht
  · cases ht
    exact ne_of_apply_ne State.work (by simp [hw])
  · exact writeStep_ne ht (by simp [hw]) (by simp [hw])
  · exact writeStep_ne ht (by simp [hw]) (by simp [hw])

theorem packPullTick_ne {s t : State} (ht : packPullTick s = .next t) : t ≠ s := by
  unfold packPullTick at ht
  split at ht <;> cases ht
  next hq => exact ne_of_pulled hq (inq_packToken ..)

/-- A bit appended is no longer to be appended (43 R117). -/
theorem packWork_ne (v : Bool) (rest : List Bool) : packWork rest ≠ .packBits (v :: rest) := by
  unfold packWork
  split <;> simp

theorem packBitsTick_ne {s t : State} {bits : List Bool} (hw : s.work = .packBits bits)
    (ht : packBitsTick bits s = .next t) : t ≠ s := by
  cases bits with
  | nil =>
    cases ht
    exact ne_of_apply_ne State.work (by simp [hw])
  | cons v rest =>
    simp only [packBitsTick, packBit] at ht
    split at ht
    · exact writeStep_ne ht (by simp [hw]) (by simpa only [hw] using packWork_ne v rest)
    · cases ht
      exact ne_of_apply_ne State.work (by simpa only [hw] using packWork_ne v rest)

theorem hdrTick_ne {s t : State} {lo : Byte} (ht : hdrTick lo s = .next t) : t ≠ s := by
  unfold hdrTick at ht
  split at ht <;> cases ht
  · next hq => exact ne_of_pulled hq rfl
  · next hq => exact ne_of_pulled hq (inq_hdrByte ..)

theorem pullTick_ne {s t : State} (ht : pullTick s = .next t) : t ≠ s := by
  unfold pullTick at ht
  split at ht <;> cases ht
  next hq => exact ne_of_pulled hq (inq_unpackToken ..)

/-- A walk goes on with the bits it is given, or is over (44 R138, R139). -/
theorem walkFrom_work_ne {rest bits : List Bool} (h : rest = [] ∨ rest ≠ bits) (next next' : Option Byte) (s : State) :
    (walkFrom rest next s).work ≠ .walk bits next' := by
  unfold walkFrom
  split
  · cases next with
    | none => simp only [walkEnd, unpackEnd]; split <;> simp
    | some b => simp [walkEnd]
  · next hne => simp [h.resolve_left hne]

theorem walkTick_ne {s t : State} {bits : List Bool} {next : Option Byte} (hw : s.work = .walk bits next)
    (ht : walkTick bits next s = .next t) : t ≠ s := by
  refine ne_of_apply_ne State.work ?_
  rw [hw]
  cases bits with
  | nil =>
    cases ht
    exact walkFrom_work_ne (rest := []) (.inl rfl) next next s
  | cons v rest =>
    simp only [walkTick, walkBit_eq] at ht
    cases hm : bitMove v s with
    | wait | fault _ => rw [hm] at ht; cases ht
    | offTree | writeFails _ _ =>
      rw [hm] at ht
      cases ht
      exact Work.noConfusion
    | goOn c k =>
      rw [hm] at ht
      cases ht
      exact walkFrom_work_ne (.inr (List.cons_ne_self v rest).symm) next next { s with cur := c, sink := k }

/-- Every step of the sequencer changes the state (60 R194). -/
theorem tick_ne {s t : State} (ht : tick s = .next t) : t ≠ s := by
  unfold tick at ht
  split at ht
  · cases hw : s.work <;> simp only [hw] at ht
    case rest => cases ht
    case freq => exact freqTick_ne ht
    case leaves => exact leavesTick_ne hw ht
    case merge => exact mergeTick_ne hw ht
    case visit => exact visitTick_ne hw ht
    case unwind => exact unwindTick_ne hw ht
    case packStart => exact writeStep_ne ht (by simp [hw]) (by simp [hw])
    case packHdr => exact packHdrTick_ne hw ht
    case packPull => exact packPullTick_ne ht
    case packBits => exact packBitsTick_ne hw ht
    case packTail => exact writeStep_ne ht (by simp [hw]) (by simp [hw])
    case packRewrite => exact writeStep_ne ht (by simp [hw]) (by simp [hw])
    case hdr => exact hdrTick_ne ht
    case pull => exact pullTick_ne ht
    case walk => exact walkTick_ne hw ht
  · cases ht

/-- Settles O55: the sequencer has no step exactly where it waits, and the machine's step begins with a step it has. -/
theorem waitingIsNoStep : Obligations.WaitingIsNoStep := by
  constructor
  · intro s hhost hwaits
    exact (step_nil hhost).trans (drive_wait hwaits.tick _)
  · intro s h hhost hwaits
    cases ht : tick s with
    | wait => exact absurd (h.waits_of_tick ht) hwaits
    | fault f => exact absurd ht ((tick_inv h).1 f)
    | next t => exact ⟨t, _, rfl, tick_ne ht, step_of_tick hhost ht⟩

end Sys2Proof.Machine
end
